-- ==== Sys2Proof/Word.lean ====
section
/-! DEFINITION. The word types of the AESCTRAT engine (00_scope R8 to R11). -/

namespace Sys2Proof

/-- A byte: 8 bits (R10). -/
abbrev Byte := BitVec 8

/-- A register or operand: 64 bits, unsigned (R8, R24). -/
abbrev Word := BitVec 64

/-- A 16-byte sequence, held as the number `be128` gives it (R11: `be128` and `bytes128` are inverse), so that byte 0 is
bits 127 to 120. The counter block is that number anyway (R122). DESIGN CHOICE, log entry 17. -/
abbrev Block := BitVec 128

/-- The opaque handle by which the engine names a key schedule that the cipher collaborator holds (R31, R105).
A number stands for it: nothing but equality of handles is ever used. DESIGN CHOICE, log entry 15. -/
structure Sched where
  handle : Nat
  deriving DecidableEq, Repr, Inhabited

end Sys2Proof
end

