-- ==== Sys2Proof/Syntax.lean ====
section
/-! DEFINITION. The syntax: the ten instructions of the opcode table, the registers of the window, the cipher-port requests,
and the host's transactions and script statements (30_encoding). -/

namespace Sys2Proof

/-- The rows of the opcode table: five commands (R94) and five kinds of cipher-port request (R104). None has an operand
field: a command's operands are the snapshot's registers (R96), a request's are its payload (R105 to R107). -/
inductive Instr where
  /-- OP 0x00 (R225). -/
  | nop
  /-- OP 0x01 (R222). -/
  | construct
  /-- OP 0x02 (R146). -/
  | apply
  /-- OP 0x03 (R128). -/
  | counter
  /-- OP 0x04 (R155). -/
  | plan
  /-- KIND 0 (R105). -/
  | expand
  /-- KIND 1 (R106). -/
  | enc1
  /-- KIND 2 (R107). -/
  | encb2
  /-- KIND 3 (R107). -/
  | encb4
  /-- KIND 4 (R107). -/
  | encb8
  deriving DecidableEq, Repr

/-- Which of the two formats an instruction has: a 64-bit command word (R93) or a 3-bit request kind (R104). -/
def Instr.isCommand : Instr → Bool
  | .nop | .construct | .apply | .counter | .plan => true
  | .expand | .enc1 | .encb2 | .encb4 | .encb8 => false

/-- The registers of the window (R91). -/
inductive Reg where
  | cmd | status | config | keyLen | key0 | key1 | key2 | key3 | ivHi | ivLo | ivLen | offset
  | srcAddr | srcLen | dstAddr | dstLen | blockIndex | ctrOutHi | ctrOutLo
  | planLead | planNfull | planN8 | planN4 | planN2 | planN1 | planTrail | id | params
  deriving DecidableEq, Repr

/-- The access kinds of the register map (R91, R46). -/
inductive Access where
  | readWrite | readOnly | writeOnly
  deriving DecidableEq, Repr

/-- The batch widths that have a request kind of their own (R107); width 1 is ENC1 (R179). -/
inductive Width where
  | w2 | w4 | w8
  deriving DecidableEq, Repr

/-- The number of blocks of a batch width. -/
def Width.blocks : Width → Nat
  | .w2 => 2
  | .w4 => 4
  | .w8 => 8

/-- A cipher-port request with its payload (R105 to R107). -/
inductive Request where
  /-- `{NR, KEYLEN, KEY}`. -/
  | expand (nr keylen : BitVec 8) (key : List Byte)
  /-- `{SCHED, X}`. -/
  | enc1 (sched : Sched) (x : Block)
  /-- `{SCHED, IV, START, DATA}`, of width 2, 4 or 8. -/
  | encb (w : Width) (sched : Sched) (iv : Block) (start : Word) (data : List Byte)
  deriving DecidableEq, Repr

/-- What the world outside the engines does to them (R99, R270, R273), one transaction each. Addresses of register
transactions are the host's: the window's base plus the offset (R90). -/
inductive HostOp where
  /-- A register write of `bits` bits at host address `addr` (R21). -/
  | write (addr bits : Nat) (v : Word)
  /-- A register read of `bits` bits at host address `addr` (R21). -/
  | read (addr bits : Nat)
  /-- Poll STATUS of the engine whose window starts at `base` until DONE is 1 (R99). -/
  | wait (base : Nat)
  /-- The host writes bytes to data memory (R99). -/
  | memWrite (addr : Nat) (bytes : List Byte)
  /-- The host reads `n` bytes of data memory (R99). -/
  | memRead (addr n : Nat)
  /-- The reset input of the engine whose window starts at `base` (R270). -/
  | reset (base : Nat)
  /-- The platform resets the cipher collaborator that serves the engine whose window starts at `base`, and it forgets the key
  schedules it holds (R273). -/
  | cipherReset (base : Nat)
  deriving DecidableEq, Repr

/-- The statements of the host script (R99) and its pseudo-statements (R100). -/
inductive Stmt where
  | wr (r : Reg) (v : Word)
  | rd (r : Reg)
  | cmd (i : Instr)
  | cmdw (v : Word)
  | wait
  | memw (addr : Nat) (bytes : List Byte)
  | memr (addr n : Nat)
  | setIv (iv : List Byte)
  | setKey (key : List Byte)
  | range (dst src n : Word)
  | run (i : Instr)
  deriving DecidableEq, Repr

end Sys2Proof
end

