-- ==== Sys2Proof/WellFormed.lean ====
section
/-! DEFINITION. What is well formed: request payloads (R105 to R107), register accesses (R21, R71) and script statements
(R99, R100). An `Instr` has no operand, so there is nothing to check about one. -/

namespace Sys2Proof

/-- `NR(16) = 10`, `NR(24) = 12`, `NR(32) = 14`, and no other key length (R221). -/
def roundCount : Nat → Option (BitVec 8)
  | 16 => some 10
  | 24 => some 12
  | 32 => some 14
  | _ => none

/-- The payload has the sizes and the legal values R105 to R107 give it. -/
def Request.wellFormed : Request → Bool
  | .expand nr keylen key => roundCount keylen.toNat == some nr && key.length == keylen.toNat
  | .enc1 _ _ => true
  | .encb w _ _ _ data => data.length == 16 * w.blocks

/-- Whether an address lies in the 4096-byte window that starts at `base` (R61, R90). -/
def inWindow (base addr : Nat) : Bool :=
  decide (base ≤ addr) && decide (addr < base + 0x1000)

/-- A 64-bit access at an 8-byte-aligned offset: the only register access with a meaning (R21, R71). -/
def wholeAccess (base addr bits : Nat) : Bool :=
  bits == 64 && (addr - base) % 8 == 0

/-- A script statement has the shape R99 and R100 give it: CMD and RUN name a command, SETIV has 16 bytes, SETKEY 16, 24 or 32. -/
def Stmt.wellFormed : Stmt → Bool
  | .cmd i => i.isCommand
  | .run i => i.isCommand
  | .setIv iv => iv.length == 16
  | .setKey key => (roundCount key.length).isSome
  | _ => true

end Sys2Proof
end

