-- ==== Sys2Proof/Decode.lean ====
section
/-! DEFINITION. Decoding of command words (R94), request kinds (R104) and register offsets (R91), each total and rejecting by
name, with the encoders written from the same tables. -/

namespace Sys2Proof

/-- Why a word is no instruction. -/
inductive Reject where
  /-- RSVD[63:8] is not 0 (R97). -/
  | reservedBits
  /-- OP is 0x05 to 0xFF (R97). -/
  | illegalOpcode
  /-- KIND is 5 to 7, which no engine issues (R104). -/
  | unusedKind
  deriving DecidableEq, Repr

/-- The answer of a decoder. -/
inductive Decoded where
  | instr (i : Instr)
  | reject (why : Reject)
  deriving DecidableEq, Repr

/-- The instruction a decoder gave, if it gave one. -/
def Decoded.toOption : Decoded → Option Instr
  | .instr i => some i
  | .reject _ => none

/-- The command word's fields: OP = [7:0] (R93). -/
def cmdOp (v : Word) : BitVec 8 := v.extractLsb' 0 8

/-- The command word's fields: RSVD = [63:8] (R93). -/
def cmdRsvd (v : Word) : BitVec 56 := v.extractLsb' 8 56

/-- Decode a command word: total (R94, R95). -/
def decodeCmd (v : Word) : Decoded :=
  if cmdRsvd v ≠ 0 then .reject .reservedBits
  else if cmdOp v = 0x00 then .instr .nop
  else if cmdOp v = 0x01 then .instr .construct
  else if cmdOp v = 0x02 then .instr .apply
  else if cmdOp v = 0x03 then .instr .counter
  else if cmdOp v = 0x04 then .instr .plan
  else .reject .illegalOpcode

/-- Decode the KIND field of a cipher-port request (R104). -/
def decodeKind (k : BitVec 3) : Decoded :=
  if k = 0 then .instr .expand
  else if k = 1 then .instr .enc1
  else if k = 2 then .instr .encb2
  else if k = 3 then .instr .encb4
  else if k = 4 then .instr .encb8
  else .reject .unusedKind

/-- The code of an instruction: OP for a command (R94), KIND for a request (R104). -/
def Instr.code : Instr → Nat
  | .nop => 0x00
  | .construct => 0x01
  | .apply => 0x02
  | .counter => 0x03
  | .plan => 0x04
  | .expand => 0
  | .enc1 => 1
  | .encb2 => 2
  | .encb4 => 3
  | .encb8 => 4

/-- The command word of a command: OP with RSVD = 0 (R93, R94). -/
def encodeCmd (i : Instr) : Word := BitVec.ofNat 64 i.code

/-- The KIND of a request (R104). -/
def encodeKind (i : Instr) : BitVec 3 := BitVec.ofNat 3 i.code

/-- The KIND of a request with its payload (R104). -/
def Request.kind : Request → BitVec 3
  | .expand .. => 0
  | .enc1 .. => 1
  | .encb .w2 .. => 2
  | .encb .w4 .. => 3
  | .encb .w8 .. => 4

/-- The bits the opcode table gives an instruction's row, in whole bytes: 64 for a command word, one byte for a KIND. -/
def Instr.tableBits (i : Instr) : Nat := if i.isCommand then 64 else 8

/-- The bits of an instruction as the opcode table numbers them. -/
def encode (i : Instr) : Nat := i.code

/-- The instruction whose table bits are `w`: rows of at most one byte are request kinds, whose bits above KIND are 0;
wider ones are command words. DESIGN CHOICE, log entry 24. -/
def decodeTableWord (nbits w : Nat) : Option Instr :=
  if nbits ≤ 8 then
    if w < 8 then (decodeKind (BitVec.ofNat 3 w)).toOption else none
  else if w < 2 ^ 64 then (decodeCmd (BitVec.ofNat 64 w)).toOption else none

/-- The offset of a register in the window (R91). -/
def Reg.offsetIn : Reg → BitVec 12
  | .cmd => 0x000
  | .status => 0x008
  | .config => 0x010
  | .keyLen => 0x018
  | .key0 => 0x020
  | .key1 => 0x028
  | .key2 => 0x030
  | .key3 => 0x038
  | .ivHi => 0x040
  | .ivLo => 0x048
  | .ivLen => 0x050
  | .offset => 0x058
  | .srcAddr => 0x060
  | .srcLen => 0x068
  | .dstAddr => 0x070
  | .dstLen => 0x078
  | .blockIndex => 0x080
  | .ctrOutHi => 0x088
  | .ctrOutLo => 0x090
  | .planLead => 0x098
  | .planNfull => 0x0A0
  | .planN8 => 0x0A8
  | .planN4 => 0x0B0
  | .planN2 => 0x0B8
  | .planN1 => 0x0C0
  | .planTrail => 0x0C8
  | .id => 0x0D0
  | .params => 0x0D8

/-- The registers in the order of the map (R91). -/
def Reg.all : List Reg :=
  [.cmd, .status, .config, .keyLen, .key0, .key1, .key2, .key3, .ivHi, .ivLo, .ivLen, .offset, .srcAddr, .srcLen]
  ++ [.dstAddr, .dstLen, .blockIndex, .ctrOutHi, .ctrOutLo, .planLead, .planNfull, .planN8, .planN4, .planN2, .planN1]
  ++ [.planTrail, .id, .params]

/-- The register at an offset; none at a reserved offset (R91, R92). -/
def Reg.atOffset (off : BitVec 12) : Option Reg := Reg.all.find? (fun r => r.offsetIn == off)

/-- The access column of the register map (R91). -/
def Reg.access : Reg → Access
  | .cmd | .key0 | .key1 | .key2 | .key3 => .writeOnly
  | .config | .keyLen | .ivHi | .ivLo | .ivLen | .offset | .srcAddr | .srcLen | .dstAddr | .dstLen | .blockIndex => .readWrite
  | .status | .ctrOutHi | .ctrOutLo | .planLead | .planNfull | .planN8 | .planN4 | .planN2 | .planN1 | .planTrail
  | .id | .params => .readOnly

end Sys2Proof
end

