-- ==== Sys2Proof/Config.lean ====
section
/-! DEFINITION. What the implementation or the platform fixes and what the spec leaves open (00_scope R7, R15; 93 U1 to U24).
An opaque constant has no body: a statement about it holds for every value. -/

namespace Sys2Proof

/-- HAS_ACCEL: whether the Accelerated backend exists; OPEN, no default (R7, U20). Read by `State.reset` alone: every state
carries its own value. DESIGN CHOICE, log entry 2. -/
opaque Config.hasAccel : Bool

/-- REG_BASE: the base of the register window; platform, OPEN (R7, U20). DESIGN CHOICE, log entry 2. -/
opaque Config.regBase : Nat

/-- `E(sched, x)`, the forward cipher function: opaque, total, deterministic (R15, U21). -/
opaque Config.cipherE : Sched → Block → Block

/-- The response to EXPAND, a function of the request's payload alone: NR, KEYLEN, KEY (R105, R108). -/
opaque Config.expandKey : BitVec 8 → BitVec 8 → List Byte → Sched

/-- A free order of byte events: any list of byte indices (R68, U6). `visits` in Machine/Ops.lean makes an order of it. Log entry 10. -/
opaque Config.freeOrder : Nat → List Nat

/-- A free byte, for a byte that a race or a reset leaves at any value (R79, R272). Log entry 6. -/
opaque Config.freeByte : Nat → Byte

/-- A free register value, for the result registers of a COUNTER that overflows (R123, R128). Log entry 6. -/
opaque Config.freeWord : Nat → Word

/-- A free keystream block, for a block whose counter overflows (R123, R125). Log entry 6. -/
opaque Config.freeBlock : Nat → Block

/-- What a byte of data memory that no entry lists reads as. The spec gives no launch contents (R44). DESIGN CHOICE, log entry 3. -/
def Config.launchByte : Byte := 0

end Sys2Proof
end

