-- ==== Sys2Proof/Machine/State.lean ====
section
/-! DEFINITION. The machine's state (10_state R20 to R48) as plain data, the reasons a step can stop, and the state after reset (R45). -/

namespace Sys2Proof.Machine

/-- The micro-step an engine is in (R37). -/
inductive Phase where
  | idle | exec | check | lead | full | trail | finish
  deriving DecidableEq, Repr

/-- The two backends (R31, R32): bit value 0 Portable, 1 Accelerated. -/
inductive Backend where
  | portable | accelerated
  deriving DecidableEq, Repr

/-- CTR128_OVF: what a counter that overflowed its high half gives (R7, R123). -/
inductive CtrOvf where
  | unspecified | wrap
  deriving DecidableEq, Repr

/-- What the platform has instead of memory in a region of the data space. -/
inductive RegionKind where
  /-- No memory, or memory the platform refuses to the engine (R72). -/
  | absent
  /-- Device registers with side effects (R69). -/
  | device
  deriving DecidableEq, Repr

/-- A region of the data space that is not plain memory (R69, R72). -/
structure Region where
  base : Nat
  size : Nat
  kind : RegionKind
  deriving DecidableEq, Repr

/-- The parameters of R7, fixed for a run (R42). DESIGN CHOICE, log entry 2: carried by the state, so that a statement about
every state is one about every value of the parameters. -/
structure Plat where
  /-- ADDR_W - 1, so that ADDR_W is 1 to 64. -/
  addrBits : Fin 64
  /-- HAS_ACCEL. -/
  hasAccel : Bool
  /-- CTR128_OVF. -/
  ovf : CtrOvf
  /-- Where the data space is not plain memory (R69, R72); log entry 13. -/
  regions : List Region
  deriving DecidableEq, Repr

/-- The operand registers (R24). -/
structure Regs where
  keyLen : Word
  key0 : Word
  key1 : Word
  key2 : Word
  key3 : Word
  ivHi : Word
  ivLo : Word
  ivLen : Word
  offset : Word
  srcAddr : Word
  srcLen : Word
  dstAddr : Word
  dstLen : Word
  blockIndex : Word
  deriving DecidableEq, Repr

/-- The result registers (R29). -/
structure Results where
  ctrOutHi : Word
  ctrOutLo : Word
  planLead : Word
  planNfull : Word
  planN8 : Word
  planN4 : Word
  planN2 : Word
  planN1 : Word
  planTrail : Word
  deriving DecidableEq, Repr

/-- The fields of STATUS (R30); `statusWord` in Flags.lean lays them out. -/
structure Status where
  busy : Bool
  done : Bool
  ovr : Bool
  ctrWrap : Bool
  err : BitVec 4
  keyValid : Bool
  backend : Backend
  nr : BitVec 8
  keylenActive : BitVec 8
  deriving DecidableEq, Repr

/-- The snapshot taken at acceptance (R36). -/
structure Snap where
  op : Word
  keyLen : Word
  key0 : Word
  key1 : Word
  key2 : Word
  key3 : Word
  backendSel : Backend
  ivH : Word
  ivL : Word
  ivLen : Word
  off : Word
  s : Word
  ns : Word
  d : Word
  nd : Word
  bi : Word
  backend : Backend
  deriving DecidableEq, Repr

/-- APPLY's cursors (R39). The spec's `N`, `POS`, `P` and `NLEFT` are naturals in its pseudocode; the widths it gives them
(64, 64, 65, 64 bits) are an invariant. Log entry 18. -/
structure Cursors where
  n : Nat
  pos : Nat
  p : Nat
  nleft : Nat
  deriving DecidableEq, Repr

/-- One engine instance (R20, R256). -/
structure Engine where
  /-- Which instance this is. -/
  id : Nat
  /-- REG_BASE: where its window starts (R7, R61). -/
  base : Nat
  /-- Which collaborator serves this engine: engines with the same number share one. The spec leaves it open whether they do (R256:
  'possibly'), and the model takes any numbers: DESIGN CHOICE, log entry 28. -/
  cipher : Nat
  regs : Regs
  /-- CONFIG.BACKEND_SEL (R32). -/
  backendSel : Backend
  results : Results
  status : Status
  /-- SCHED, none when no instance has been constructed (R31, R45). -/
  sched : Option Sched
  snap : Snap
  phase : Phase
  cur : Cursors
  /-- SCRATCH: 16 bytes (R40). -/
  scratch : Block
  /-- PEND (R41). -/
  pend : Option Request
  deriving DecidableEq, Repr

/-- The ranges of an APPLY that passes its checks, from its acceptance until the host observes a completion (R76, R279), with
the destination bytes that a race leaves at any value (R79) and how many destination bytes, from the first on, its command has
written (R77). The model's own bookkeeping, log entry 11. -/
structure Window where
  engine : Nat
  src : Nat
  dst : Nat
  len : Nat
  raced : List Nat
  wrote : Nat
  deriving DecidableEq, Repr

/-- An agent that can take the next step (R5). -/
inductive Agent where
  | host
  /-- The engine with this id. -/
  | engine (id : Nat)
  /-- The collaborator, answering the engine with this id. -/
  | cipher (id : Nat)
  deriving DecidableEq, Repr

/-- Data memory: (address, byte) pairs; `Memory.wf` in Ops.lean is its canonical form. Log entry 3. -/
abbrev Memory := List Host.Cell

/-- The errors a command reports (R240); `errCode` in Flags.lean gives their codes. -/
inductive Err where
  | invalidKeyLength | invalidIvLength | lengthMismatch | invalidOverlap | notConstructed | addressRange | illegalCommand
  deriving DecidableEq, Repr

/-- What a read statement of the host returned (R99). -/
inductive Obs where
  | reg (v : Word)
  | mem (bytes : List Byte)
  deriving DecidableEq, Repr

/-- The state of the machine: the engine the next meaning acts on, the other engines, data memory, the collaborator's
schedules, and the model's own fields (log entry 5). -/
structure State where
  eng : Engine
  others : List Engine
  /-- Data memory (R44): addresses strictly rising, no entry equal to `Config.launchByte`. -/
  mem : Memory
  /-- The key schedules the collaborator holds (R105, R273), each under the id of the engine it was made for: it answers every engine
  as if it served that engine alone (R257). One list stands for one collaborator or for several: `Engine.cipher` says which engines
  share one. DESIGN CHOICE, log entry 28. -/
  held : List (Nat × Sched)
  plat : Plat
  /-- The host statements not yet executed, first first. -/
  prog : List HostOp
  /-- Which agents move next; when empty the default schedule chooses. -/
  turns : List Agent
  /-- What the host's reads returned, latest first. -/
  obs : List Obs
  /-- The APPLYs whose completion the host has not observed, latest first. -/
  windows : List Window
  /-- The index of the next free value. -/
  draws : Nat
  deriving DecidableEq, Repr

/-- Why the machine stops: the engine has no step (93_implementation_defined, treatment `stuck`). Every one is safe: the model
stops where the spec gives no effect, and BUSY is still 1 in the state before the step. -/
inductive Fault where
  /-- Raised by the data path of ENC1, ENCB2, ENCB4, ENCB8 and by APPLY's reads: an access where the platform has no memory
  (R72, U10). Safe. -/
  | dataPortStuck
  /-- Raised by ENC1, ENCB2, ENCB4, ENCB8: the request names a schedule the collaborator does not hold (R273, U17). Safe. -/
  | cipherPortStuck
  /-- Raised by the data path: an address at or above `2^ADDR_W` names no byte (R60). No APPLY that passed CHECK reaches it. Safe. -/
  | outsideDataSpace
  deriving DecidableEq, Repr

/-- Why the model gives no meaning (93_implementation_defined, treatment `refuse`). Every one is safe. -/
inductive Refusal where
  /-- Raised by an arm of `exec` alone: the instruction has no meaning yet. Safe. -/
  | notModelled (mnemonic : String)
  /-- Raised by a command's meaning when PHASE is not one of its micro-steps: no such command is executing (R37). Safe. -/
  | notExecuting
  /-- Raised by a cipher row's meaning when PEND holds no request of its kind: a response to a request never issued (U22). Safe. -/
  | noSuchRequest
  /-- Raised by the data path: a range points at device registers (R69, U16). Safe. -/
  | deviceAccess
  /-- Raised by the host's register transactions: not 64 bits wide at an 8-byte-aligned offset (R71, U8). Safe. -/
  | narrowAccess
  /-- Raised by the host's register transactions: the address lies in no engine's window (R61). Safe. -/
  | outsideWindow
  /-- Raised by the host's data accesses: no plain memory there (R60, R69, R72). Safe. -/
  | hostNoMemory
  /-- Raised by the schedule: it names an engine that does not exist. Safe. -/
  | noSuchEngine
  deriving DecidableEq, Repr

/-- The outcomes of a step of this machine. -/
abbrev Result := Host.Outcome State Fault Refusal

/-- The operand registers after reset: 0 (R45). -/
def Regs.zero : Regs :=
  { keyLen := 0, key0 := 0, key1 := 0, key2 := 0, key3 := 0, ivHi := 0, ivLo := 0, ivLen := 0, offset := 0,
    srcAddr := 0, srcLen := 0, dstAddr := 0, dstLen := 0, blockIndex := 0 }

/-- The result registers after reset: 0 (R45). -/
def Results.zero : Results :=
  { ctrOutHi := 0, ctrOutLo := 0, planLead := 0, planNfull := 0, planN8 := 0, planN4 := 0, planN2 := 0, planN1 := 0,
    planTrail := 0 }

/-- STATUS after reset: every field 0 (R45). -/
def Status.zero : Status :=
  { busy := false, done := false, ovr := false, ctrWrap := false, err := 0, keyValid := false, backend := .portable,
    nr := 0, keylenActive := 0 }

/-- The snapshot after reset: unspecified by R45 and read by no rule. DESIGN CHOICE 0, log entry 4. -/
def Snap.zero : Snap :=
  { op := 0, keyLen := 0, key0 := 0, key1 := 0, key2 := 0, key3 := 0, backendSel := .portable, ivH := 0, ivL := 0, ivLen := 0,
    off := 0, s := 0, ns := 0, d := 0, nd := 0, bi := 0, backend := .portable }

/-- The cursors after reset: unspecified by R45 and read by no rule. DESIGN CHOICE 0, log entry 4. -/
def Cursors.zero : Cursors := { n := 0, pos := 0, p := 0, nleft := 0 }

/-- An engine after reset (R45, R270); SCRATCH is unspecified there: DESIGN CHOICE 0, log entry 4. -/
def Engine.fresh (id base cipher : Nat) : Engine :=
  { id := id, base := base, cipher := cipher, regs := Regs.zero, backendSel := .portable, results := Results.zero, status := Status.zero,
    sched := none, snap := Snap.zero, phase := .idle, cur := Cursors.zero, scratch := 0, pend := none }

/-- The parameters at their defaults (R7); HAS_ACCEL has none. Log entry 2. -/
def Plat.default : Plat :=
  { addrBits := 63, hasAccel := Config.hasAccel, ovf := .unspecified, regions := [] }

/-- The machine after reset: one engine, idle (R45, R271), and memory with nothing listed (R44, log entry 3). -/
def State.reset : State :=
  { eng := Engine.fresh 0 Config.regBase 0, others := [], mem := [], held := [], plat := Plat.default,
    prog := [], turns := [], obs := [], windows := [], draws := 0 }

/-- Replace the engine the next meaning acts on. -/
def State.withEng (s : State) (e : Engine) : State := { s with eng := e }

/-- Replace data memory. -/
def State.withMem (s : State) (m : Memory) : State := { s with mem := m }

/-- Replace the schedules the collaborator holds. -/
def State.withHeld (s : State) (h : List (Nat × Sched)) : State := { s with held := h }

/-- Replace the open windows. -/
def State.withWindows (s : State) (w : List Window) : State := { s with windows := w }

/-- Replace the index of the next free value. -/
def State.withDraws (s : State) (n : Nat) : State := { s with draws := n }

/-- Replace the host's program. -/
def State.withProg (s : State) (p : List HostOp) : State := { s with prog := p }

/-- Replace the schedule. -/
def State.withTurns (s : State) (t : List Agent) : State := { s with turns := t }

/-- Add what a read of the host returned. -/
def State.observed (s : State) (o : Obs) : State := { s with obs := o :: s.obs }

end Sys2Proof.Machine
end

