-- ==== Sys2Proof/Machine/Flags.lean ====
section
/-! DEFINITION. STATUS as the host reads it (R30), the error codes (R240), and the one flag a computation sets, CTR_WRAP
(R123, R130). -/

namespace Sys2Proof.Machine

/-- A flag as a number. -/
def bit (b : Bool) : Nat := if b then 1 else 0

/-- The bit of a backend: 0 Portable, 1 Accelerated (R32). -/
def backendBit : Backend → Nat
  | .portable => 0
  | .accelerated => 1

/-- STATUS: BUSY [0], DONE [1], OVR [2], CTR_WRAP [3], ERR [7:4], KEY_VALID [8], BACKEND [9], NR [23:16],
KEYLEN_ACTIVE [31:24], the rest 0 (R30). -/
def statusWord (st : Status) : Word :=
  BitVec.ofNat 64
    (bit st.busy + 2 * bit st.done + 4 * bit st.ovr + 8 * bit st.ctrWrap + 16 * st.err.toNat + 256 * bit st.keyValid
      + 512 * backendBit st.backend + 65536 * st.nr.toNat + 16777216 * st.keylenActive.toNat)

/-- The error codes (R240). -/
def errCode : Err → BitVec 4
  | .invalidKeyLength => 1
  | .invalidIvLength => 2
  | .lengthMismatch => 3
  | .invalidOverlap => 4
  | .notConstructed => 5
  | .addressRange => 6
  | .illegalCommand => 7

/-- Whether some counter of blocks up to `b` overflows the high half: `IVH = 2^64-1` and `IVL + b >= 2^64` (R123, R130).
For a batch `b` is its last block, `START + w - 1`. -/
def ctrOverflows (ivH ivL : Word) (b : Nat) : Bool :=
  ivH == BitVec.allOnes 64 && decide (2 ^ 64 ≤ ivL.toNat + b)

/-- Set CTR_WRAP when `c` holds, else leave it (R123). -/
def Status.flagWrap (st : Status) (c : Bool) : Status := { st with ctrWrap := st.ctrWrap || c }

end Sys2Proof.Machine
end

