-- ==== Sys2Proof/Machine/Operands.lean ====
section
/-! DEFINITION. The operand forms: byte views of words (R11, R26, R27), the counter block (R120), the split of a range (R140),
the width policy (R172), the batch plan (R155), and the checks of APPLY (R146, R211 to R213, R244). -/

namespace Sys2Proof.Machine

/-- `bytes64(v)`: most significant byte first (R11). -/
def bytes64 (v : Word) : List Byte :=
  [v.extractLsb' 56 8, v.extractLsb' 48 8, v.extractLsb' 40 8, v.extractLsb' 32 8,
   v.extractLsb' 24 8, v.extractLsb' 16 8, v.extractLsb' 8 8, v.extractLsb' 0 8]

/-- `be64(s)`, for 8 bytes: byte 0 most significant (R11). -/
def be64 (bs : List Byte) : Word :=
  BitVec.ofNat 64 (bs.foldl (fun acc b => 256 * acc + b.toNat) 0)

/-- Byte `j` of a 16-byte block, byte 0 first (R11). -/
def blockByte (x : Block) (j : Nat) : Byte := x.extractLsb' (120 - 8 * j) 8

/-- The 16 bytes of a block, `bytes128(x)` (R11). -/
def blockBytes (x : Block) : List Byte := (List.range 16).map (blockByte x)

/-- The IV of its halves: `be128(IV) = {IV_HI, IV_LO}` (R26). -/
def ivBlock (ivH ivL : Word) : Block := ivH ++ ivL

/-- `ivHigh` of an IV (R120). -/
def ivHigh (iv : Block) : Word := iv.extractLsb' 64 64

/-- `ivLow` of an IV (R120). -/
def ivLow (iv : Block) : Word := iv.extractLsb' 0 64

/-- The 32 key bytes of a snapshot (R27). -/
def keyBytes (sn : Snap) : List Byte := bytes64 sn.key0 ++ bytes64 sn.key1 ++ bytes64 sn.key2 ++ bytes64 sn.key3

/-- The low half of a counter: `(ivLow + b) mod 2^64` (R120). -/
def ctrLow (ivL b : Word) : Word := ivL + b

/-- The carry into the high half: 1 exactly when `low < ivLow` (R120). -/
def ctrCarry (ivL b : Word) : Bool := decide (ctrLow ivL b < ivL)

/-- The high half of a counter: `(ivHigh + carry) mod 2^64` (R120). -/
def ctrHigh (ivH ivL b : Word) : Word := if ctrCarry ivL b then ivH + 1 else ivH

/-- The counter block `ctr(IV, b)`: high then low (R120). -/
def ctr (ivH ivL b : Word) : Block := ivBlock (ctrHigh ivH ivL b) (ctrLow ivL b)

/-- The three segments of a range (R140). -/
structure Split where
  lead : Nat
  nfull : Nat
  trail : Nat
  deriving DecidableEq, Repr

/-- `split(OFF, N)` (R140). -/
def split (off n : Nat) : Split :=
  let lead := min ((16 - off % 16) % 16) n
  let nfull := (n - lead) / 16
  { lead := lead, nfull := nfull, trail := n - lead - 16 * nfull }

/-- The split of a snapshot's range, `split(snap.OFF, snap.ND)` (R147, R155). -/
def Snap.split (sn : Snap) : Split := Machine.split sn.off.toNat sn.nd.toNat

/-- `width(NLEFT, backend)` (R172). -/
def width (n : Nat) : Backend → Nat
  | .accelerated => if 8 ≤ n then 8 else if 4 ≤ n then 4 else if 2 ≤ n then 2 else 1
  | .portable => 1

/-- The request kind of a width: none for width 1, which is an ENC1 (R179). -/
def widthKind : Nat → Option Width
  | 8 => some .w8
  | 4 => some .w4
  | 2 => some .w2
  | _ => none

/-- The widths of the FULL steps of a run of `n` blocks, in order, `fuel` of them at most (R171, R172). -/
def batchWidths (backend : Backend) : Nat → Nat → List Nat
  | 0, _ => []
  | fuel + 1, n => if n = 0 then [] else width n backend :: batchWidths backend fuel (n - width n backend)

/-- The result registers after PLAN (R155); the other results keep their values. -/
def planResults (sn : Snap) (r : Results) : Results :=
  let sp := sn.split
  let r := { r with planLead := BitVec.ofNat 64 sp.lead, planNfull := BitVec.ofNat 64 sp.nfull,
                    planTrail := BitVec.ofNat 64 sp.trail }
  match sn.backend with
  | .accelerated =>
    { r with planN8 := BitVec.ofNat 64 (sp.nfull / 8), planN4 := BitVec.ofNat 64 (sp.nfull % 8 / 4 % 2),
             planN2 := BitVec.ofNat 64 (sp.nfull % 8 / 2 % 2), planN1 := BitVec.ofNat 64 (sp.nfull % 8 % 2) }
  | .portable =>
    { r with planN8 := 0, planN4 := 0, planN2 := 0, planN1 := BitVec.ofNat 64 sp.nfull }

/-- ADDR_W (R7). -/
def Plat.addrW (p : Plat) : Nat := p.addrBits.val + 1

/-- PARAMS: MAX_BATCH = 8 in [23:16], ADDR_W in [15:8], HAS_ACCEL in [0] (R33). -/
def paramsWord (p : Plat) : Word := BitVec.ofNat 64 (65536 * 8 + 256 * p.addrW + bit p.hasAccel)

/-- ID (R2, R33). -/
def idWord : Word := 0x4145534354520007

/-- `overlap(D, S, N)`, exactly (R212). -/
def overlap (d s n : Nat) : Bool := decide (0 < n) && decide (d < s + n) && decide (s < d + n)

/-- The five checks of CHECK, first failing first (R146, R244): on the snapshot, with KEY_VALID of the instance. -/
def applyCheck (p : Plat) (keyValid : Bool) (sn : Snap) : Option Err :=
  if keyValid = false then some .notConstructed
  else if sn.ivLen ≠ 16 then some .invalidIvLength
  else if sn.nd ≠ sn.ns then some .lengthMismatch
  else if 2 ^ p.addrW < sn.s.toNat + sn.nd.toNat ∨ 2 ^ p.addrW < sn.d.toNat + sn.nd.toNat then some .addressRange
  else if overlap sn.d.toNat sn.s.toNat sn.nd.toNat = true ∧ sn.d ≠ sn.s then some .invalidOverlap
  else none

/-- How many bytes `xorn` combines: the least of the three lengths (R190). -/
def xornCount (dst a b : Nat) : Nat := min dst (min a b)

/-- The byte `xorn` writes, of the two input bytes of the same index and of nothing else (R190). -/
def xornByte (a b : Byte) : Byte := a ^^^ b

/-- `xorn(dst, a, b)`: the bytes it writes to a destination of `n` bytes (R190). -/
def xorn (n : Nat) (a b : List Byte) : List Byte := (List.zipWith xornByte a b).take n

end Sys2Proof.Machine
end

