-- ==== Sys2Proof/Machine/Ops.lean ====
section
/-! DEFINITION. The shared operations: data memory, free values and races (R79), the data port (R22, R72), acceptance (R38),
completion and errors (R246), the cipher port (R41, R108), and reset (R270 to R272). -/

namespace Sys2Proof.Machine

/-! Data memory. -/

/-- The byte at an address; an unlisted one reads as `Config.launchByte`. -/
def Memory.read : Memory → Nat → Byte
  | [], _ => Config.launchByte
  | (b, w) :: m, a => if a = b then w else Memory.read m a

/-- Write one byte, keeping the canonical form. -/
def Memory.write : Memory → Nat → Byte → Memory
  | [], a, v => if v = Config.launchByte then [] else [(a, v)]
  | (b, w) :: m, a, v =>
    if a < b then (if v = Config.launchByte then (b, w) :: m else (a, v) :: (b, w) :: m)
    else if a = b then (if v = Config.launchByte then m else (a, v) :: m)
    else (b, w) :: Memory.write m a v

/-- `MemRead(a, n)` (R12). -/
def Memory.readN (m : Memory) (a : Nat) : Nat → List Byte
  | 0 => []
  | n + 1 => m.read a :: Memory.readN m (a + 1) n

/-- `MemWrite(a, len(bs), bs)` (R12). -/
def Memory.writeN (m : Memory) (a : Nat) : List Byte → Memory
  | [] => m
  | b :: bs => Memory.writeN (m.write a b) (a + 1) bs

/-- The canonical form: addresses strictly rising, no entry equal to what an unlisted address reads as. -/
abbrev Memory.wf (m : Memory) : Prop :=
  m.Pairwise (fun c d => c.1 < d.1) ∧ ∀ c ∈ m, c.2 ≠ Config.launchByte

/-! Free values and races. -/

/-- Leave any value in each of these bytes (R79, R272). -/
def drawAt : List Nat → State → State
  | [], s => s
  | a :: as, s => drawAt as ((s.withMem (s.mem.write a (Config.freeByte s.draws))).withDraws (s.draws + 1))

/-- An address of the window's source range. -/
def Window.inSrc (w : Window) (a : Nat) : Bool := decide (w.src ≤ a) && decide (a < w.src + w.len)

/-- An address of the window's destination range. -/
def Window.inDst (w : Window) (a : Nat) : Bool := decide (w.dst ≤ a) && decide (a < w.dst + w.len)

/-- The destination bytes that another agent's write of byte `a` leaves at any value: `a` itself, and the byte computed from a
source byte that the write hit (R79). -/
def Window.hitByWrite (a : Nat) (w : Window) : List Nat :=
  (if w.inDst a then [a] else []) ++ (if w.inSrc a then [w.dst + (a - w.src)] else [])

/-- The destination bytes that another agent's read of byte `a` leaves at any value (R79). -/
def Window.hitByRead (a : Nat) (w : Window) : List Nat := if w.inDst a then [a] else []

/-- Whether the window's command has written byte `a`. -/
def Window.hasWritten (w : Window) (a : Nat) : Bool := decide (w.dst ≤ a) && decide (a < w.dst + w.wrote)

/-- Record raced destination bytes. -/
def Window.addRaced (w : Window) (as : List Nat) : Window := { w with raced := as ++ w.raced }

/-- The destination bytes of `v` that the unordered command of `w` leaves at any value: those `w` reads or writes, and those
computed from a source byte that `w` writes (R79). -/
def Window.conflicts (v w : Window) : List Nat :=
  (List.range v.len).filterMap fun k =>
    if w.inSrc (v.dst + k) || w.inDst (v.dst + k) || w.inDst (v.src + k) then some (v.dst + k) else none

/-- The destination bytes of `w` computed from a byte that a race has left at any value in an earlier command of the same engine,
which `w` reads (R77, R79). A hit is an engine's id and an address. -/
def Window.carried (w : Window) (hits : List (Nat × Nat)) : List Nat :=
  hits.filterMap fun h => if h.1 = w.engine && w.inSrc h.2 then some (w.dst + (h.2 - w.src)) else none

/-- A race hits the open windows, latest first: each takes the bytes the race leaves at any value in it and those carried from the
earlier commands of its engine. The windows with these bytes recorded, and the bytes that stay at any value: a byte that a later
command of the engine has written holds what that command wrote (R77, R79, log entry 11). -/
def spread (direct : Window → List Nat) : List Window → List Window × List (Nat × Nat)
  | [] => ([], [])
  | w :: earlier =>
    let rest := spread direct earlier
    let mine := direct w ++ w.carried rest.2
    (w.addRaced mine :: rest.1, mine.map (fun a => (w.engine, a)) ++ rest.2.filter (fun h => !(h.1 == w.engine && w.hasWritten h.2)))

/-- What a race that starts from the windows' bytes `direct` leaves: any value in those bytes and in what follows from them. -/
def raceHits (direct : Window → List Nat) (s : State) : State :=
  let r := spread direct s.windows
  drawAt (r.2.map Prod.snd) (s.withWindows r.1)

/-- Open the window of an APPLY: it races with every window another engine has open (R78, R79); windows of the same engine
are ordered before it (R77). -/
def openWindow (v : Window) (s : State) : State :=
  let t := raceHits (fun w => if w.engine = v.engine then [] else w.conflicts v) s
  t.withWindows (v.addRaced ((s.windows.filter (fun w => w.engine != v.engine)).flatMap v.conflicts) :: t.windows)

/-- The host has observed DONE = 1 of the engine with this id: its commands are ordered before what the host does next (R76). -/
def closeWindows (id : Nat) (s : State) : State := s.withWindows (s.windows.filter (fun w => w.engine != id))

/-- The destination bytes of the running command that a race leaves at any value. -/
def racedNow (s : State) : List Nat :=
  match s.windows.find? (fun w => w.engine == s.eng.id) with
  | some w => w.raced
  | none => []

/-- The running command of an engine, whose window is its latest, has written its destination bytes below address `a`. -/
def markWritten (id a : Nat) : List Window → List Window
  | [] => []
  | w :: ws => if w.engine = id then { w with wrote := a - w.dst } :: ws else w :: markWritten id a ws

/-! Byte events (R66 to R68). -/

/-- Byte events in progress: data memory, the bytes that read events have fetched, and the indices whose write events are done. -/
structure Moving where
  mem : Memory
  got : List (Nat × Byte)
  put : List Nat

/-- One byte event of index `k`: its read event if that has not happened, else its write event, else none, so that each index has
exactly one of each and the read comes first (R66, R67). -/
def byteEvent (get : Memory → Nat → Byte) (dst : Nat) (out : Nat → Byte → Byte) (x : Moving) (k : Nat) : Moving :=
  match x.got.lookup k with
  | none => { x with got := (k, get x.mem k) :: x.got }
  | some b => if x.put.contains k then x else { x with mem := x.mem.write (dst + k) (out k b), put := k :: x.put }

/-- The indices of the byte events of `n` bytes in the order in which they happen: a free order, in which indices may occur any
number of times, and then what it leaves out. Every order R67 allows is one of these (R68). Log entry 10. -/
def visits (draw n : Nat) : List Nat :=
  (Config.freeOrder draw).filter (fun k => decide (k < n)) ++ (List.range n ++ List.range n)

/-- Move `n` bytes to `dst`: byte `k` is `out k` of what `get` finds for it, in the order of `visits`. -/
def moveBytes (get : Memory → Nat → Byte) (dst n draw : Nat) (out : Nat → Byte → Byte) (m : Memory) : Memory :=
  ((visits draw n).foldl (byteEvent get dst out) { mem := m, got := [], put := [] }).mem

/-- What the write event of index `k` leaves at `dst + k`: any value where a race hit the address, else the byte written (R79). -/
def landed (raced : List Nat) (draw dst k : Nat) (b : Byte) : Byte :=
  if raced.contains (dst + k) then Config.freeByte (draw + k) else b

/-- The engine's byte events of `n` bytes to `dst`, with the bytes a race hit left at any value; its window takes note of them. -/
def events (get : Memory → Nat → Byte) (out : Nat → Byte → Byte) (dst n : Nat) (s : State) : State :=
  ((s.withMem (moveBytes get dst n s.draws (fun k b => landed (racedNow s) s.draws dst k (out k b)) s.mem)).withDraws
    (s.draws + n)).withWindows (markWritten s.eng.id (dst + n) s.windows)

/-- The engine's write events of the bytes `bs` at `dst` and up, whose read events happened before the request (R66, R176). -/
def store (dst : Nat) (bs : List Byte) (s : State) : State := events (fun _ k => bs.getD k 0) (fun _ b => b) dst bs.length s

/-! The data port. -/

/-- Whether a region shares a byte with the `n` bytes at `a`. -/
def Region.touches (a n : Nat) (r : Region) : Bool := decide (a < r.base + r.size) && decide (r.base < a + n)

/-- Why the `n` bytes at `a` cannot be accessed, if they cannot (R60, R69, R72). No byte, no access (R12). -/
def portStop (p : Plat) (a n : Nat) : Option Result :=
  if n = 0 then none
  else if 2 ^ p.addrW < a + n then some (.fault .outsideDataSpace)
  else match p.regions.find? (Region.touches a n) with
    | none => none
    | some r =>
      match r.kind with
      | .absent => some (.fault .dataPortStuck)
      | .device => some (.refused .deviceAccess)

/-- Go on if the `n` bytes at `a` can be accessed. -/
def withPort (p : Plat) (a n : Nat) (go : Result) : Result :=
  match portStop p a n with
  | some r => r
  | none => go

/-- Combine `n` bytes at `src` with keystream bytes and write them at `dst` (R190): byte `k` of the destination is byte `k` of the
source XOR byte `k` of the keystream, each byte read before its index is written (R67). -/
def transfer (src dst n : Nat) (ks : List Byte) (s : State) (go : State → Result) : Result :=
  withPort s.plat src n (withPort s.plat dst n
    (go (events (fun m k => m.read (src + k)) (fun k b => xornByte b (ks.getD k 0)) dst (xornCount n n ks.length) s)))

/-! Acceptance, completion, errors. -/

/-- The snapshot of an engine's operand registers (R36, R38). -/
def takeSnap (v : Word) (e : Engine) : Snap :=
  { op := v, keyLen := e.regs.keyLen, key0 := e.regs.key0, key1 := e.regs.key1, key2 := e.regs.key2, key3 := e.regs.key3,
    backendSel := e.backendSel, ivH := e.regs.ivHi, ivL := e.regs.ivLo, ivLen := e.regs.ivLen, off := e.regs.offset,
    s := e.regs.srcAddr, ns := e.regs.srcLen, d := e.regs.dstAddr, nd := e.regs.dstLen, bi := e.regs.blockIndex,
    backend := e.status.backend }

/-- The engine after acceptance of the command word `v` (R38). -/
def acceptEngine (v : Word) (e : Engine) : Engine :=
  { e with
    snap := takeSnap v e
    status := { e.status with busy := true, done := false, err := 0, ctrWrap := false, ovr := false }
    phase := if v = 0x02 then .check else .exec }

/-- The window of the APPLY an engine has just accepted (R79, R279). -/
def applyWindow (e : Engine) : Window :=
  { engine := e.id, src := e.snap.s.toNat, dst := e.snap.d.toNat, len := e.snap.nd.toNat, raced := [], wrote := 0 }

/-- Acceptance of a CMD write of `v` (R38); an APPLY that will pass its checks opens its window. -/
def accept (v : Word) (s : State) : State :=
  let e := acceptEngine v s.eng
  if v = 0x02 ∧ applyCheck s.plat e.status.keyValid e.snap = none then openWindow (applyWindow e) (s.withEng e)
  else s.withEng e

/-- Completion with a code (R246): ERR, BUSY, DONE and PHASE in one transition. -/
def complete (code : BitVec 4) (s : State) : State :=
  s.withEng { s.eng with
    status := { s.eng.status with err := code, busy := false, done := true }
    phase := .idle }

/-- `raise <Error>`: the command ends at once with its code (R13, R246). -/
def raise (e : Err) (s : State) : Result := .next (complete (errCode e) s)

/-! The cipher port. -/

/-- Issue a request (R14, R41), setting CTR_WRAP when a counter of the request overflows (R130). -/
def issue (r : Request) (overflow : Bool) (s : State) : State :=
  s.withEng { s.eng with pend := some r, status := s.eng.status.flagWrap overflow }

/-- The response has arrived: the request is no longer pending (R41). -/
def answered (s : State) : State := s.withEng { s.eng with pend := none }

/-- Issue an ENC1 for block `b` (R106): `X = ctr(IV, b)`. A request that names no schedule has no effect (R273). -/
def issueBlock (b : Nat) (s : State) : Result :=
  let sn := s.eng.snap
  match s.eng.sched with
  | none => .fault .cipherPortStuck
  | some k => .next (issue (.enc1 k (ctr sn.ivH sn.ivL (BitVec.ofNat 64 b))) (ctrOverflows sn.ivH sn.ivL b) s)

/-- Go on if the collaborator holds the schedule a request names for the engine that issued it (R257, R273, U17). A request already
pending when the collaborator is reset is judged at its answer in the same way: log entry 29. -/
def withSchedule (k : Sched) (s : State) (go : Result) : Result :=
  if (s.eng.id, k) ∈ s.held then go else .fault .cipherPortStuck

/-- Whether the counter of block `b` overflows and the parameter leaves its result open (R123). -/
def counterOpen (p : Plat) (ivH ivL : Word) (b : Nat) : Bool := p.ovf == .unspecified && ctrOverflows ivH ivL b

/-- The keystream block a schedule and an IV give for block `b`: any value where the counter's result is open (R125). -/
def keyBlock (p : Plat) (draw : Nat) (k : Sched) (ivH ivL : Word) (b : Nat) : Block :=
  if counterOpen p ivH ivL b then Config.freeBlock draw else Config.cipherE k (ctr ivH ivL (BitVec.ofNat 64 b))

/-- Move the cursors past `n` bytes (R39). -/
def Cursors.advance (c : Cursors) (n : Nat) : Cursors := { c with pos := c.pos + n, p := c.p + n }

/-! Reset. -/

/-- An APPLY that has passed CHECK and not completed (R272). -/
def pastCheck : Phase → Bool
  | .lead | .full | .trail | .finish => true
  | .idle | .exec | .check => false

/-- The addresses of the destination range of the running APPLY. -/
def dstRange (sn : Snap) : List Nat := (List.range sn.nd.toNat).map (fun k => sn.d.toNat + k)

/-- The reset input of the engine the state holds at `eng` (R270): its state is R45's whatever its PHASE, and an APPLY past
CHECK leaves any value in each byte of its destination range (R272). Its windows stay open, because a reset synchronises
nothing (R82): log entry 12. -/
def resetEngine (s : State) : State :=
  (if pastCheck s.eng.phase then drawAt (dstRange s.eng.snap) s else s).withEng (Engine.fresh s.eng.id s.eng.base s.eng.cipher)

end Sys2Proof.Machine
end

