-- ==== Sys2Proof/Machine/Splitter.lean ====
section
/-! DEFINITION. PLAN and the micro-steps of APPLY (42_range_splitter R145 to R155, 43_batch_dispatcher R170 to R179). -/

namespace Sys2Proof.Machine

/-- PLAN: report the split and the batch plan (R155). -/
def execPlan (s : State) : Result :=
  if s.eng.phase = .exec then
    .next (complete 0 (s.withEng { s.eng with results := planResults s.eng.snap s.eng.results }))
  else .refused .notExecuting

/-- Go to a micro-step. -/
def goto (ph : Phase) (s : State) : State := s.withEng { s.eng with phase := ph }

/-- Replace the cursors. -/
def setCur (c : Cursors) (s : State) : State := s.withEng { s.eng with cur := c }

/-- CHECK: the five checks in order; then `N`, `POS`, `P` and PHASE (R147). -/
def microCheck (s : State) : Result :=
  match applyCheck s.plat s.eng.status.keyValid s.eng.snap with
  | some e => raise e s
  | none =>
    .next (goto .lead (setCur { n := s.eng.snap.nd.toNat, pos := 0, p := s.eng.snap.off.toNat, nleft := s.eng.cur.nleft } s))

/-- LEAD: nothing but `PHASE <- FULL; NLEFT <- nfull` when the segment is empty, else one ENC1 of block `P div 16` (R148, R194). -/
def microLead (s : State) : Result :=
  if s.eng.snap.split.lead = 0 then
    .next (goto .full (setCur { s.eng.cur with nleft := s.eng.snap.split.nfull } s))
  else issueBlock (s.eng.cur.p / 16) s

/-- TRAIL: nothing but `PHASE <- FINISH` when the segment is empty, else one ENC1 of block `P div 16` (R151, R195). -/
def microTrail (s : State) : Result :=
  if s.eng.snap.split.trail = 0 then .next (goto .finish s) else issueBlock (s.eng.cur.p / 16) s

/-- BATCH8, BATCH4, BATCH2: read the source bytes and issue the ENCB request (R176 to R178). -/
def issueBatch (w : Width) (s : State) : Result :=
  let sn := s.eng.snap
  let b := s.eng.cur.p / 16
  let a := sn.s.toNat + s.eng.cur.pos
  match s.eng.sched with
  | none => .fault .cipherPortStuck
  | some k =>
    withPort s.plat a (16 * w.blocks)
      (.next (issue (.encb w k (ivBlock sn.ivH sn.ivL) (BitVec.ofNat 64 b) (s.mem.readN a (16 * w.blocks)))
        (ctrOverflows sn.ivH sn.ivL (b + w.blocks - 1)) s))

/-- FULL: while `NLEFT > 0` one batch of the width R172 gives (R149, R175); at `NLEFT = 0` PHASE becomes TRAIL and the step is
TRAIL's, so that the steps are those R285 counts (log entry 8). -/
def microFull (s : State) : Result :=
  if s.eng.cur.nleft = 0 then microTrail (goto .trail s)
  else
    match widthKind (width s.eng.cur.nleft s.eng.snap.backend) with
    | some w => issueBatch w s
    | none => issueBlock (s.eng.cur.p / 16) s

/-- FINISH: complete with ERR = 0 (R152). -/
def microFinish (s : State) : Result := .next (complete 0 s)

/-- APPLY: the micro-step PHASE names (R145). One that waits for its response takes no step (R41). -/
def execApply (s : State) : Result :=
  match s.eng.phase with
  | .idle | .exec => .refused .notExecuting
  | .check => if s.eng.pend.isSome then .next s else microCheck s
  | .lead => if s.eng.pend.isSome then .next s else microLead s
  | .full => if s.eng.pend.isSome then .next s else microFull s
  | .trail => if s.eng.pend.isSome then .next s else microTrail s
  | .finish => if s.eng.pend.isSome then .next s else microFinish s

end Sys2Proof.Machine
end

