-- ==== Sys2Proof/Machine/Cipher.lean ====
section
/-! DEFINITION. The answers of the cipher collaborator to ENC1 and ENCB (30_encoding R106, R107), each with the completion of the
micro-step that waits for it (43_batch_dispatcher R175 to R179, 44_keystream_applier R193 to R195). -/

namespace Sys2Proof.Machine

/-- The keystream block an ENC1 response gives the engine: `Y = E(SCHED, X)`, or any value where the counter's result is open
(R106, R125). -/
def responseBlock (k : Sched) (x : Block) (s : State) : Block :=
  if counterOpen s.plat s.eng.snap.ivH s.eng.snap.ivL (s.eng.cur.p / 16) then Config.freeBlock s.draws else Config.cipherE k x

/-- LEAD completes: SCRATCH takes the block, `lead` bytes from position `P mod 16` on (R194, R148). -/
def leadDone (y : Block) (s : State) : Result :=
  let sn := s.eng.snap
  let n := sn.split.lead
  let t := s.withEng { s.eng with scratch := y }
  transfer sn.s.toNat sn.d.toNat n ((blockBytes y).drop (s.eng.cur.p % 16)) t fun u =>
    .next (goto .full (setCur { (u.eng.cur.advance n) with nleft := sn.split.nfull } u))

/-- BATCH1 completes: a whole block, not through SCRATCH (R179, R193). -/
def batchOneDone (y : Block) (s : State) : Result :=
  let sn := s.eng.snap
  let pos := s.eng.cur.pos
  transfer (sn.s.toNat + pos) (sn.d.toNat + pos) 16 (blockBytes y) s fun u =>
    .next (setCur { (u.eng.cur.advance 16) with nleft := u.eng.cur.nleft - 1 } u)

/-- TRAIL completes: SCRATCH takes the block, `trail` bytes from position 0 on (R195, R151). -/
def trailDone (y : Block) (s : State) : Result :=
  let sn := s.eng.snap
  let n := sn.split.trail
  let pos := s.eng.cur.pos
  let t := s.withEng { s.eng with scratch := y }
  transfer (sn.s.toNat + pos) (sn.d.toNat + pos) n (blockBytes y) t fun u =>
    .next (goto .finish (setCur (u.eng.cur.advance n) u))

/-- ENC1: the collaborator answers `Y = E(SCHED, X)` and the waiting LEAD, BATCH1 or TRAIL completes (R106). -/
def execEnc1 (s : State) : Result :=
  match s.eng.pend with
  | some (.enc1 k x) =>
    let y := responseBlock k x s
    let t := (answered s).withDraws (s.draws + 1)
    match s.eng.phase with
    | .lead => withSchedule k s (leadDone y t)
    | .full => withSchedule k s (batchOneDone y t)
    | .trail => withSchedule k s (trailDone y t)
    | .idle | .exec | .check | .finish => .refused .noSuchRequest
  | _ => .refused .noSuchRequest

/-- The keystream of the `w` lanes of a batch from block `start` on: lane `i` uses `ctr(IV, START + i)` (R107, R129). -/
def laneStream (p : Plat) (draw : Nat) (k : Sched) (iv : Block) (start : Word) (w : Nat) : List Byte :=
  (List.range w).flatMap fun i => blockBytes (keyBlock p (draw + i) k (ivHigh iv) (ivLow iv) (start.toNat + i))

/-- `OUT[16i + j] = DATA[16i + j] XOR E(SCHED, ctr(IV, START + i))[j]` (R107). -/
def batchOut (p : Plat) (draw : Nat) (k : Sched) (iv : Block) (start : Word) (w : Nat) (data : List Byte) : List Byte :=
  List.zipWith xornByte data (laneStream p draw k iv start w)

/-- An ENCB of width `w` is answered and the waiting BATCH completes: OUT goes to the destination (R107, R175). -/
def answerBatch (w : Width) (s : State) : Result :=
  match s.eng.pend with
  | some (.encb w' k iv start data) =>
    if w' = w ∧ s.eng.phase = .full then
      let out := batchOut s.plat s.draws k iv start w.blocks data
      let a := s.eng.snap.d.toNat + s.eng.cur.pos
      let t := store a out ((answered s).withDraws (s.draws + w.blocks))
      withSchedule k s
        (withPort s.plat a (16 * w.blocks)
          (.next (setCur { (t.eng.cur.advance (16 * w.blocks)) with nleft := t.eng.cur.nleft - w.blocks } t)))
    else .refused .noSuchRequest
  | _ => .refused .noSuchRequest

/-- ENCB2: the answer that completes BATCH2 (R107, R178). -/
def execEncb2 (s : State) : Result := answerBatch .w2 s

/-- ENCB4: the answer that completes BATCH4 (R107, R177). -/
def execEncb4 (s : State) : Result := answerBatch .w4 s

/-- ENCB8: the answer that completes BATCH8 (R107, R176). -/
def execEncb8 (s : State) : Result := answerBatch .w8 s

end Sys2Proof.Machine
end

