-- ==== Sys2Proof/Machine/Control.lean ====
section
/-! DEFINITION. NOP, the illegal command, CONSTRUCT and the EXPAND request (46_construct_and_control, R105). -/

namespace Sys2Proof.Machine

/-- NOP: complete with ERR = 0 (R225). -/
def execNop (s : State) : Result :=
  if s.eng.phase = .exec then .next (complete 0 s) else .refused .notExecuting

/-- The outcome of a command word that is no command: IllegalCommand and no other effect (R97, R226). -/
def illegalCommand (s : State) : Result := raise .illegalCommand s

/-- The key CONSTRUCT uses: key bytes `0 .. KEY_LEN-1` (R27, R222). -/
def constructKey (sn : Snap) : List Byte := (keyBytes sn).take sn.keyLen.toNat

/-- CONSTRUCT: check KEY_LEN, then issue EXPAND and wait for its response (R222). While the request is pending the
micro-step does not complete (R41). -/
def execConstruct (s : State) : Result :=
  if s.eng.phase ≠ .exec then .refused .notExecuting
  else if s.eng.pend.isSome then .next s
  else
    match roundCount s.eng.snap.keyLen.toNat with
    | none => raise .invalidKeyLength s
    | some nr =>
      .next (issue (.expand nr (BitVec.ofNat 8 s.eng.snap.keyLen.toNat) (constructKey s.eng.snap)) false s)

/-- Bind a cipher instance (R222): the schedule the collaborator answered and the snapshot's backend. -/
def bindInstance (nr keylen : BitVec 8) (k : Sched) (s : State) : State :=
  (s.withEng { s.eng with
    sched := some k
    status := { s.eng.status with
      keyValid := true, backend := s.eng.snap.backendSel, nr := nr, keylenActive := keylen } }).withHeld ((s.eng.id, k) :: s.held)

/-- EXPAND: the collaborator expands the key, keeps the schedule for this engine and answers its handle (R105, R257); CONSTRUCT binds
it and completes (R222). The request names no schedule, so a reset of the collaborator while it is pending does not stop its
answer: log entry 29. -/
def execExpand (s : State) : Result :=
  match s.eng.pend with
  | some (.expand nr keylen key) =>
    if s.eng.phase = .exec then
      .next (complete 0 (bindInstance nr keylen (Config.expandKey nr keylen key) (answered s)))
    else .refused .noSuchRequest
  | _ => .refused .noSuchRequest

end Sys2Proof.Machine
end

