-- ==== Sys2Proof/Machine/Counter.lean ====
section
/-! DEFINITION. The COUNTER command (41_counter R128). -/

namespace Sys2Proof.Machine

/-- Write COUNTER's result registers (R128, R29). -/
def setCounterOut (hi lo : Word) (s : State) : State :=
  s.withEng { s.eng with results := { s.eng.results with ctrOutHi := hi, ctrOutLo := lo } }

/-- COUNTER: the counter block of IV and BLOCK_INDEX, and CTR_WRAP on overflow of the high half (R128). Where the parameter
leaves the overflowed counter open, both result registers take free values (R123). -/
def execCounter (s : State) : Result :=
  let sn := s.eng.snap
  if s.eng.phase ≠ .exec then .refused .notExecuting
  else if sn.ivLen ≠ 16 then raise .invalidIvLength s
  else
    let wraps := decide (sn.ivH = BitVec.allOnes 64) && ctrCarry sn.ivL sn.bi
    let t := s.withEng { s.eng with status := s.eng.status.flagWrap wraps }
    if wraps && s.plat.ovf == .unspecified then
      .next (complete 0 (setCounterOut (Config.freeWord s.draws) (Config.freeWord (s.draws + 1)) (t.withDraws (s.draws + 2))))
    else .next (complete 0 (setCounterOut (ctrHigh sn.ivH sn.ivL sn.bi) (ctrLow sn.ivL sn.bi) t))

end Sys2Proof.Machine
end

