-- ==== Sys2Proof/Machine/Dispatch.lean ====
section
/-! DEFINITION. The dispatch of the ten instructions to their meanings. -/

namespace Sys2Proof.Machine

def exec (i : Instr) (s : State) : Host.Outcome State Fault Refusal :=
  match i with
  -- the commands (R94)
  | .nop => Sys2Proof.Machine.execNop s
  | .construct => Sys2Proof.Machine.execConstruct s
  | .apply => Sys2Proof.Machine.execApply s
  | .counter => Sys2Proof.Machine.execCounter s
  | .plan => Sys2Proof.Machine.execPlan s
  -- the kinds of cipher-port request (R104)
  | .expand => Sys2Proof.Machine.execExpand s
  | .enc1 => Sys2Proof.Machine.execEnc1 s
  | .encb2 => Sys2Proof.Machine.execEncb2 s
  | .encb4 => Sys2Proof.Machine.execEncb4 s
  | .encb8 => Sys2Proof.Machine.execEncb8 s

end Sys2Proof.Machine
end

