-- ==== Sys2Proof/Machine/RegPort.lean ====
section
/-! DEFINITION. The register port of an engine (10_state R21, R46, R47; 30_encoding R91, R92). -/

namespace Sys2Proof.Machine

/-- CONFIG's write-any-read-legal field: a 1 is legal only with HAS_ACCEL = 1 (R32). -/
def legalBackend (p : Plat) (v : Word) : Backend := if v.getLsbD 0 && p.hasAccel then .accelerated else .portable

/-- What a 64-bit read of a register returns (R46, R27, R33). -/
def regValue (p : Plat) (e : Engine) : Reg → Word
  | .cmd => 0
  | .status => statusWord e.status
  | .config => BitVec.ofNat 64 (backendBit e.backendSel)
  | .keyLen => e.regs.keyLen
  | .key0 => 0
  | .key1 => 0
  | .key2 => 0
  | .key3 => 0
  | .ivHi => e.regs.ivHi
  | .ivLo => e.regs.ivLo
  | .ivLen => e.regs.ivLen
  | .offset => e.regs.offset
  | .srcAddr => e.regs.srcAddr
  | .srcLen => e.regs.srcLen
  | .dstAddr => e.regs.dstAddr
  | .dstLen => e.regs.dstLen
  | .blockIndex => e.regs.blockIndex
  | .ctrOutHi => e.results.ctrOutHi
  | .ctrOutLo => e.results.ctrOutLo
  | .planLead => e.results.planLead
  | .planNfull => e.results.planNfull
  | .planN8 => e.results.planN8
  | .planN4 => e.results.planN4
  | .planN2 => e.results.planN2
  | .planN1 => e.results.planN1
  | .planTrail => e.results.planTrail
  | .id => idWord
  | .params => paramsWord p

/-- What a 64-bit read at an offset returns: 0 at a reserved one (R46, R92). -/
def offsetValue (p : Plat) (e : Engine) (off : BitVec 12) : Word :=
  match Reg.atOffset off with
  | some r => regValue p e r
  | none => 0

/-- Write an operand register; every other register is none of these (R24, R27). -/
def setOperand (v : Word) (g : Regs) : Reg → Regs
  | .keyLen => { g with keyLen := v }
  | .key0 => { g with key0 := v }
  | .key1 => { g with key1 := v }
  | .key2 => { g with key2 := v }
  | .key3 => { g with key3 := v }
  | .ivHi => { g with ivHi := v }
  | .ivLo => { g with ivLo := v }
  | .ivLen => { g with ivLen := v }
  | .offset => { g with offset := v }
  | .srcAddr => { g with srcAddr := v }
  | .srcLen => { g with srcLen := v }
  | .dstAddr => { g with dstAddr := v }
  | .dstLen => { g with dstLen := v }
  | .blockIndex => { g with blockIndex := v }
  | .cmd | .status | .config | .ctrOutHi | .ctrOutLo | .planLead | .planNfull | .planN8 | .planN4 | .planN2 | .planN1
  | .planTrail | .id | .params => g

/-- A write that takes effect: CMD starts a command (R38), CONFIG keeps its legal bit (R32), an operand register its value. -/
def writeIdle (r : Reg) (v : Word) (s : State) : State :=
  match r with
  | .cmd => accept v s
  | .config => s.withEng { s.eng with backendSel := legalBackend s.plat v }
  | _ => s.withEng { s.eng with regs := setOperand v s.eng.regs r }

/-- A 64-bit write to a register: ignored by a read-only one (R46), dropped with OVR while BUSY (R47), else effective. -/
def writeReg (r : Reg) (v : Word) (s : State) : State :=
  if r.access = .readOnly then s
  else if s.eng.status.busy then s.withEng { s.eng with status := { s.eng.status with ovr := true } }
  else writeIdle r v s

/-- A 64-bit write at an offset: ignored at a reserved one, busy or not (R92). -/
def writeOffset (off : BitVec 12) (v : Word) (s : State) : State :=
  match Reg.atOffset off with
  | some r => writeReg r v s
  | none => s

/-- The host has read STATUS: if it shows DONE = 1, this is the acquire of R76. -/
def statusSeen (s : State) : State := if s.eng.status.done then closeWindows s.eng.id s else s

end Sys2Proof.Machine
end

