-- ==== Sys2Proof/Machine/HostPort.lean ====
section
/-! DEFINITION. What the world outside the engines does (30_encoding R99, 20_memory R75 to R79, 70_reset_and_hazards R270, R273). -/

namespace Sys2Proof.Machine

/-- Take the first engine that satisfies a test out of a list. -/
def pick (q : Engine → Bool) : List Engine → Option (Engine × List Engine)
  | [] => none
  | e :: es =>
    if q e then some (e, es)
    else match pick q es with
      | some (f, rest) => some (f, e :: rest)
      | none => none

/-- Bring the engine that satisfies a test to `eng` (R256: the others keep their state). -/
def focus (q : Engine → Bool) (s : State) : Option State :=
  if q s.eng then some s
  else match pick q s.others with
    | some (e, rest) => some { s with eng := e, others := s.eng :: rest }
    | none => none

/-- Whether every one of the `n` bytes at `a` is plain memory the host can access (R60, R69, R72). -/
def hostReaches (p : Plat) (a n : Nat) : Bool := (portStop p a n).isNone

/-- The host writes one byte: a race with every open window that reads or writes it (R79), else ordered (R75). -/
def hostWriteByte (a : Nat) (v : Byte) (s : State) : State :=
  if s.windows.any (fun w => w.inSrc a || w.inDst a) then drawAt [a] (raceHits (Window.hitByWrite a) s)
  else s.withMem (s.mem.write a v)

/-- The host writes bytes, one event a byte (R99). -/
def hostWrite : Nat → List Byte → State → State
  | _, [], s => s
  | a, b :: bs, s => hostWrite (a + 1) bs (hostWriteByte a b s)

/-- The host reads one byte: a race with every open window that writes it (R79), else the byte memory holds (R76). -/
def hostReadByte (a : Nat) (s : State) : Byte × State :=
  if s.windows.any (fun w => w.inDst a) then
    (Config.freeByte s.draws, raceHits (Window.hitByRead a) (s.withDraws (s.draws + 1)))
  else (s.mem.read a, s)

/-- The host reads `n` bytes, one event a byte (R99). -/
def hostRead : Nat → Nat → State → List Byte × State
  | _, 0, s => ([], s)
  | a, n + 1, s =>
    let (b, t) := hostReadByte a s
    let (bs, u) := hostRead (a + 1) n t
    (b :: bs, u)

/-- A register transaction at host address `addr`: some engine's window, and 64 bits wide at an aligned offset, or refused
(R61, R71). -/
def atRegister (addr bits : Nat) (s : State) (go : BitVec 12 → State → Result) : Result :=
  match focus (fun e => inWindow e.base addr) s with
  | none => .refused .outsideWindow
  | some t =>
    if wholeAccess t.eng.base addr bits then go (BitVec.ofNat 12 (addr - t.eng.base)) t else .refused .narrowAccess

/-- The host's read of a register at an offset: it changes no engine's state (R46). -/
def readOffset (off : BitVec 12) (s : State) : State :=
  let t := s.observed (.reg (offsetValue s.plat s.eng off))
  if Reg.atOffset off = some .status then statusSeen t else t

/-- Whether the engine with this id is served by the collaborator that serves the engine at `eng` (R256). Log entry 28. -/
def sharesCipher (s : State) (id : Nat) : Bool := (s.eng :: s.others).any (fun e => e.id == id && e.cipher == s.eng.cipher)

/-- The schedules held after the platform resets the collaborator that serves the engine at `eng`: it forgets those of every engine it
serves (R257, R273). A pending request stays pending: log entry 29. -/
def afterCipherReset (s : State) : List (Nat × Sched) := s.held.filter (fun h => !sharesCipher s h.1)

/-- One transaction of the host. -/
def runHostOp (op : HostOp) (s : State) : Result :=
  match op with
  | .write addr bits v => atRegister addr bits s fun off t => .next (writeOffset off v t)
  | .read addr bits => atRegister addr bits s fun off t => .next (readOffset off t)
  | .wait base =>
    match focus (fun e => e.base == base) s with
    | none => .refused .outsideWindow
    | some t => .next (if t.eng.status.done then statusSeen t else t.withProg (.wait base :: t.prog))
  | .memWrite a bs => if hostReaches s.plat a bs.length then .next (hostWrite a bs s) else .refused .hostNoMemory
  | .memRead a n =>
    if hostReaches s.plat a n then
      let (bs, t) := hostRead a n s
      .next (t.observed (.mem bs))
    else .refused .hostNoMemory
  | .reset base =>
    match focus (fun e => e.base == base) s with
    | none => .refused .outsideWindow
    | some t => .next (resetEngine t)
  | .cipherReset base =>
    match focus (fun e => e.base == base) s with
    | none => .refused .outsideWindow
    | some t => .next (t.withHeld (afterCipherReset t))

/-- The host's step: its next statement, if it has one. A WAIT that does not see DONE stays (R99). -/
def hostStep (s : State) : Result :=
  match s.prog with
  | [] => .next s
  | op :: rest => runHostOp op (s.withProg rest)

end Sys2Proof.Machine
end

