-- ==== Sys2Proof/Machine/Sequencer.lean ====
section
/-! DEFINITION. Whose step is next and what it is (00_scope R5, 10_state R37, 70_reset_and_hazards R271, R285, R286), and how an
instruction is placed so that the next step runs it. -/

namespace Sys2Proof.Machine

/-- The engine's step: none when idle (R271); else decode `snap.op` (R95) and run the command, or end it as illegal (R226). -/
def engineStep (s : State) : Result :=
  if s.eng.phase = .idle then .next s
  else
    match decodeCmd s.eng.snap.op with
    | .instr i => exec i s
    | .reject _ => illegalCommand s

/-- The collaborator's step: the answer to the pending request, if there is one (R108). -/
def cipherStep (s : State) : Result :=
  match s.eng.pend with
  | none => .next s
  | some r =>
    match decodeKind r.kind with
    | .instr i => exec i s
    | .reject _ => .refused .noSuchRequest

/-- The agent an engine waits for or is: the collaborator while a request is pending, else the engine itself. -/
def mover (e : Engine) : Agent := if e.pend.isSome then .cipher e.id else .engine e.id

/-- The default schedule: a busy engine first, then the host. Log entry 1. -/
def nextAgent (s : State) : Agent :=
  if s.eng.status.busy then mover s.eng
  else match s.others.find? (fun e => e.status.busy) with
    | some e => mover e
    | none => .host

/-- One step of an agent. -/
def agentStep (a : Agent) (s : State) : Result :=
  match a with
  | .host => hostStep s
  | .engine k =>
    match focus (fun e => e.id == k) s with
    | some t => engineStep t
    | none => .refused .noSuchEngine
  | .cipher k =>
    match focus (fun e => e.id == k) s with
    | some t => cipherStep t
    | none => .refused .noSuchEngine

/-- One step of the machine: of the agent the schedule names, or of the default one when it is empty. -/
def advance (s : State) : Result :=
  match s.turns with
  | [] => agentStep (nextAgent s) s
  | a :: rest => agentStep a (s.withTurns rest)

/-- Place a command word as the host's accepted CMD write does (R38), with the engine to move next. -/
def placeCommand (v : Word) (s : State) : State :=
  (accept v (s.withEng { s.eng with pend := none })).withTurns []

/-- The request of a kind with its payload bits 0 (R105 to R107); none for the kinds no engine issues. -/
def zeroRequest (k : BitVec 3) : Option Request :=
  match decodeKind k with
  | .instr .expand => some (.expand 10 16 (List.replicate 16 0))
  | .instr .enc1 => some (.enc1 ⟨0⟩ 0)
  | .instr .encb2 => some (.encb .w2 ⟨0⟩ 0 0 (List.replicate 32 0))
  | .instr .encb4 => some (.encb .w4 ⟨0⟩ 0 0 (List.replicate 64 0))
  | .instr .encb8 => some (.encb .w8 ⟨0⟩ 0 0 (List.replicate 128 0))
  | _ => none

/-- The number of blocks a request is for. -/
def requestBlocks : Request → Nat
  | .expand .. => 0
  | .enc1 .. => 1
  | .encb w .. => w.blocks

/-- Place a request of a kind: the engine has issued it and waits, in EXEC of a CONSTRUCT for EXPAND and in FULL of an APPLY in
place over that many zero blocks at address 0 otherwise, with its schedule held; the collaborator moves next. Log entry 1. -/
def placeRequest (k : BitVec 3) (s : State) : State :=
  match zeroRequest k with
  | none => s
  | some r =>
    let n := requestBlocks r
    let st := { s.eng.status with busy := true, done := false, err := 0 }
    if n = 0 then
      (s.withEng { s.eng with
        snap := { Snap.zero with op := 1, keyLen := 16 }, phase := .exec, pend := some r, status := st }).withTurns []
    else
      ((s.withEng { s.eng with
        snap := { Snap.zero with op := 2, ivLen := 16, ns := BitVec.ofNat 64 (16 * n), nd := BitVec.ofNat 64 (16 * n),
                                 backend := .accelerated }
        phase := .full, pend := some r, sched := some ⟨0⟩
        cur := { n := 16 * n, pos := 0, p := 0, nleft := n }
        status := { st with keyValid := true, backend := .accelerated, nr := 10, keylenActive := 16 } }).withHeld
          ((s.eng.id, ⟨0⟩) :: s.held)).withTurns []

end Sys2Proof.Machine
end

