-- ==== Sys2Proof/Machine/Step.lean ====
section
/-! DEFINITION. One step of the machine, and an instruction placed where the next step runs it. -/

namespace Sys2Proof.Machine

/-- One step of the machine. -/
def step (s : State) : Host.Outcome State Fault Refusal := advance s

/-- The state in which the next step runs the instruction whose table bits are `w`: a request kind for rows of one byte, a
command word otherwise. Log entry 1. -/
def State.withFetchWord (s : State) (nbits w : Nat) : State :=
  if nbits ≤ 8 then placeRequest (BitVec.ofNat 3 w) s else placeCommand (BitVec.ofNat 64 w) s

end Sys2Proof.Machine
end

