-- ==== Sys2Proof/Machine/Script.lean ====
section
/-! DEFINITION. The host script's statements as transactions (30_encoding R99, R100). -/

namespace Sys2Proof.Machine

/-- `WR <reg>, <u64>` on the engine whose window starts at `base` (R99). -/
def wrOp (base : Nat) (r : Reg) (v : Word) : HostOp := .write (base + r.offsetIn.toNat) 64 v

/-- Eight key bytes from position `i` on, a position beyond the key taken as 0 (R100). -/
def keyWord (key : List Byte) (i : Nat) : Word := be64 (((key ++ List.replicate 32 0).drop i).take 8)

/-- The transactions of a statement (R99, R100). -/
def stmtOps (base : Nat) : Stmt → List HostOp
  | .wr r v => [wrOp base r v]
  | .rd r => [.read (base + r.offsetIn.toNat) 64]
  | .cmd i => [wrOp base .cmd (encodeCmd i)]
  | .cmdw v => [wrOp base .cmd v]
  | .wait => [.wait base]
  | .memw a bs => [.memWrite a bs]
  | .memr a n => [.memRead a n]
  | .setIv iv => [wrOp base .ivHi (be64 (iv.take 8)), wrOp base .ivLo (be64 (iv.drop 8)), wrOp base .ivLen 16]
  | .setKey key =>
    [wrOp base .key0 (keyWord key 0), wrOp base .key1 (keyWord key 8), wrOp base .key2 (keyWord key 16),
     wrOp base .key3 (keyWord key 24), wrOp base .keyLen (BitVec.ofNat 64 key.length)]
  | .range dst src n => [wrOp base .dstAddr dst, wrOp base .srcAddr src, wrOp base .dstLen n, wrOp base .srcLen n]
  | .run i => [wrOp base .cmd (encodeCmd i), .wait base]

/-- The transactions of a script. -/
def scriptOps (base : Nat) (prog : List Stmt) : List HostOp := prog.flatMap (stmtOps base)

end Sys2Proof.Machine
end

