-- ==== Sys2Proof/Safety.lean ====
section
/-! DEFINITION. The terms claims use: keystream and the result of an APPLY (R125, R141), what an instruction may change, the
invariants of the machine, and the end of a run with its observation (R289). -/

namespace Sys2Proof.Machine

/-- `KSB(b)[j]`: byte `j` of the keystream block of block index `b` (R125). -/
def keystreamByte (k : Sched) (ivH ivL : Word) (b j : Nat) : Byte :=
  blockByte (Config.cipherE k (ctr ivH ivL (BitVec.ofNat 64 b))) j

/-- `KS(p)`: the keystream byte at stream position `p` (R125). -/
def keystreamAt (k : Sched) (ivH ivL : Word) (p : Nat) : Byte := keystreamByte k ivH ivL (p / 16) (p % 16)

/-- The request kind of a batch width, as an instruction (R107). -/
def Width.instr : Width → Instr
  | .w2 => .encb2
  | .w4 => .encb4
  | .w8 => .encb8

/-- An instruction whose meaning stores to data memory: the answers that complete a data path (R66, R70). -/
def storesData : Instr → Bool
  | .enc1 | .encb2 | .encb4 | .encb8 => true
  | .nop | .construct | .apply | .counter | .plan | .expand => false

/-- The first address and the number of bytes an instruction stores to: of ENC1 the segment PHASE names (R179, R194, R195), of
ENCB the batch (R175). The others store nothing. -/
def storeSpan (i : Instr) (s : State) : Nat × Nat :=
  let d := s.eng.snap.d.toNat
  match i with
  | .enc1 =>
    match s.eng.phase with
    | .lead => (d, s.eng.snap.split.lead)
    | .full => (d + s.eng.cur.pos, 16)
    | .trail => (d + s.eng.cur.pos, s.eng.snap.split.trail)
    | .idle | .exec | .check | .finish => (d, 0)
  | .encb2 => (d + s.eng.cur.pos, 32)
  | .encb4 => (d + s.eng.cur.pos, 64)
  | .encb8 => (d + s.eng.cur.pos, 128)
  | .nop | .construct | .apply | .counter | .plan | .expand => (d, 0)

/-- Every engine of the machine satisfies a property. -/
def everyEngine (q : Engine → Prop) (s : State) : Prop := q s.eng ∧ ∀ e ∈ s.others, q e

/-- BUSY, DONE, ERR and PHASE of one engine (R30, R35, R37): IDLE iff BUSY = 0, and while BUSY = 1 DONE and ERR read 0. -/
def Engine.handshake (e : Engine) : Prop :=
  (e.status.busy = true ↔ e.phase ≠ .idle) ∧ (e.status.busy = true → e.status.done = false ∧ e.status.err = 0)

/-- The instance state of one engine (R30, R31, R221): a schedule exactly when KEY_VALID, then a legal key length with its round
count; without one NR, KEYLEN_ACTIVE and BACKEND are 0. -/
def Engine.instanceLegal (e : Engine) : Prop :=
  (e.status.keyValid = true ↔ e.sched.isSome = true) ∧
  (e.status.keyValid = true → roundCount e.status.keylenActive.toNat = some e.status.nr) ∧
  (e.status.keyValid = false → e.status.nr = 0 ∧ e.status.keylenActive = 0 ∧ e.status.backend = .portable)

/-- Without the Accelerated backend nothing selects it (R32, R222). -/
def Engine.backendLegal (p : Plat) (e : Engine) : Prop :=
  p.hasAccel = false → e.backendSel = .portable ∧ e.snap.backendSel = .portable ∧ e.status.backend = .portable

/-- The values R91 gives the result registers. -/
def Engine.resultsBounded (e : Engine) : Prop :=
  e.results.planLead.toNat ≤ 15 ∧ e.results.planTrail.toNat ≤ 15 ∧ e.results.planN4.toNat ≤ 1 ∧ e.results.planN2.toNat ≤ 1

/-- PHASE agrees with the accepted command (R38): CHECK to FINISH only of APPLY, EXEC only of the others. -/
def Engine.phaseLegal (e : Engine) : Prop :=
  match e.phase with
  | .idle => True
  | .exec => e.snap.op ≠ 2
  | .check | .lead | .full | .trail | .finish => e.snap.op = 2

/-- The pending request is well formed and is one the micro-step issues (R41, R104 to R107). -/
def Engine.pendLegal (e : Engine) : Prop :=
  match e.pend with
  | none => True
  | some (.expand nr keylen key) =>
    e.phase = .exec ∧ e.snap.op = 1 ∧ Request.wellFormed (.expand nr keylen key) = true
  | some (.enc1 _ _) => e.phase = .lead ∨ (e.phase = .full ∧ 0 < e.cur.nleft) ∨ e.phase = .trail
  | some (.encb w k iv start data) =>
    e.phase = .full ∧ w.blocks ≤ e.cur.nleft ∧ Request.wellFormed (.encb w k iv start data) = true

/-- The cursors of an APPLY past CHECK (R39, R148, R149, R151, R152). -/
def Engine.cursorsLegal (p : Plat) (e : Engine) : Prop :=
  pastCheck e.phase = true →
    applyCheck p e.status.keyValid e.snap = none ∧ e.cur.n = e.snap.nd.toNat ∧ e.cur.p = e.snap.off.toNat + e.cur.pos ∧
    match e.phase with
    | .lead => e.cur.pos = 0
    | .full => e.snap.split.lead ≤ e.cur.pos ∧ e.cur.pos + 16 * e.cur.nleft + e.snap.split.trail = e.cur.n
    | .trail => e.cur.pos + e.snap.split.trail = e.cur.n
    | .finish => e.cur.pos = e.cur.n
    | .idle | .exec | .check => True

/-- The invariant of one engine. -/
def Engine.Inv (p : Plat) (e : Engine) : Prop :=
  e.handshake ∧ e.instanceLegal ∧ e.backendLegal p ∧ e.resultsBounded ∧ e.phaseLegal ∧ e.pendLegal ∧ e.cursorsLegal p

/-- The invariant of the machine: of every engine, and memory in its canonical form. -/
def State.Inv (s : State) : Prop := everyEngine (Engine.Inv s.plat) s ∧ s.mem.wf

/-- An APPLY stands at CHECK with no turn but the default schedule's, its checks pass, its ranges are plain memory, its
schedule `k` is held and no race has hit it: what R141 needs (R75, R79). -/
def applyReady (k : Sched) (s : State) : Prop :=
  s.turns = [] ∧ s.eng.phase = .check ∧ s.eng.status.busy = true ∧ s.eng.pend = none ∧ s.eng.snap.op = 2 ∧
  applyCheck s.plat s.eng.status.keyValid s.eng.snap = none ∧
  s.eng.sched = some k ∧ (s.eng.id, k) ∈ s.held ∧
  portStop s.plat s.eng.snap.s.toNat s.eng.snap.nd.toNat = none ∧
  portStop s.plat s.eng.snap.d.toNat s.eng.snap.nd.toNat = none ∧
  racedNow s = []

/-- `n` bytes at `a` that the platform has no memory for: some region without memory shares a byte with them, and there are no other
regions (R72). -/
def Plat.lacks (p : Plat) (a n : Nat) : Prop :=
  0 < n ∧ a + n ≤ 2 ^ p.addrW ∧ (∀ r ∈ p.regions, r.kind = .absent) ∧
  ∃ r ∈ p.regions, a < r.base + r.size ∧ r.base < a + n

/-- Some command of engine `e`, its window at one of the places `i` to `j - 1` of the list, has written byte `x`. -/
def rewritten (ws : List Window) (e x i j : Nat) : Prop :=
  ∃ (m : Nat) (u : Window), i ≤ m ∧ m < j ∧ ws[m]? = some u ∧ u.engine = e ∧ u.hasWritten x = true

/-- What a race leaves in the open windows, latest first, and in memory, when it starts from the bytes `direct` gives each window:
window `i` records the bytes `new i`, which are its direct ones and those computed from a byte recorded in an earlier window of
its engine and not rewritten between. Each of them that no later command of the engine has rewritten, and each of `own`, holds some
draw's value, and every other byte is as before (R77, R79). -/
def raceLeaves (direct : Window → Nat → Prop) (own : Nat → Prop) (s : State) (ws : List Window) (m : Memory) : Prop :=
  ∃ new : Nat → List Nat,
    (∀ i, ws[i]? = (s.windows[i]?).map fun w : Window => { w with raced := new i ++ w.raced }) ∧
    (∀ i w x, s.windows[i]? = some w →
      (x ∈ new i ↔ direct w x ∨ ∃ j u y, i < j ∧ s.windows[j]? = some u ∧ u.engine = w.engine ∧ y ∈ new j ∧
        ¬ rewritten s.windows w.engine y (i + 1) j ∧ w.inSrc y = true ∧ x = w.dst + (y - w.src))) ∧
    (∀ i w x, s.windows[i]? = some w → x ∈ new i → ¬ rewritten s.windows w.engine x 0 i →
      ∃ q, m.read x = Config.freeByte q) ∧
    (∀ x, own x → ∃ q, m.read x = Config.freeByte q) ∧
    (∀ x, ¬ own x → (∀ i w, s.windows[i]? = some w → x ∈ new i → rewritten s.windows w.engine x 0 i) → m.read x = s.mem.read x)

/-- The transitions of an APPLY that passes CHECK: CHECK, LEAD, the FULL steps, TRAIL and FINISH (R285), and one more for each
response (R108). -/
def applySteps (sn : Snap) : Nat :=
  4 + (if sn.split.lead = 0 then 0 else 1) + 2 * (batchWidths sn.backend sn.split.nfull sn.split.nfull).length
    + (if sn.split.trail = 0 then 0 else 1)

/-- `MEM'[D + k] = MEM[S + k] XOR KS(OFF + k)` for every `k < N` whose counter's result the parameter does not leave open, and
every byte outside `[D, D + N)` as before (R141, R123). -/
def appliedTo (p : Plat) (k : Sched) (sn : Snap) (m m' : Memory) : Prop :=
  (∀ i, i < sn.nd.toNat → counterOpen p sn.ivH sn.ivL ((sn.off.toNat + i) / 16) = false →
    m'.read (sn.d.toNat + i) = m.read (sn.s.toNat + i) ^^^ keystreamAt k sn.ivH sn.ivL (sn.off.toNat + i)) ∧
  (∀ a, a < sn.d.toNat ∨ sn.d.toNat + sn.nd.toNat ≤ a → m'.read a = m.read a)

/-- An engine at rest: idle with no pending request (R289). -/
def Engine.atRest (e : Engine) : Bool := !e.status.busy && e.pend.isNone

/-- The end of a run: the host's last statement has completed and every engine is at rest (R289). -/
def State.ended (s : State) : Bool := s.prog.isEmpty && s.eng.atRest && s.others.all Engine.atRest

/-- What is observed at the end of a run: data memory and every engine's host-readable registers (R289). -/
def State.observe (s : State) : Memory × List (Nat × List Word) :=
  (s.mem, (s.eng :: s.others).map fun e => (e.id, Reg.all.map (regValue s.plat e)))

end Sys2Proof.Machine
end

