-- ==== Sys2Proof/Certificates/Slice0/Obligations.lean ====
section
/-! DEFINITION. The statements for the provers. Each docstring names the rules of spec/ it formalises. In all of them `exec i s`
and `engineStep s` act on the engine at `s.eng`. -/

open Sys2Proof Sys2Proof.Machine

/-! Encoding. -/

/-- R94, R95: each command is decoded from exactly one word, and every other word, with OP 0x05 to 0xFF or RSVD nonzero, is
rejected. -/
def Obligations.CommandWordsDecodeTotally : Prop :=
  ∀ v : Word,
    (decodeCmd v = .instr .nop ↔ v = 0) ∧
    (decodeCmd v = .instr .construct ↔ v = 1) ∧
    (decodeCmd v = .instr .apply ↔ v = 2) ∧
    (decodeCmd v = .instr .counter ↔ v = 3) ∧
    (decodeCmd v = .instr .plan ↔ v = 4) ∧
    ((∃ why, decodeCmd v = .reject why) ↔ (v.toNat / 256 ≠ 0 ∨ 5 ≤ v.toNat % 256)) ∧
    (∀ i, decodeCmd v = .instr i → i.isCommand = true)

/-- R93, R94, R104: decoding and encoding agree, for every instruction and every word of its format. -/
def Obligations.DecodeAndEncodeAgree : Prop :=
  ∀ i : Instr,
    (i.isCommand = true → ∀ v : Word, decodeCmd v = .instr i ↔ v = encodeCmd i) ∧
    (i.isCommand = false → ∀ k : BitVec 3, decodeKind k = .instr i ↔ k = encodeKind i)

/-- Words written out from R93, R94, R97 and R104 decode to what they stand for. -/
def Obligations.WrittenWordsDecode : Prop :=
  decodeCmd 0x0000000000000001 = .instr .construct ∧ decodeCmd 0x0000000000000002 = .instr .apply ∧
  decodeCmd 0x0000000000000003 = .instr .counter ∧ decodeCmd 0x0000000000000102 = .reject .reservedBits ∧
  decodeCmd 0x00000000000000FF = .reject .illegalOpcode ∧ decodeKind 0b000 = .instr .expand ∧
  decodeKind 0b011 = .instr .encb4 ∧ decodeKind 0b101 = .reject .unusedKind

/-- R90, R91: each of the 28 registers stands at the offset the map gives it, and an offset names a register exactly when it is
that register's. -/
def Obligations.RegisterMapIsOneToOne : Prop :=
  (∀ (r : Reg) (off : BitVec 12), Reg.atOffset off = some r ↔ off = r.offsetIn) ∧
  Reg.offsetIn .cmd = 0x000 ∧ Reg.offsetIn .status = 0x008 ∧ Reg.offsetIn .config = 0x010 ∧ Reg.offsetIn .keyLen = 0x018 ∧
  Reg.offsetIn .key0 = 0x020 ∧ Reg.offsetIn .key1 = 0x028 ∧ Reg.offsetIn .key2 = 0x030 ∧ Reg.offsetIn .key3 = 0x038 ∧
  Reg.offsetIn .ivHi = 0x040 ∧ Reg.offsetIn .ivLo = 0x048 ∧ Reg.offsetIn .ivLen = 0x050 ∧ Reg.offsetIn .offset = 0x058 ∧
  Reg.offsetIn .srcAddr = 0x060 ∧ Reg.offsetIn .srcLen = 0x068 ∧ Reg.offsetIn .dstAddr = 0x070 ∧ Reg.offsetIn .dstLen = 0x078 ∧
  Reg.offsetIn .blockIndex = 0x080 ∧ Reg.offsetIn .ctrOutHi = 0x088 ∧ Reg.offsetIn .ctrOutLo = 0x090 ∧
  Reg.offsetIn .planLead = 0x098 ∧ Reg.offsetIn .planNfull = 0x0A0 ∧ Reg.offsetIn .planN8 = 0x0A8 ∧
  Reg.offsetIn .planN4 = 0x0B0 ∧ Reg.offsetIn .planN2 = 0x0B8 ∧ Reg.offsetIn .planN1 = 0x0C0 ∧
  Reg.offsetIn .planTrail = 0x0C8 ∧ Reg.offsetIn .id = 0x0D0 ∧ Reg.offsetIn .params = 0x0D8

/-! A step of the machine. -/

/-- R95, R37, R271: at a turn of an engine, or with no turn given and the engine busy with no request pending (the model's
default schedule, log entry 1): when it is not idle and its snapshot holds a command word, the step is `exec` of the decoded
command; with an illegal word the step is the completion with code 7 and nothing else; when it is idle there is no step but the
turn's. The turn is the only thing the step takes away. When the engine of the turn is one of the others (R256), or with no turn
given the first busy one is, the step is that of the state with this engine at `eng` and the others in `others` (log entry 23). -/
def Obligations.StepRunsDecodedCommand : Prop :=
  (∀ (s : State) (rest : List Agent),
    (s.turns = .engine s.eng.id :: rest ∨
      (s.turns = [] ∧ rest = [] ∧ s.eng.status.busy = true ∧ s.eng.pend = none)) →
    (s.eng.phase ≠ .idle → ∀ i, decodeCmd s.eng.snap.op = .instr i → step s = exec i (s.withTurns rest)) ∧
    (s.eng.phase ≠ .idle → ∀ why, decodeCmd s.eng.snap.op = .reject why →
      step s = .next ((s.withTurns rest).withEng { s.eng with
        status := { s.eng.status with err := 7, busy := false, done := true }, phase := .idle })) ∧
    (s.eng.phase = .idle → step s = .next (s.withTurns rest))) ∧
  (∀ (s : State) (before after : List Engine) (e : Engine), s.others = before ++ e :: after →
    s.eng.id ≠ e.id → (∀ f ∈ before, f.id ≠ e.id) →
    ((∃ rest, s.turns = .engine e.id :: rest) ∨
      (s.turns = [] ∧ s.eng.status.busy = false ∧ (∀ f ∈ before, f.status.busy = false) ∧ e.status.busy = true)) →
    step s = step { s with eng := e, others := s.eng :: (before ++ after) })

/-- R108: at a turn of the collaborator, or with no turn given and the engine busy with a request pending (the model's default
schedule, log entry 1), the step is `exec` of the kind of the pending request; without a request it only takes the turn. When the
turn is of the collaborator that answers one of the other engines (R256), the step is that of the state with this engine at `eng`
and the others in `others` (log entry 23). R5, R99: at a turn of the host, or with no turn given and no engine busy, the step is
the transaction of the host's next statement on the state without it and without the turn; with no statement left it only takes
the turn, so that a machine at rest with nothing to do stays as it is. -/
def Obligations.StepRunsPendingRequest : Prop :=
  (∀ (s : State) (rest : List Agent),
    (∀ r i, s.turns = .cipher s.eng.id :: rest ∨ (s.turns = [] ∧ rest = [] ∧ s.eng.status.busy = true) →
      s.eng.pend = some r → decodeKind r.kind = .instr i → step s = exec i (s.withTurns rest)) ∧
    (s.turns = .cipher s.eng.id :: rest → s.eng.pend = none → step s = .next (s.withTurns rest)) ∧
    (s.turns = [] → s.eng.status.busy = false → (∀ e ∈ s.others, e.status.busy = false) → s.prog = [] →
      step s = .next s)) ∧
  (∀ (s : State) (before after : List Engine) (e : Engine) (rest : List Agent), s.others = before ++ e :: after →
    s.eng.id ≠ e.id → (∀ f ∈ before, f.id ≠ e.id) → s.turns = .cipher e.id :: rest →
    step s = step { s with eng := e, others := s.eng :: (before ++ after) }) ∧
  (∀ (s : State) (rest : List Agent),
    s.turns = .host :: rest ∨
      (s.turns = [] ∧ rest = [] ∧ s.eng.status.busy = false ∧ ∀ e ∈ s.others, e.status.busy = false) →
    (∀ op ops, s.prog = op :: ops → step s = runHostOp op ((s.withTurns rest).withProg ops)) ∧
    (s.prog = [] → step s = .next (s.withTurns rest)))

/-! The register port. -/

/-- R21, R90, R91: a 64-bit transaction at a register's offset in the window reaches that register, whatever the rest of the
state. A read returns its value and changes nothing else, but that a read of STATUS that shows DONE = 1, and no other, closes the
engine's windows (R76, R82: log entry 11). A transaction of any width in the window of one of the other engines is that
transaction of the state with this engine at `eng` and the others in `others` (R61, R256: log entry 23). -/
def Obligations.TransactionsReachRegisters : Prop :=
  (∀ (s : State) (r : Reg) (v : Word),
    runHostOp (.write (s.eng.base + r.offsetIn.toNat) 64 v) s = .next (writeReg r v s) ∧
    runHostOp (.read (s.eng.base + r.offsetIn.toNat) 64) s =
      .next ((s.observed (.reg (regValue s.plat s.eng r))).withWindows
        (if r = .status ∧ s.eng.status.done = true then s.windows.filter (fun w => w.engine != s.eng.id) else s.windows))) ∧
  (∀ (s : State) (before after : List Engine) (e : Engine) (addr bits : Nat) (v : Word), s.others = before ++ e :: after →
    (∀ f ∈ s.eng :: before, addr < f.base ∨ f.base + 4096 ≤ addr) → e.base ≤ addr → addr < e.base + 4096 →
    let t : State := { s with eng := e, others := s.eng :: (before ++ after) }
    runHostOp (.write addr bits v) s = runHostOp (.write addr bits v) t ∧
    runHostOp (.read addr bits) s = runHostOp (.read addr bits) t)

/-- R71: a register access that is not 64 bits wide at an 8-byte-aligned offset is refused. -/
def Obligations.NarrowAccessIsRefused : Prop :=
  ∀ (s : State) (addr bits : Nat) (v : Word),
    s.eng.base ≤ addr → addr < s.eng.base + 4096 → (bits ≠ 64 ∨ (addr - s.eng.base) % 8 ≠ 0) →
    runHostOp (.write addr bits v) s = .refused .narrowAccess ∧ runHostOp (.read addr bits) s = .refused .narrowAccess

/-- R24: while BUSY = 0 a write to an operand register stores the value there and changes nothing else; a register that can be
read back then reads as the value written, a key register as 0, and every other register as before. -/
def Obligations.IdleOperandWriteStores : Prop :=
  ∀ (s : State) (v : Word), s.eng.status.busy = false →
    let put := fun g : Regs => s.withEng { s.eng with regs := g }
    writeReg .keyLen v s = put { s.eng.regs with keyLen := v } ∧ writeReg .key0 v s = put { s.eng.regs with key0 := v } ∧
    writeReg .key1 v s = put { s.eng.regs with key1 := v } ∧ writeReg .key2 v s = put { s.eng.regs with key2 := v } ∧
    writeReg .key3 v s = put { s.eng.regs with key3 := v } ∧ writeReg .ivHi v s = put { s.eng.regs with ivHi := v } ∧
    writeReg .ivLo v s = put { s.eng.regs with ivLo := v } ∧ writeReg .ivLen v s = put { s.eng.regs with ivLen := v } ∧
    writeReg .offset v s = put { s.eng.regs with offset := v } ∧ writeReg .srcAddr v s = put { s.eng.regs with srcAddr := v } ∧
    writeReg .srcLen v s = put { s.eng.regs with srcLen := v } ∧ writeReg .dstAddr v s = put { s.eng.regs with dstAddr := v } ∧
    writeReg .dstLen v s = put { s.eng.regs with dstLen := v } ∧
    writeReg .blockIndex v s = put { s.eng.regs with blockIndex := v } ∧
    (∀ r r' : Reg, r ≠ .cmd → r ≠ .config →
      regValue s.plat (writeReg r v s).eng r' =
        if r' = r ∧ r.access = .readWrite then v else regValue s.plat s.eng r')

/-- R47: while BUSY = 1 a write to CMD, CONFIG or an operand register is dropped and sets OVR, one to a read-only register or a
reserved offset is ignored and does not set OVR, and STATUS reads with BUSY = 1. -/
def Obligations.BusyWritesAreDropped : Prop :=
  ∀ (s : State) (v : Word), s.eng.status.busy = true →
    (∀ r : Reg, r.access ≠ .readOnly →
      writeReg r v s = s.withEng { s.eng with status := { s.eng.status with ovr := true } }) ∧
    (∀ r : Reg, r.access = .readOnly → writeReg r v s = s) ∧
    (∀ off, (∀ r : Reg, off ≠ r.offsetIn) → writeOffset off v s = s) ∧
    (offsetValue s.plat s.eng 0x008).getLsbD 0 = true

/-- R46: read-only registers and reserved offsets ignore writes, write-only registers and reserved offsets read 0, CONFIG's
reserved bits read 0 and ignore writes, reserved bits of CMD make the command illegal, and a read changes no register. -/
def Obligations.AccessKindsOfRegisters : Prop :=
  ∀ (s : State) (v : Word),
    (∀ r : Reg, r.access = .readOnly → writeReg r v s = s) ∧
    (∀ off, (∀ r : Reg, off ≠ r.offsetIn) → writeOffset off v s = s ∧ offsetValue s.plat s.eng off = 0) ∧
    (∀ r : Reg, r.access = .writeOnly → regValue s.plat s.eng r = 0) ∧
    regValue s.plat s.eng .config &&& ~~~1 = 0 ∧
    writeReg .config v s = writeReg .config (v &&& 1) s ∧
    (v.toNat / 256 ≠ 0 → decodeCmd v = .reject .reservedBits) ∧
    (∀ off, (readOffset off s).eng = s.eng ∧ (readOffset off s).others = s.others ∧ (readOffset off s).mem = s.mem)

/-- R32: bit 0 of a write to CONFIG is taken when the Accelerated backend exists and reads back 0 otherwise; the instance
already constructed keeps its backend. -/
def Obligations.ConfigTakesLegalBackend : Prop :=
  ∀ (s : State) (v : Word), s.eng.status.busy = false →
    let t := writeReg .config v s
    regValue s.plat t.eng .config = (if v.getLsbD 0 = true ∧ s.plat.hasAccel = true then 1 else 0) ∧
    t = s.withEng { s.eng with backendSel := t.eng.backendSel } ∧
    t.eng.status.backend = s.eng.status.backend

/-- R33: offsets 0x0D0 and 0x0D8 read the constants, a write leaves them, and no step of the machine (a command, a transaction,
a reset) changes what they read. -/
def Obligations.IdentificationIsConstant : Prop :=
  ∀ (s t : State) (v : Word),
    offsetValue s.plat s.eng 0x0D0 = 0x4145534354520007 ∧
    (let w := offsetValue s.plat s.eng 0x0D8
     w.extractLsb' 24 40 = 0 ∧ (w.extractLsb' 16 8).toNat = 8 ∧ (w.extractLsb' 8 8).toNat = s.plat.addrW ∧
     w.extractLsb' 1 7 = 0 ∧ w.getLsbD 0 = s.plat.hasAccel) ∧
    writeOffset 0x0D0 v s = s ∧ writeOffset 0x0D8 v s = s ∧
    (step s = .next t → ∀ e : Engine,
      offsetValue t.plat e 0x0D0 = offsetValue s.plat s.eng 0x0D0 ∧
      offsetValue t.plat e 0x0D8 = offsetValue s.plat s.eng 0x0D8)

/-- R30: the bits of STATUS. -/
def Obligations.StatusFieldsStandAtTheirBits : Prop :=
  ∀ st : Status,
    let w := statusWord st
    w.getLsbD 0 = st.busy ∧ w.getLsbD 1 = st.done ∧ w.getLsbD 2 = st.ovr ∧ w.getLsbD 3 = st.ctrWrap ∧
    w.extractLsb' 4 4 = st.err ∧ w.getLsbD 8 = st.keyValid ∧ (w.getLsbD 9 = true ↔ st.backend = .accelerated) ∧
    w.extractLsb' 10 6 = 0 ∧ w.extractLsb' 16 8 = st.nr ∧ w.extractLsb' 24 8 = st.keylenActive ∧ w.extractLsb' 32 32 = 0

/-- R36, R38: a CMD write while BUSY = 0 takes the snapshot (of every operand register, whichever the command reads: log entry
26), sets BUSY, clears DONE, ERR, CTR_WRAP and OVR and goes to CHECK for 0x02, to EXEC otherwise; while BUSY = 1 it is not
accepted; a write to any other register starts no command. Nothing but the engine changes, except that an APPLY whose five checks
pass opens a window of the ranges just taken, for the races to come and with those engines that run beside it (R78, R79, R279: log
entry 11). -/
def Obligations.CommandWriteIsAccepted : Prop :=
  ∀ (s : State) (v : Word),
    (s.eng.status.busy = false →
      (writeReg .cmd v s).eng = { s.eng with
        snap := { op := v, keyLen := s.eng.regs.keyLen, key0 := s.eng.regs.key0, key1 := s.eng.regs.key1,
                  key2 := s.eng.regs.key2, key3 := s.eng.regs.key3, backendSel := s.eng.backendSel,
                  ivH := s.eng.regs.ivHi, ivL := s.eng.regs.ivLo, ivLen := s.eng.regs.ivLen, off := s.eng.regs.offset,
                  s := s.eng.regs.srcAddr, ns := s.eng.regs.srcLen, d := s.eng.regs.dstAddr, nd := s.eng.regs.dstLen,
                  bi := s.eng.regs.blockIndex, backend := s.eng.status.backend }
        status := { s.eng.status with busy := true, done := false, err := 0, ctrWrap := false, ovr := false }
        phase := if v = 2 then .check else .exec } ∧
      (let t := writeReg .cmd v s
       let g := s.eng.regs
       let top := 2 ^ s.plat.addrW
       let opens := v = 2 ∧ s.eng.status.keyValid = true ∧ g.ivLen = 16 ∧ g.dstLen = g.srcLen ∧
         g.srcAddr.toNat + g.dstLen.toNat ≤ top ∧ g.dstAddr.toNat + g.dstLen.toNat ≤ top ∧
         (g.dstAddr = g.srcAddr ∨ ¬ ∃ a, g.dstAddr.toNat ≤ a ∧ a < g.dstAddr.toNat + g.dstLen.toNat ∧
           g.srcAddr.toNat ≤ a ∧ a < g.srcAddr.toNat + g.dstLen.toNat)
       (opens → t = openWindow { engine := s.eng.id, src := g.srcAddr.toNat, dst := g.dstAddr.toNat, len := g.dstLen.toNat,
                                 raced := [], wrote := 0 } (s.withEng t.eng)) ∧
       (¬ opens → t = s.withEng t.eng))) ∧
    (s.eng.status.busy = true → (writeReg .cmd v s).eng.phase = s.eng.phase ∧ (writeReg .cmd v s).eng.snap = s.eng.snap) ∧
    (∀ r : Reg, r ≠ .cmd → (writeReg r v s).eng.phase = s.eng.phase ∧ (writeReg r v s).eng.snap = s.eng.snap ∧
      (writeReg r v s).eng.status.busy = s.eng.status.busy)

/-! The commands. -/

/-- R225: NOP completes with ERR = 0 and changes nothing but BUSY, DONE, ERR and PHASE. -/
def Obligations.NopOnlyCompletes : Prop :=
  ∀ s : State, s.eng.phase = .exec →
    exec .nop s = .next (s.withEng { s.eng with
      status := { s.eng.status with err := 0, busy := false, done := true }, phase := .idle })

/-- R97, R226, R243: an illegal command word ends with ERR = 7 and no other effect. -/
def Obligations.IllegalCommandCompletesWithSeven : Prop :=
  ∀ s : State, s.eng.phase = .exec → (s.eng.snap.op.toNat / 256 ≠ 0 ∨ 5 ≤ s.eng.snap.op.toNat % 256) →
    engineStep s = .next (s.withEng { s.eng with
      status := { s.eng.status with err := 7, busy := false, done := true }, phase := .idle })

/-- R222: with a KEY_LEN other than 16, 24 or 32 CONSTRUCT ends with ERR = 1, issues no request and keeps the instance. -/
def Obligations.ConstructRejectsKeyLength : Prop :=
  ∀ s : State, s.eng.phase = .exec → s.eng.pend = none →
    s.eng.snap.keyLen ≠ 16 → s.eng.snap.keyLen ≠ 24 → s.eng.snap.keyLen ≠ 32 →
    exec .construct s = .next (s.withEng { s.eng with
      status := { s.eng.status with err := 1, busy := false, done := true }, phase := .idle })

/-- R105, R221, R222: with a legal KEY_LEN CONSTRUCT issues EXPAND with the round count and the first KEY_LEN key bytes, and
changes nothing else before the response. That the wait is a transition of its own is the model's choice (log entry 7). -/
def Obligations.ConstructIssuesExpand : Prop :=
  ∀ (s : State) (nr : BitVec 8), s.eng.phase = .exec → s.eng.pend = none →
    (s.eng.snap.keyLen = 16 ∧ nr = 10 ∨ s.eng.snap.keyLen = 24 ∧ nr = 12 ∨ s.eng.snap.keyLen = 32 ∧ nr = 14) →
    exec .construct s = .next (s.withEng { s.eng with
      pend := some (.expand nr (BitVec.ofNat 8 s.eng.snap.keyLen.toNat)
        ((keyBytes s.eng.snap).take s.eng.snap.keyLen.toNat)) })

/-- R105, R222: the response to EXPAND binds the schedule the collaborator made of the payload, the snapshot's backend, the
payload's round count and key length, and CONSTRUCT completes with ERR = 0; the collaborator holds the schedule for this engine
from then on (R257). The model's choices: log entries 7 (a transition of its own), 15 (handles), 28 (how
schedules are held) and 29 (a reset of the collaborator meanwhile). -/
def Obligations.ExpandResponseBindsInstance : Prop :=
  ∀ (s : State) (nr keylen : BitVec 8) (key : List Byte),
    s.eng.phase = .exec → s.eng.pend = some (.expand nr keylen key) →
    let k := Config.expandKey nr keylen key
    exec .expand s = .next ((s.withEng { s.eng with
      pend := none
      sched := some k
      status := { s.eng.status with
        keyValid := true, backend := s.eng.snap.backendSel, nr := nr, keylenActive := keylen,
        err := 0, busy := false, done := true }
      phase := .idle }).withHeld ((s.eng.id, k) :: s.held))

/-- R26, R27: key byte `i` is `KEY(i div 8)[63 - 8(i mod 8) : 56 - 8(i mod 8)]`; `IV[i] = IV_HI[63-8i : 56-8i]` for `i < 8` and
of IV_LO for the others; `ivHigh` and `ivLow` are the halves, each `be64` of its bytes. -/
def Obligations.KeyAndIvBytesArePackedMostSignificantFirst : Prop :=
  (∀ (sn : Snap) (i : Nat), i < 32 →
    (keyBytes sn)[i]? =
      some ((if i < 8 then sn.key0 else if i < 16 then sn.key1 else if i < 24 then sn.key2 else sn.key3).extractLsb'
        (56 - 8 * (i % 8)) 8)) ∧
  (∀ (h l : Word),
    (∀ i, i < 16 → blockByte (ivBlock h l) i =
      (if i < 8 then h.extractLsb' (56 - 8 * i) 8 else l.extractLsb' (56 - 8 * (i - 8)) 8)) ∧
    ivHigh (ivBlock h l) = h ∧ ivLow (ivBlock h l) = l ∧
    be64 ((blockBytes (ivBlock h l)).take 8) = h ∧ be64 ((blockBytes (ivBlock h l)).drop 8) = l)

/-- R128, R120: COUNTER with IV_LEN = 16 leaves `low = (IVL + BI) mod 2^64` and `high = IVH + carry`, sets CTR_WRAP exactly when
the high half overflows, and completes with ERR = 0: whenever there is no overflow, or the parameter is WRAP. -/
def Obligations.CounterGivesCounterBlock : Prop :=
  ∀ s : State, s.eng.phase = .exec → s.eng.snap.ivLen = 16 →
    let sn := s.eng.snap
    let carry := decide (2 ^ 64 ≤ sn.ivL.toNat + sn.bi.toNat)
    let wraps := decide (sn.ivH.toNat = 2 ^ 64 - 1) && carry
    (wraps = false ∨ s.plat.ovf = .wrap) →
    exec .counter s = .next (s.withEng { s.eng with
      results := { s.eng.results with
        ctrOutHi := BitVec.ofNat 64 (sn.ivH.toNat + if carry then 1 else 0)
        ctrOutLo := BitVec.ofNat 64 (sn.ivL.toNat + sn.bi.toNat) }
      status := { s.eng.status with
        ctrWrap := s.eng.status.ctrWrap || wraps, err := 0, busy := false, done := true }
      phase := .idle })

/-- R123, R128: where the high half overflows and the parameter leaves the result open, both result registers take free values
(log entry 6), CTR_WRAP is set, and COUNTER completes with ERR = 0. -/
def Obligations.CounterOverflowIsAnyValue : Prop :=
  ∀ s : State, s.eng.phase = .exec → s.eng.snap.ivLen = 16 → s.plat.ovf = .unspecified →
    s.eng.snap.ivH.toNat = 2 ^ 64 - 1 → 2 ^ 64 ≤ s.eng.snap.ivL.toNat + s.eng.snap.bi.toNat →
    exec .counter s = .next ((s.withEng { s.eng with
      results := { s.eng.results with ctrOutHi := Config.freeWord s.draws, ctrOutLo := Config.freeWord (s.draws + 1) }
      status := { s.eng.status with ctrWrap := true, err := 0, busy := false, done := true }
      phase := .idle }).withDraws (s.draws + 2))

/-- R128, R29: COUNTER with IV_LEN other than 16 ends with ERR = 2 and keeps its result registers. -/
def Obligations.CounterRejectsIvLength : Prop :=
  ∀ s : State, s.eng.phase = .exec → s.eng.snap.ivLen ≠ 16 →
    exec .counter s = .next (s.withEng { s.eng with
      status := { s.eng.status with err := 2, busy := false, done := true }, phase := .idle })

/-- R121: the carry is `(ivLow + b) div 2^64`, 0 or 1, and `low < ivLow` holds exactly when the sum reaches `2^64`. -/
def Obligations.CarryIsTheSumsQuotient : Prop :=
  ∀ ivL b : Word,
    (ctrLow ivL b < ivL ↔ 2 ^ 64 ≤ ivL.toNat + b.toNat) ∧
    (if ctrCarry ivL b = true then 1 else 0) = (ivL.toNat + b.toNat) / 2 ^ 64 ∧ (ivL.toNat + b.toNat) / 2 ^ 64 ≤ 1

/-- R122, R123: when `ivHigh + carry < 2^64` the counter block is the 128-bit IV plus the block index, with no wrap; the
datapath is the 128-bit unsigned wraparound, also when the high half overflows. -/
def Obligations.CounterBlockIsThe128BitSum : Prop :=
  ∀ ivH ivL b : Word,
    (ivH.toNat + (if ctrCarry ivL b = true then 1 else 0) < 2 ^ 64 →
      (ctr ivH ivL b).toNat = (ivBlock ivH ivL).toNat + b.toNat) ∧
    (ctr ivH ivL b).toNat = ((ivBlock ivH ivL).toNat + b.toNat) % 2 ^ 128

/-- R155: PLAN writes the split of OFFSET and DST_LEN and the batch plan of the bound backend to the seven registers, keeps the
others, and completes with ERR = 0. -/
def Obligations.PlanReportsSplitAndBatches : Prop :=
  ∀ s : State, s.eng.phase = .exec →
    let sn := s.eng.snap
    let lead := min ((16 - sn.off.toNat % 16) % 16) sn.nd.toNat
    let nfull := (sn.nd.toNat - lead) / 16
    let acc := decide (sn.backend = .accelerated)
    exec .plan s = .next (s.withEng { s.eng with
      results := { s.eng.results with
        planLead := BitVec.ofNat 64 lead
        planNfull := BitVec.ofNat 64 nfull
        planTrail := BitVec.ofNat 64 (sn.nd.toNat - lead - 16 * nfull)
        planN8 := BitVec.ofNat 64 (if acc then nfull / 8 else 0)
        planN4 := BitVec.ofNat 64 (if acc then nfull % 8 / 4 else 0)
        planN2 := BitVec.ofNat 64 (if acc then nfull % 4 / 2 else 0)
        planN1 := BitVec.ofNat 64 (if acc then nfull % 2 else nfull) }
      status := { s.eng.status with err := 0, busy := false, done := true }
      phase := .idle })

/-! The range splitter and the batch dispatcher. -/

/-- R140: the split's equations, its sum and its bounds. -/
def Obligations.SplitSumsToLength : Prop :=
  ∀ off n : Nat,
    (split off n).lead = min ((16 - off % 16) % 16) n ∧
    (split off n).nfull = (n - (split off n).lead) / 16 ∧
    (split off n).trail = n - (split off n).lead - 16 * (split off n).nfull ∧
    (split off n).lead + 16 * (split off n).nfull + (split off n).trail = n ∧
    (split off n).lead ≤ 15 ∧ (split off n).trail ≤ 15

/-- R142, R143, R144: the full run and the trailing segment start on a block boundary, and a short leading segment is the whole
range; the leading segment lies in block `OFF div 16`, the full run starts at the next block when there is one, and the trailing
block follows the full run, so no block serves two segments. -/
def Obligations.SegmentsUseConsecutiveBlocks : Prop :=
  ∀ off n : Nat,
    (0 < (split off n).nfull ∨ 0 < (split off n).trail → (off + (split off n).lead) % 16 = 0) ∧
    ((split off n).lead < (16 - off % 16) % 16 →
      (split off n).lead = n ∧ (split off n).nfull = 0 ∧ (split off n).trail = 0) ∧
    (∀ i, i < (split off n).lead → (off + i) / 16 = off / 16 ∧ (off + i) % 16 = off % 16 + i) ∧
    (0 < (split off n).lead → 0 < (split off n).nfull ∨ 0 < (split off n).trail →
      (off + (split off n).lead) / 16 = off / 16 + 1) ∧
    (off + (split off n).lead + 16 * (split off n).nfull) / 16 = (off + (split off n).lead) / 16 + (split off n).nfull ∧
    (∀ i, i < (split off n).trail →
      (off + (split off n).lead + 16 * (split off n).nfull + i) / 16 = (off + (split off n).lead) / 16 + (split off n).nfull ∧
      (off + (split off n).lead + 16 * (split off n).nfull + i) % 16 = i)

/-- R171, R172, R173, R174: the Accelerated run is `n div 8` batches of 8, then at most one of 4, one of 2 and one of 1, by the
bits of `n mod 8`; the Portable run is `n` batches of 1. -/
def Obligations.BatchWidthsAreGreedy : Prop :=
  ∀ n fuel : Nat, n ≤ fuel →
    batchWidths .accelerated fuel n =
      List.replicate (n / 8) 8 ++ List.replicate (n % 8 / 4) 4 ++ List.replicate (n % 4 / 2) 2 ++ List.replicate (n % 2) 1 ∧
    batchWidths .portable fuel n = List.replicate n 1

/-- R212: the overlap test is the intersection test, computed exactly, and holds exactly when the ranges share a byte; an empty
range overlaps nothing. -/
def Obligations.OverlapIsASharedByte : Prop :=
  ∀ d s n : Nat,
    (overlap d s n = true ↔ 0 < n ∧ d < s + n ∧ s < d + n) ∧
    (overlap d s n = true ↔ ∃ a, d ≤ a ∧ a < d + n ∧ s ≤ a ∧ a < s + n) ∧ overlap d s 0 = false

/-! APPLY, micro-step by micro-step. -/

/-- R244, R147, R246: CHECK reports the first failing check in the order NotConstructed, InvalidIvLength, LengthMismatch,
AddressRange, InvalidOverlap, and changes nothing but BUSY, DONE, ERR and PHASE. -/
def Obligations.CheckReportsFirstFailure : Prop :=
  ∀ s : State, s.eng.phase = .check → s.eng.pend = none →
    let sn := s.eng.snap
    let top := 2 ^ s.plat.addrW
    let fits := sn.s.toNat + sn.nd.toNat ≤ top ∧ sn.d.toNat + sn.nd.toNat ≤ top
    let ends := fun c : BitVec 4 => exec .apply s = .next (s.withEng { s.eng with
      status := { s.eng.status with err := c, busy := false, done := true }, phase := .idle })
    (s.eng.status.keyValid = false → ends 5) ∧
    (s.eng.status.keyValid = true → sn.ivLen ≠ 16 → ends 2) ∧
    (s.eng.status.keyValid = true → sn.ivLen = 16 → sn.nd ≠ sn.ns → ends 3) ∧
    (s.eng.status.keyValid = true → sn.ivLen = 16 → sn.nd = sn.ns → ¬ fits → ends 6) ∧
    (s.eng.status.keyValid = true → sn.ivLen = 16 → sn.nd = sn.ns → fits → sn.d ≠ sn.s →
      (0 < sn.nd.toNat ∧ sn.d.toNat < sn.s.toNat + sn.nd.toNat ∧ sn.s.toNat < sn.d.toNat + sn.nd.toNat) → ends 4)

/-- R147: when the five checks pass, CHECK sets `N`, `POS = 0`, `P = OFF` and PHASE to LEAD, and nothing else. -/
def Obligations.CheckPassesToLead : Prop :=
  ∀ s : State, s.eng.phase = .check → s.eng.pend = none →
    let sn := s.eng.snap
    let top := 2 ^ s.plat.addrW
    s.eng.status.keyValid = true → sn.ivLen = 16 → sn.nd = sn.ns →
    sn.s.toNat + sn.nd.toNat ≤ top → sn.d.toNat + sn.nd.toNat ≤ top →
    (sn.d = sn.s ∨ ¬ ∃ a, sn.d.toNat ≤ a ∧ a < sn.d.toNat + sn.nd.toNat ∧ sn.s.toNat ≤ a ∧ a < sn.s.toNat + sn.nd.toNat) →
    exec .apply s = .next (s.withEng { s.eng with
      cur := { s.eng.cur with n := sn.nd.toNat, pos := 0, p := sn.off.toNat }, phase := .lead })

/-- R148, R151, R152: an empty LEAD only goes to FULL with `NLEFT = nfull`, an empty TRAIL only to FINISH, and FINISH completes
with ERR = 0; none issues a request or touches a byte. That leaving FULL is TRAIL's transition is the model's choice (log entry
8). -/
def Obligations.EmptySegmentsOnlyMoveOn : Prop :=
  ∀ s : State, s.eng.pend = none →
    (s.eng.phase = .lead → s.eng.snap.split.lead = 0 →
      exec .apply s = .next (s.withEng { s.eng with
        cur := { s.eng.cur with nleft := s.eng.snap.split.nfull }, phase := .full })) ∧
    (s.eng.phase = .full → s.eng.cur.nleft = 0 → s.eng.snap.split.trail = 0 →
      exec .apply s = .next (s.withEng { s.eng with phase := .finish })) ∧
    (s.eng.phase = .trail → s.eng.snap.split.trail = 0 →
      exec .apply s = .next (s.withEng { s.eng with phase := .finish })) ∧
    (s.eng.phase = .finish →
      exec .apply s = .next (s.withEng { s.eng with
        status := { s.eng.status with err := 0, busy := false, done := true }, phase := .idle }))

/-- R106, R148, R151, R179, R130: a LEAD or TRAIL that is not empty and a FULL step of width 1 issue one ENC1 of `ctr(IV, P div
16)` and set CTR_WRAP when that counter overflows; a FULL step with nothing left does so as TRAIL. The model's choices: log
entries 7 (the issue is a transition), 8 (leaving FULL) and 9 (CTR_WRAP at the issue). -/
def Obligations.BlockStepsIssueOneEnc1 : Prop :=
  ∀ (s : State) (k : Sched), s.eng.pend = none → s.eng.sched = some k →
    let sn := s.eng.snap
    let b := s.eng.cur.p / 16
    let waits := fun ph : Phase => exec .apply s = .next (s.withEng { s.eng with
      phase := ph
      pend := some (.enc1 k (ctr sn.ivH sn.ivL (BitVec.ofNat 64 b)))
      status := { s.eng.status with
        ctrWrap := s.eng.status.ctrWrap || decide (sn.ivH.toNat = 2 ^ 64 - 1 ∧ 2 ^ 64 ≤ sn.ivL.toNat + b) } })
    (s.eng.phase = .lead → 0 < sn.split.lead → waits .lead) ∧
    (s.eng.phase = .full → 0 < s.eng.cur.nleft → (sn.backend = .portable ∨ s.eng.cur.nleft = 1) → waits .full) ∧
    (s.eng.phase = .full → s.eng.cur.nleft = 0 → 0 < sn.split.trail → waits .trail) ∧
    (s.eng.phase = .trail → 0 < sn.split.trail → waits .trail)

/-- R107, R149, R172, R176, R177, R178, R130: with two or more blocks left the Accelerated FULL step reads the source bytes of
the widest batch that fits and issues one ENCB for them with `START = P div 16`, setting CTR_WRAP when some lane's counter
overflows. The model's choices: log entries 7 (the issue is a transition) and 9 (CTR_WRAP at the issue). -/
def Obligations.BatchStepsIssueOneEncb : Prop :=
  ∀ (s : State) (k : Sched) (w : Width), s.eng.pend = none → s.eng.sched = some k → s.eng.phase = .full →
    let sn := s.eng.snap
    let b := s.eng.cur.p / 16
    let src := sn.s.toNat + s.eng.cur.pos
    sn.backend = .accelerated → w.blocks ≤ s.eng.cur.nleft →
    (8 ≤ s.eng.cur.nleft → w = .w8) → (4 ≤ s.eng.cur.nleft → s.eng.cur.nleft < 8 → w = .w4) →
    portStop s.plat src (16 * w.blocks) = none →
    exec .apply s = .next (s.withEng { s.eng with
      pend := some (.encb w k (ivBlock sn.ivH sn.ivL) (BitVec.ofNat 64 b) (s.mem.readN src (16 * w.blocks)))
      status := { s.eng.status with
        ctrWrap := s.eng.status.ctrWrap ||
          decide (sn.ivH.toNat = 2 ^ 64 - 1 ∧ 2 ^ 64 ≤ sn.ivL.toNat + b + w.blocks - 1) } })

/-- R41, R108: a micro-step whose request is pending does not complete until the response arrives; that the engine's step
changes nothing meanwhile is the model's choice (log entry 7). -/
def Obligations.PendingRequestHoldsMicroStep : Prop :=
  ∀ (s : State) (r : Request), s.eng.pend = some r →
    (s.eng.phase = .exec → exec .construct s = .next s) ∧
    (s.eng.phase ≠ .idle → s.eng.phase ≠ .exec → exec .apply s = .next s)

/-- R194, R106: the response to LEAD's ENC1: SCRATCH takes the block, which is `E(SCHED, X)`, or any value where the counter's
result is left open (log entries 6 and 20); the `lead` destination bytes take source XOR block bytes from `P mod 16` on, those
that a race hit any value (R79), every other byte stays, the cursors move past them, NLEFT is `nfull` and PHASE is FULL. The
ranges coincide or share no byte, as CHECK has it (R213), so the order of the byte events does not matter (R68, log entry 10).
The answer as a transition: log entry 7; how
races are found, and that the engine's window notes the bytes written: log entry 11. -/
def Obligations.LeadResponseTransformsLeadingBytes : Prop :=
  ∀ (s : State) (k : Sched) (x : Block), s.eng.phase = .lead → s.eng.pend = some (.enc1 k x) → (s.eng.id, k) ∈ s.held →
    s.mem.wf →
    let sn := s.eng.snap
    let n := sn.split.lead
    let src := sn.s.toNat
    let d := sn.d.toNat
    let c := s.eng.cur
    (d = src ∨ overlap d src n = false) → n ≤ 16 - c.p % 16 →
    portStop s.plat src n = none → portStop s.plat d n = none →
    ∃ t y, exec .enc1 s = .next t ∧
      (counterOpen s.plat sn.ivH sn.ivL (c.p / 16) = false → y = Config.cipherE k x) ∧
      (counterOpen s.plat sn.ivH sn.ivL (c.p / 16) = true → ∃ q, y = Config.freeBlock q) ∧
      t.eng = { s.eng with
        pend := none, scratch := y, phase := .full
        cur := { c with pos := c.pos + n, p := c.p + n, nleft := sn.split.nfull } } ∧
      t.windows = markWritten s.eng.id (d + n) s.windows ∧
      (∀ i, i < n → d + i ∉ racedNow s → t.mem.read (d + i) = s.mem.read (src + i) ^^^ blockByte y (c.p % 16 + i)) ∧
      (∀ i, i < n → d + i ∈ racedNow s → ∃ q, t.mem.read (d + i) = Config.freeByte q) ∧
      (∀ a, a < d ∨ d + n ≤ a → t.mem.read a = s.mem.read a)

/-- R179, R193, R106: the response to BATCH1's ENC1: the 16 destination bytes take source XOR the block, which is `E(SCHED, X)`,
or any value where the counter's result is left open (log entries 6 and 20); those that a race hit take any value (R79); SCRATCH
and every other byte stay, the cursors move past the block and NLEFT falls by 1. The ranges coincide or share no byte, as CHECK
has it (R213, R68, log entry 10). The answer as a transition: log entry 7; how
races are found, and that the engine's window notes the bytes written: log entry 11. -/
def Obligations.BatchOneResponseTransformsBlock : Prop :=
  ∀ (s : State) (k : Sched) (x : Block), s.eng.phase = .full → s.eng.pend = some (.enc1 k x) → (s.eng.id, k) ∈ s.held →
    s.mem.wf →
    let sn := s.eng.snap
    let c := s.eng.cur
    let src := sn.s.toNat + c.pos
    let d := sn.d.toNat + c.pos
    (d = src ∨ overlap d src 16 = false) → portStop s.plat src 16 = none → portStop s.plat d 16 = none →
    ∃ t y, exec .enc1 s = .next t ∧
      (counterOpen s.plat sn.ivH sn.ivL (c.p / 16) = false → y = Config.cipherE k x) ∧
      (counterOpen s.plat sn.ivH sn.ivL (c.p / 16) = true → ∃ q, y = Config.freeBlock q) ∧
      t.eng = { s.eng with pend := none, cur := { c with pos := c.pos + 16, p := c.p + 16, nleft := c.nleft - 1 } } ∧
      t.windows = markWritten s.eng.id (d + 16) s.windows ∧
      (∀ i, i < 16 → d + i ∉ racedNow s → t.mem.read (d + i) = s.mem.read (src + i) ^^^ blockByte y i) ∧
      (∀ i, i < 16 → d + i ∈ racedNow s → ∃ q, t.mem.read (d + i) = Config.freeByte q) ∧
      (∀ a, a < d ∨ d + 16 ≤ a → t.mem.read a = s.mem.read a)

/-- R195, R106: the response to TRAIL's ENC1: SCRATCH takes the block, which is `E(SCHED, X)`, or any value where the counter's
result is left open (log entries 6 and 20); the `trail` destination bytes take source XOR its first bytes, those that a race hit
any value (R79), every other byte stays, the cursors move past them and PHASE is FINISH. The ranges coincide or share no byte,
as CHECK has it (R213, R68, log entry 10). The answer as a transition: log entry 7; how
races are found, and that the engine's window notes the bytes written: log entry 11. -/
def Obligations.TrailResponseTransformsTrailingBytes : Prop :=
  ∀ (s : State) (k : Sched) (x : Block), s.eng.phase = .trail → s.eng.pend = some (.enc1 k x) → (s.eng.id, k) ∈ s.held →
    s.mem.wf →
    let sn := s.eng.snap
    let n := sn.split.trail
    let c := s.eng.cur
    let src := sn.s.toNat + c.pos
    let d := sn.d.toNat + c.pos
    (d = src ∨ overlap d src n = false) → portStop s.plat src n = none → portStop s.plat d n = none →
    ∃ t y, exec .enc1 s = .next t ∧
      (counterOpen s.plat sn.ivH sn.ivL (c.p / 16) = false → y = Config.cipherE k x) ∧
      (counterOpen s.plat sn.ivH sn.ivL (c.p / 16) = true → ∃ q, y = Config.freeBlock q) ∧
      t.eng = { s.eng with
        pend := none, scratch := y, phase := .finish
        cur := { c with pos := c.pos + n, p := c.p + n } } ∧
      t.windows = markWritten s.eng.id (d + n) s.windows ∧
      (∀ i, i < n → d + i ∉ racedNow s → t.mem.read (d + i) = s.mem.read (src + i) ^^^ blockByte y i) ∧
      (∀ i, i < n → d + i ∈ racedNow s → ∃ q, t.mem.read (d + i) = Config.freeByte q) ∧
      (∀ a, a < d ∨ d + n ≤ a → t.mem.read a = s.mem.read a)

/-- R107, R129, R176, R177, R178: the response to ENCB2, ENCB4 and ENCB8: destination byte `16i + j` takes DATA byte `16i + j`
XOR byte `j` of the lane's block, which is `E(SCHED, ctr(IV, START + i))`, or any value where that counter is left open (log
entries 6 and 20); a byte that a race hit takes any value (R79), every other byte stays, the cursors move past the batch and
NLEFT falls by its width. The answer as a transition: log entry 7; how
races are found, and that the engine's window notes the bytes written: log entry 11. -/
def Obligations.BatchResponseStoresOutput : Prop :=
  ∀ (s : State) (w : Width) (k : Sched) (ivH ivL start : Word) (data : List Byte),
    s.eng.phase = .full → s.eng.pend = some (.encb w k (ivBlock ivH ivL) start data) → (s.eng.id, k) ∈ s.held →
    s.mem.wf → data.length = 16 * w.blocks →
    let c := s.eng.cur
    let d := s.eng.snap.d.toNat + c.pos
    portStop s.plat d (16 * w.blocks) = none →
    ∃ t, exec (Width.instr w) s = .next t ∧
      t.eng = { s.eng with
        pend := none
        cur := { c with pos := c.pos + 16 * w.blocks, p := c.p + 16 * w.blocks, nleft := c.nleft - w.blocks } } ∧
      t.windows = markWritten s.eng.id (d + 16 * w.blocks) s.windows ∧
      (∀ i, i < w.blocks → ∃ y : Block,
        (counterOpen s.plat ivH ivL (start.toNat + i) = false →
          y = Config.cipherE k (ctr ivH ivL (BitVec.ofNat 64 (start.toNat + i)))) ∧
        (counterOpen s.plat ivH ivL (start.toNat + i) = true → ∃ q, y = Config.freeBlock q) ∧
        ∀ j, j < 16 → d + (16 * i + j) ∉ racedNow s →
          some (t.mem.read (d + (16 * i + j))) = (data[16 * i + j]?).map (fun b => b ^^^ blockByte y j)) ∧
      (∀ i, i < 16 * w.blocks → d + i ∈ racedNow s → ∃ q, t.mem.read (d + i) = Config.freeByte q) ∧
      (∀ a, a < d ∨ d + 16 * w.blocks ≤ a → t.mem.read a = s.mem.read a)

/-! What no instruction changes. -/

/-- R44, R66, R70: an instruction that stores nothing leaves every byte of data memory, and one that stores leaves every byte
outside the segment or batch it completes, whose address and length are computed as its meaning computes them. -/
def Obligations.StoresStayInTheirSpan : Prop :=
  ∀ (i : Instr) (s t : State), exec i s = .next t →
    (storesData i = false → t.mem = s.mem) ∧
    (∀ a, a < (storeSpan i s).1 ∨ (storeSpan i s).1 + (storeSpan i s).2 ≤ a → t.mem.read a = s.mem.read a)

/-- R24, R42, R256: no instruction changes an operand register, CONFIG, the snapshot, the identity of its engine, another
engine, a parameter, or the host's program, schedule or observations; only EXPAND adds a schedule; the open windows stay, but that
one that stores notes how far its command has written, no further than its segment or batch (log entry 11). -/
def Obligations.InstructionsLeaveOperandsAndOthers : Prop :=
  ∀ (i : Instr) (s t : State), exec i s = .next t →
    t.eng.regs = s.eng.regs ∧ t.eng.backendSel = s.eng.backendSel ∧ t.eng.snap = s.eng.snap ∧
    t.eng.id = s.eng.id ∧ t.eng.base = s.eng.base ∧ t.eng.cipher = s.eng.cipher ∧ t.others = s.others ∧ t.plat = s.plat ∧
    t.prog = s.prog ∧ t.turns = s.turns ∧ t.obs = s.obs ∧
    (storesData i = false → t.windows = s.windows) ∧
    (storesData i = true → ∃ n, n ≤ (storeSpan i s).2 ∧ t.windows = markWritten s.eng.id ((storeSpan i s).1 + n) s.windows) ∧
    (i ≠ .expand → t.held = s.held)

/-- R29, R39, R40: only COUNTER writes CTR_OUT_HI and CTR_OUT_LO, only PLAN the PLAN registers, only ENC1 SCRATCH, and only
APPLY and the answers to its requests the cursors. -/
def Obligations.ResultsAreWrittenByTheirCommand : Prop :=
  ∀ (i : Instr) (s t : State), exec i s = .next t →
    (i ≠ .counter → t.eng.results.ctrOutHi = s.eng.results.ctrOutHi ∧ t.eng.results.ctrOutLo = s.eng.results.ctrOutLo) ∧
    (i ≠ .plan → t.eng.results = { s.eng.results with
      ctrOutHi := t.eng.results.ctrOutHi, ctrOutLo := t.eng.results.ctrOutLo }) ∧
    (i ≠ .enc1 → t.eng.scratch = s.eng.scratch) ∧
    (i ≠ .apply → storesData i = false → t.eng.cur = s.eng.cur)

/-- R30, R34, R130, R246, and the moment at which APPLY sets CTR_WRAP, the model's choice (log entry 9): OVR is changed by no
instruction; CTR_WRAP is never cleared by one and is set only by COUNTER and APPLY; ERR, DONE and BUSY are left unless the
instruction completes its command, which leaves BUSY = 0, DONE = 1 and PHASE IDLE. -/
def Obligations.StatusFlagsOnlyMoveAsSpecified : Prop :=
  ∀ (i : Instr) (s t : State), exec i s = .next t →
    t.eng.status.ovr = s.eng.status.ovr ∧
    (s.eng.status.ctrWrap = true → t.eng.status.ctrWrap = true) ∧
    (i ≠ .counter → i ≠ .apply → t.eng.status.ctrWrap = s.eng.status.ctrWrap) ∧
    (t.eng.phase ≠ .idle → t.eng.status.err = s.eng.status.err ∧ t.eng.status.done = s.eng.status.done ∧
      t.eng.status.busy = s.eng.status.busy) ∧
    (t.eng.phase = .idle → t.eng.status.busy = false ∧ t.eng.status.done = true)

/-- R31, R223: only a successful CONSTRUCT, at its EXPAND response, writes SCHED, KEY_VALID, BACKEND, NR or KEYLEN_ACTIVE; no
other command and no host write changes them. -/
def Obligations.InstanceChangesOnlyByConstruct : Prop :=
  ∀ (s : State),
    let same := fun e : Engine => e.sched = s.eng.sched ∧ e.status.keyValid = s.eng.status.keyValid ∧
      e.status.backend = s.eng.status.backend ∧ e.status.nr = s.eng.status.nr ∧
      e.status.keylenActive = s.eng.status.keylenActive
    (∀ i t, exec i s = .next t → i ≠ .expand → same t.eng) ∧
    (∀ off v, same (writeOffset off v s).eng)

/-! The host, races, reset, and where an engine is stuck. -/

/-- R99, R76: WAIT ends exactly when STATUS shows DONE = 1, which also closes the engine's windows (log entry 11), and is
repeated otherwise; that an unfinished WAIT is one poll that changes and records nothing is the model's choice (log entry 25).
A WAIT of one of the other engines is that WAIT of the state with this engine at `eng` and the others in `others` (R256: log entry
23). -/
def Obligations.WaitEndsAtDone : Prop :=
  (∀ (s : State) (rest : List HostOp), s.prog = .wait s.eng.base :: rest →
    (s.eng.status.done = true →
      hostStep s = .next ((s.withProg rest).withWindows (s.windows.filter fun w => w.engine != s.eng.id))) ∧
    (s.eng.status.done = false → hostStep s = .next s)) ∧
  (∀ (s : State) (before after : List Engine) (e : Engine) (rest : List HostOp), s.others = before ++ e :: after →
    (∀ f ∈ s.eng :: before, f.base ≠ e.base) → s.prog = .wait e.base :: rest →
    hostStep s = hostStep { s with eng := e, others := s.eng :: (before ++ after) })

/-- R75, R76, R79, R288: host accesses that race with no open command are plain memory accesses: writes of bytes that no open
window reads or writes, and reads of bytes that no open window writes, its source bytes among them. -/
def Obligations.OrderedHostAccessesArePlain : Prop :=
  ∀ (s : State) (a : Nat),
    (∀ bs : List Byte, s.mem.wf →
      (∀ i, i < bs.length → ∀ w ∈ s.windows, w.inSrc (a + i) = false ∧ w.inDst (a + i) = false) →
      portStop s.plat a bs.length = none →
      ∃ t, runHostOp (.memWrite a bs) s = .next t ∧ t.eng = s.eng ∧ t.windows = s.windows ∧
        (∀ i, i < bs.length → some (t.mem.read (a + i)) = bs[i]?) ∧
        (∀ x, x < a ∨ a + bs.length ≤ x → t.mem.read x = s.mem.read x) ∧
        runHostOp (.memRead a bs.length) t = .next (t.observed (.mem bs))) ∧
    (∀ n : Nat, (∀ i, i < n → ∀ w ∈ s.windows, w.inDst (a + i) = false) → portStop s.plat a n = none →
      runHostOp (.memRead a n) s = .next (s.observed (.mem ((List.range n).map fun i => s.mem.read (a + i)))))

/-- R79, R77, R78: races, with any number of open windows. A host write of a byte that some open window reads or writes leaves
any value in the byte, in each window's own destination byte there and in each destination byte computed from it. A host read of
a byte that some open window writes returns any value and leaves any value in it. An APPLY accepted while other engines have
windows open leaves any value in their destination bytes that it reads, writes, or whose source byte it writes, and records its
own such bytes. In each case a later window of the same engine that reads a byte so left takes any value in the byte it
computes, every window records its bytes for the stores still to come, a byte that a later command of the same engine has written
holds what that command wrote (R77), and no other byte and no engine changes. Free values and windows are the model's (log entries
6 and 11). -/
def Obligations.RacedHostWriteLeavesAnyValue : Prop :=
  ∀ s : State, s.mem.wf →
    (∀ a v, (∃ w ∈ s.windows, w.inSrc a = true ∨ w.inDst a = true) →
      let t := hostWriteByte a v s
      raceLeaves (fun w x => (w.inDst a = true ∧ x = a) ∨ (w.inSrc a = true ∧ x = w.dst + (a - w.src))) (fun x => x = a)
        s t.windows t.mem ∧ t.eng = s.eng ∧ t.others = s.others) ∧
    (∀ a, (∃ w ∈ s.windows, w.inDst a = true) →
      let r := hostReadByte a s
      (∃ q, r.1 = Config.freeByte q) ∧
      raceLeaves (fun w x => w.inDst a = true ∧ x = a) (fun _ => False) s r.2.windows r.2.mem ∧
      r.2.eng = s.eng ∧ r.2.others = s.others) ∧
    (∀ v : Window,
      let t := openWindow v s
      ∃ mine ws, t.windows = { v with raced := mine ++ v.raced } :: ws ∧
        (∀ x, x ∈ mine ↔ ∃ w ∈ s.windows, w.engine ≠ v.engine ∧ ∃ i, i < v.len ∧ x = v.dst + i ∧
          (w.inSrc x = true ∨ w.inDst x = true ∨ w.inDst (v.src + i) = true)) ∧
        raceLeaves (fun w x => w.engine ≠ v.engine ∧ ∃ i, i < w.len ∧ x = w.dst + i ∧
          (v.inSrc x = true ∨ v.inDst x = true ∨ v.inDst (w.src + i) = true)) (fun _ => False) s ws t.mem ∧
        t.eng = s.eng ∧ t.others = s.others)

/-- R270, R271, R45: the reset input puts the engine into the reset state whatever its PHASE and leaves the other engines, the
collaborator, the parameters and (a reset synchronises nothing: R82, log entry 12) the open windows. R273: the collaborator's
own reset takes away the schedules of the engines it serves and changes nothing else (log entries 28 and 29). Either reset named
by the window of one of the other engines is that of the state with this engine at `eng` and the others in `others` (R256: log
entry 23). -/
def Obligations.ResetInputResetsEngine : Prop :=
  (∀ s : State, ∃ t, runHostOp (.reset s.eng.base) s = .next t ∧
    t.eng.status = { busy := false, done := false, ovr := false, ctrWrap := false, err := 0, keyValid := false,
                     backend := .portable, nr := 0, keylenActive := 0 } ∧
    t.eng.phase = .idle ∧ t.eng.pend = none ∧ t.eng.sched = none ∧ t.eng.backendSel = .portable ∧
    t.eng.id = s.eng.id ∧ t.eng.base = s.eng.base ∧ t.eng.cipher = s.eng.cipher ∧
    (∀ r : Reg, r ≠ .id → r ≠ .params → regValue t.plat t.eng r = 0) ∧
    t.eng.regs.key0 = 0 ∧ t.eng.regs.key1 = 0 ∧ t.eng.regs.key2 = 0 ∧ t.eng.regs.key3 = 0 ∧
    t.others = s.others ∧ t.held = s.held ∧ t.plat = s.plat ∧ t.windows = s.windows ∧
    ∃ hs, runHostOp (.cipherReset s.eng.base) s = .next (s.withHeld hs) ∧
      ∀ id k, (id, k) ∈ hs ↔ (id, k) ∈ s.held ∧ ¬ ∃ e ∈ s.eng :: s.others, e.id = id ∧ e.cipher = s.eng.cipher) ∧
  (∀ (s : State) (before after : List Engine) (e : Engine), s.others = before ++ e :: after →
    (∀ f ∈ s.eng :: before, f.base ≠ e.base) →
    let t : State := { s with eng := e, others := s.eng :: (before ++ after) }
    runHostOp (.reset e.base) s = runHostOp (.reset e.base) t ∧
    runHostOp (.cipherReset e.base) s = runHostOp (.cipherReset e.base) t)

/-- R272: the reset input leaves every byte outside the destination range of an APPLY past CHECK, and all of memory at any other time;
each byte of that range holds any value (some draw's: log entry 6). -/
def Obligations.ResetDuringApplyLeavesRangeOpen : Prop :=
  ∀ s : State, s.mem.wf →
    let d := s.eng.snap.d.toNat
    let n := s.eng.snap.nd.toNat
    ∃ t, runHostOp (.reset s.eng.base) s = .next t ∧
    (pastCheck s.eng.phase = false → t.mem = s.mem) ∧
    (pastCheck s.eng.phase = true →
      (∀ a, a < d ∨ d + n ≤ a → t.mem.read a = s.mem.read a) ∧
      (∀ i, i < n → ∃ q, t.mem.read (d + i) = Config.freeByte q))

/-- R72, R273: no answer and no issue is a step where the platform has no memory for the bytes it reads or writes, or where the
request names a schedule the collaborator does not hold for this engine: the engine is stuck. For ENC1 in LEAD, FULL and TRAIL,
for ENCB2, ENCB4 and ENCB8, and for the source read of a batch. The model's choices: log entries 13 (regions), 15 (handles), 28
and 29 (whose schedules a reset takes away, and when a pending request feels it). -/
def Obligations.StuckWithoutMemoryOrSchedule : Prop :=
  ∀ (s : State) (k : Sched),
    let sn := s.eng.snap
    (∀ x, s.eng.pend = some (.enc1 k x) → s.eng.phase = .lead ∨ s.eng.phase = .full ∨ s.eng.phase = .trail →
      let d := (storeSpan .enc1 s).1
      let n := (storeSpan .enc1 s).2
      let src := if s.eng.phase = .lead then sn.s.toNat else sn.s.toNat + s.eng.cur.pos
      ((s.eng.id, k) ∉ s.held → exec .enc1 s = .fault .cipherPortStuck) ∧
      ((s.eng.id, k) ∈ s.held → s.plat.lacks src n → exec .enc1 s = .fault .dataPortStuck) ∧
      ((s.eng.id, k) ∈ s.held → portStop s.plat src n = none → s.plat.lacks d n →
        exec .enc1 s = .fault .dataPortStuck)) ∧
    (∀ w iv start data, s.eng.pend = some (.encb w k iv start data) → s.eng.phase = .full →
      ((s.eng.id, k) ∉ s.held → exec (Width.instr w) s = .fault .cipherPortStuck) ∧
      ((s.eng.id, k) ∈ s.held → s.plat.lacks (sn.d.toNat + s.eng.cur.pos) (16 * w.blocks) →
        exec (Width.instr w) s = .fault .dataPortStuck)) ∧
    (∀ w : Width, s.eng.pend = none → s.eng.sched = some k → s.eng.phase = .full → sn.backend = .accelerated →
      w.blocks ≤ s.eng.cur.nleft → (8 ≤ s.eng.cur.nleft → w = .w8) →
      (4 ≤ s.eng.cur.nleft → s.eng.cur.nleft < 8 → w = .w4) →
      s.plat.lacks (sn.s.toNat + s.eng.cur.pos) (16 * w.blocks) → exec .apply s = .fault .dataPortStuck)

/-! The machine after reset, and what every step keeps. -/

/-- R45: the values the spec gives the state after reset; and there is no other engine, no request and no listed byte (the
latter the model's: log entries 2, 3 and 5). -/
def Obligations.ResetStateIsAsListed : Prop :=
  let s := State.reset
  (∀ r : Reg, r ≠ .id → r ≠ .params → regValue s.plat s.eng r = 0) ∧
  s.eng.regs.key0 = 0 ∧ s.eng.regs.key1 = 0 ∧ s.eng.regs.key2 = 0 ∧ s.eng.regs.key3 = 0 ∧
  s.eng.phase = .idle ∧ s.eng.pend = none ∧ s.eng.sched = none ∧
  s.eng.backendSel = .portable ∧ s.others = [] ∧ s.mem = []

/-- The invariant holds after reset. -/
def Obligations.ResetMeetsInvariant : Prop := State.reset.Inv

/-- R30, R31, R32, R35, R37, R39, R41, R91: every step keeps the invariant of every engine and the canonical form of memory. -/
def Obligations.EveryStepKeepsInvariant : Prop :=
  ∀ s t : State, s.Inv → step s = .next t → t.Inv

/-- R44: every step keeps memory in its canonical form, from every state that has it (the form is the model's: log entry 3). -/
def Obligations.EveryStepKeepsMemoryCanonical : Prop :=
  ∀ s t : State, s.mem.wf → step s = .next t → t.mem.wf

/-! A whole APPLY. -/

/-- R141, R158, R285, R130: under the default schedule (log entry 1) an APPLY that passes its checks runs to its end in the
number of transitions R285 gives, with one more for each response (log entry 7); it then has ERR = 0, DONE = 1 and BUSY = 0,
destination byte `k` is source byte `k` XOR `KS(OFF + k)` wherever the counter's result is not left open, every byte outside the
destination range is unchanged, and CTR_WRAP is set exactly if it was set or the last block used overflows. The other registers,
CONFIG among them, and the rest of the state stay, but that the engine's latest window notes the range as written (log entry 11).
-/
def Obligations.ApplyTransformsItsRange : Prop :=
  ∀ (s : State) (k : Sched), s.mem.wf → applyReady k s →
    ∃ t, core.run (applySteps s.eng.snap) s = .next t ∧
      appliedTo s.plat k s.eng.snap s.mem t.mem ∧
      t.eng.phase = .idle ∧ t.eng.pend = none ∧
      t.eng.status = { s.eng.status with
        busy := false, done := true, err := 0
        ctrWrap := s.eng.status.ctrWrap ||
          decide (0 < s.eng.snap.nd.toNat ∧
            ctrOverflows s.eng.snap.ivH s.eng.snap.ivL
              ((s.eng.snap.off.toNat + s.eng.snap.nd.toNat - 1) / 16) = true) } ∧
      t.eng.regs = s.eng.regs ∧ t.eng.backendSel = s.eng.backendSel ∧ t.eng.results = s.eng.results ∧ t.eng.sched = s.eng.sched ∧
      t.others = s.others ∧ t.plat = s.plat ∧ t.held = s.held ∧
      t.windows = if s.eng.snap.nd.toNat = 0 then s.windows
        else markWritten s.eng.id (s.eng.snap.d.toNat + s.eng.snap.nd.toNat) s.windows

/-- R154, R180: the bytes an APPLY leaves do not depend on its backend, where no counter's result is left open (log entries 1
and 7). -/
def Obligations.ApplyDoesNotDependOnBackend : Prop :=
  ∀ (s : State) (k : Sched) (b : Backend), s.mem.wf → applyReady k s →
    (∀ i, i < s.eng.snap.nd.toNat →
      counterOpen s.plat s.eng.snap.ivH s.eng.snap.ivL ((s.eng.snap.off.toNat + i) / 16) = false) →
    let s' := s.withEng { s.eng with snap := { s.eng.snap with backend := b } }
    ∃ t t', core.run (applySteps s.eng.snap) s = .next t ∧ core.run (applySteps s'.eng.snap) s' = .next t' ∧
      ∀ a, t'.mem.read a = t.mem.read a

/-- R153, R19: an APPLY of `[a, a+m)` and then one of `[a+m, a+n)` leave the bytes of one APPLY of `[a, a+n)`, with the same
instance and IV, where no counter's result is left open. `u` is the first piece, `v` the second, which finds the memory the
first leaves, and `w` the whole (log entries 1 and 7). -/
def Obligations.ApplyIsPartitionInvariant : Prop :=
  ∀ (u w : State) (k : Sched) (m : Nat), u.mem.wf → applyReady k u → applyReady k w → w.mem = u.mem →
    let su := u.eng.snap
    let sw := w.eng.snap
    m ≤ sw.nd.toNat → su.nd.toNat = m → su.off = sw.off → su.s = sw.s → su.d = sw.d → su.ivH = sw.ivH → su.ivL = sw.ivL →
    u.plat = w.plat →
    (∀ i, i < sw.nd.toNat → counterOpen w.plat sw.ivH sw.ivL ((sw.off.toNat + i) / 16) = false) →
    ∃ u', core.run (applySteps su) u = .next u' ∧
      ∀ v : State, v.mem = u'.mem → applyReady k v → v.plat = w.plat →
        let sv := v.eng.snap
        sv.nd.toNat = sw.nd.toNat - m → sv.off.toNat = sw.off.toNat + m → sv.s.toNat = sw.s.toNat + m →
        sv.d.toNat = sw.d.toNat + m → sv.ivH = sw.ivH → sv.ivL = sw.ivL →
        ∃ v' w', core.run (applySteps sv) v = .next v' ∧ core.run (applySteps sw) w = .next w' ∧
          ∀ a, v'.mem.read a = w'.mem.read a

/-- R197: an APPLY in place over what the same APPLY left restores the bytes that stood there before both, where no counter's
result is left open. `u` is the first, `v` the second, with the same instance, IV, OFFSET and range (log entries 1 and 7). -/
def Obligations.ApplyTwiceRestores : Prop :=
  ∀ (u : State) (k : Sched), u.mem.wf → applyReady k u → u.eng.snap.d = u.eng.snap.s →
    (∀ i, i < u.eng.snap.nd.toNat →
      counterOpen u.plat u.eng.snap.ivH u.eng.snap.ivL ((u.eng.snap.off.toNat + i) / 16) = false) →
    ∃ u', core.run (applySteps u.eng.snap) u = .next u' ∧
      ∀ v : State, v.mem = u'.mem → applyReady k v → v.plat = u.plat → v.eng.snap = u.eng.snap →
        ∃ v', core.run (applySteps v.eng.snap) v = .next v' ∧ ∀ a, v'.mem.read a = u.mem.read a
end

