-- ==== Sys2Proof/Laws/Memory.lean ====
section
/-! SUPPORT. The laws of data memory: a read after a write, ranges of bytes, and that every operation keeps the canonical form. -/

namespace Sys2Proof.Machine

/-- An entry is listed only where its address is not below those before it. -/
theorem Memory.read_of_lt_all (m : Memory) (a : Nat) (h : ∀ c ∈ m, a < c.1) : m.read a = Config.launchByte := by
  induction m with
  | nil => rfl
  | cons c m ih =>
    have hc : a ≠ c.1 := Nat.ne_of_lt (h c (by simp))
    simp only [Memory.read, hc, if_false]
    exact ih fun d hd => h d (by simp [hd])

/-- Reading the byte just written gives it (canonical form needed: removing the entry must uncover no other). -/
theorem Memory.read_write_same (m : Memory) (hm : m.Pairwise (fun c d => c.1 < d.1)) (a : Nat) (v : Byte) :
    (m.write a v).read a = v := by
  induction m with
  | nil =>
    by_cases hv : v = Config.launchByte
    · simp [Memory.write, Memory.read, hv]
    · simp [Memory.write, Memory.read, hv]
  | cons c m ih =>
    obtain ⟨b, w⟩ := c
    have hm' := List.pairwise_cons.1 hm
    by_cases h1 : a < b
    · by_cases hv : v = Config.launchByte
      · have : Memory.read ((b, w) :: m) a = Config.launchByte :=
          Memory.read_of_lt_all _ _ fun d hd => by
            rcases List.mem_cons.1 hd with rfl | hd
            · exact h1
            · exact Nat.lt_trans h1 (hm'.1 d hd)
        simp [Memory.write, h1, hv, this]
      · simp [Memory.write, Memory.read, h1, hv]
    · by_cases h2 : a = b
      · subst h2
        by_cases hv : v = Config.launchByte
        · simp only [Memory.write, Nat.lt_irrefl, if_false, hv, if_true]
          exact Memory.read_of_lt_all _ _ hm'.1
        · simp [Memory.write, Memory.read, hv]
      · simp only [Memory.write, h1, h2, if_false, Memory.read]
        exact ih hm'.2

/-- A write leaves every other byte alone, whatever the list's form. -/
theorem Memory.read_write_ne (m : Memory) {a a' : Nat} (h : a' ≠ a) (v : Byte) : (m.write a v).read a' = m.read a' := by
  induction m with
  | nil => by_cases hv : v = Config.launchByte <;> simp [Memory.write, Memory.read, hv, h]
  | cons c m ih =>
    obtain ⟨b, w⟩ := c
    by_cases h1 : a < b
    · by_cases hv : v = Config.launchByte <;> simp [Memory.write, Memory.read, h1, hv, h]
    · by_cases h2 : a = b
      · subst h2
        by_cases hv : v = Config.launchByte <;> simp [Memory.write, Memory.read, hv, h]
      · simp only [Memory.write, h1, h2, if_false, Memory.read, ih]

/-- An address listed after a write was listed before it or is the one written. -/
theorem Memory.mem_write {m : Memory} {a : Nat} {v : Byte} {c : Host.Cell} (h : c ∈ m.write a v) :
    c ∈ m ∨ (c = (a, v) ∧ v ≠ Config.launchByte) := by
  induction m with
  | nil =>
    by_cases hv : v = Config.launchByte
    · simp [Memory.write, hv] at h
    · simp only [Memory.write, hv, if_false, List.mem_singleton] at h
      exact Or.inr ⟨h, hv⟩
  | cons d m ih =>
    obtain ⟨b, w⟩ := d
    by_cases h1 : a < b
    · by_cases hv : v = Config.launchByte
      · simp only [Memory.write, h1, hv, if_true] at h
        exact Or.inl h
      · simp only [Memory.write, h1, hv, if_true, if_false, List.mem_cons] at h
        rcases h with h | h
        · exact Or.inr ⟨h, hv⟩
        · exact Or.inl (by simpa using h)
    · by_cases h2 : a = b
      · subst h2
        by_cases hv : v = Config.launchByte
        · simp only [Memory.write, Nat.lt_irrefl, if_false, hv, if_true] at h
          exact Or.inl (List.mem_cons_of_mem _ h)
        · simp only [Memory.write, Nat.lt_irrefl, if_false, hv, if_true, List.mem_cons] at h
          rcases h with h | h
          · exact Or.inr ⟨h, hv⟩
          · exact Or.inl (List.mem_cons_of_mem _ h)
      · simp only [Memory.write, h1, h2, if_false, List.mem_cons] at h
        rcases h with h | h
        · exact Or.inl (by simp [h])
        · rcases ih h with h | h
          · exact Or.inl (List.mem_cons_of_mem _ h)
          · exact Or.inr h

/-- A write keeps the canonical form. -/
theorem Memory.write_wf (m : Memory) (hm : m.wf) (a : Nat) (v : Byte) : (m.write a v).wf := by
  refine ⟨?_, fun c hc => ?_⟩
  · induction m with
    | nil => by_cases hv : v = Config.launchByte <;> simp [Memory.write, hv]
    | cons d m ih =>
      obtain ⟨b, w⟩ := d
      have hp := List.pairwise_cons.1 hm.1
      have hwf : Memory.wf m := ⟨hp.2, fun c hc => hm.2 c (List.mem_cons_of_mem _ hc)⟩
      by_cases h1 : a < b
      · by_cases hv : v = Config.launchByte
        · simpa [Memory.write, h1, hv] using hm.1
        · simp only [Memory.write, h1, hv, if_true, if_false]
          refine List.pairwise_cons.2 ⟨fun c hc => ?_, hm.1⟩
          rcases List.mem_cons.1 hc with rfl | hc
          · exact h1
          · exact Nat.lt_trans h1 (hp.1 c hc)
      · by_cases h2 : a = b
        · subst h2
          by_cases hv : v = Config.launchByte
          · simpa [Memory.write, hv] using hp.2
          · simp only [Memory.write, Nat.lt_irrefl, if_false, hv, if_true]
            exact List.pairwise_cons.2 ⟨hp.1, hp.2⟩
        · simp only [Memory.write, h1, h2, if_false]
          refine List.pairwise_cons.2 ⟨fun c hc => ?_, ih hwf⟩
          rcases Memory.mem_write hc with hc | ⟨rfl, -⟩
          · exact hp.1 c hc
          · simp only; omega
  · rcases Memory.mem_write hc with hc | ⟨rfl, hv⟩
    · exact hm.2 c hc
    · exact hv

@[simp] theorem Memory.readN_length (m : Memory) (a n : Nat) : (m.readN a n).length = n := by
  induction n generalizing a with
  | zero => rfl
  | succ n ih => simp [Memory.readN, ih]

/-- Byte `i` of a range read is the byte at `a + i` (R12). -/
theorem Memory.readN_getElem? (m : Memory) (a n i : Nat) (h : i < n) : (m.readN a n)[i]? = some (m.read (a + i)) := by
  induction n generalizing a i with
  | zero => omega
  | succ n ih =>
    cases i with
    | zero => simp [Memory.readN]
    | succ i =>
      have := ih (a + 1) i (by omega)
      simp only [Memory.readN, List.getElem?_cons_succ, this]
      congr 2
      omega

/-- A range write keeps the canonical form. -/
theorem Memory.writeN_wf (m : Memory) (hm : m.wf) (a : Nat) (bs : List Byte) : (m.writeN a bs).wf := by
  induction bs generalizing m a with
  | nil => exact hm
  | cons b bs ih => exact ih _ (Memory.write_wf m hm a b) _

/-- A range write leaves the bytes outside the range alone, whatever the list's form. -/
theorem Memory.read_writeN_outside (m : Memory) (a : Nat) (bs : List Byte) (x : Nat) (h : x < a ∨ a + bs.length ≤ x) :
    (m.writeN a bs).read x = m.read x := by
  induction bs generalizing m a with
  | nil => rfl
  | cons b bs ih =>
    simp only [List.length_cons] at h
    simp only [Memory.writeN]
    rw [ih _ _ (by omega), Memory.read_write_ne _ (by omega)]

/-- A range write leaves byte `i` of the range at `bs[i]` (R12). -/
theorem Memory.read_writeN_inside (m : Memory) (hm : m.wf) (a : Nat) (bs : List Byte) (i : Nat) (h : i < bs.length) :
    (m.writeN a bs).read (a + i) = bs[i] := by
  induction bs generalizing m a i with
  | nil => simp at h
  | cons b bs ih =>
    simp only [Memory.writeN]
    cases i with
    | zero =>
      rw [Memory.read_writeN_outside _ _ _ _ (by omega)]
      simpa using Memory.read_write_same m hm.1 a b
    | succ i =>
      have := ih _ (Memory.write_wf m hm a b) (a + 1) i (by simpa using h)
      simpa [Nat.add_assoc, Nat.add_comm 1 i] using this

end Sys2Proof.Machine
end

