-- ==== Sys2Proof/Laws/State.lean ====
section
/-! SUPPORT. What each update of the state does to each field, so that no later proof unfolds one. -/

namespace Sys2Proof.Machine

variable (s : State)

@[simp] theorem State.withEng_eng (e : Engine) : (s.withEng e).eng = e := rfl
@[simp] theorem State.withEng_others (e : Engine) : (s.withEng e).others = s.others := rfl
@[simp] theorem State.withEng_mem (e : Engine) : (s.withEng e).mem = s.mem := rfl
@[simp] theorem State.withEng_held (e : Engine) : (s.withEng e).held = s.held := rfl
@[simp] theorem State.withEng_plat (e : Engine) : (s.withEng e).plat = s.plat := rfl
@[simp] theorem State.withEng_prog (e : Engine) : (s.withEng e).prog = s.prog := rfl
@[simp] theorem State.withEng_turns (e : Engine) : (s.withEng e).turns = s.turns := rfl
@[simp] theorem State.withEng_obs (e : Engine) : (s.withEng e).obs = s.obs := rfl
@[simp] theorem State.withEng_windows (e : Engine) : (s.withEng e).windows = s.windows := rfl
@[simp] theorem State.withEng_draws (e : Engine) : (s.withEng e).draws = s.draws := rfl

@[simp] theorem State.withMem_eng (m : Memory) : (s.withMem m).eng = s.eng := rfl
@[simp] theorem State.withMem_others (m : Memory) : (s.withMem m).others = s.others := rfl
@[simp] theorem State.withMem_mem (m : Memory) : (s.withMem m).mem = m := rfl
@[simp] theorem State.withMem_held (m : Memory) : (s.withMem m).held = s.held := rfl
@[simp] theorem State.withMem_plat (m : Memory) : (s.withMem m).plat = s.plat := rfl
@[simp] theorem State.withMem_prog (m : Memory) : (s.withMem m).prog = s.prog := rfl
@[simp] theorem State.withMem_turns (m : Memory) : (s.withMem m).turns = s.turns := rfl
@[simp] theorem State.withMem_obs (m : Memory) : (s.withMem m).obs = s.obs := rfl
@[simp] theorem State.withMem_windows (m : Memory) : (s.withMem m).windows = s.windows := rfl
@[simp] theorem State.withMem_draws (m : Memory) : (s.withMem m).draws = s.draws := rfl

@[simp] theorem State.withHeld_eng (h : List (Nat × Sched)) : (s.withHeld h).eng = s.eng := rfl
@[simp] theorem State.withHeld_others (h : List (Nat × Sched)) : (s.withHeld h).others = s.others := rfl
@[simp] theorem State.withHeld_mem (h : List (Nat × Sched)) : (s.withHeld h).mem = s.mem := rfl
@[simp] theorem State.withHeld_held (h : List (Nat × Sched)) : (s.withHeld h).held = h := rfl
@[simp] theorem State.withHeld_plat (h : List (Nat × Sched)) : (s.withHeld h).plat = s.plat := rfl
@[simp] theorem State.withHeld_prog (h : List (Nat × Sched)) : (s.withHeld h).prog = s.prog := rfl
@[simp] theorem State.withHeld_turns (h : List (Nat × Sched)) : (s.withHeld h).turns = s.turns := rfl
@[simp] theorem State.withHeld_obs (h : List (Nat × Sched)) : (s.withHeld h).obs = s.obs := rfl
@[simp] theorem State.withHeld_windows (h : List (Nat × Sched)) : (s.withHeld h).windows = s.windows := rfl
@[simp] theorem State.withHeld_draws (h : List (Nat × Sched)) : (s.withHeld h).draws = s.draws := rfl

@[simp] theorem State.withWindows_eng (w : List Window) : (s.withWindows w).eng = s.eng := rfl
@[simp] theorem State.withWindows_others (w : List Window) : (s.withWindows w).others = s.others := rfl
@[simp] theorem State.withWindows_mem (w : List Window) : (s.withWindows w).mem = s.mem := rfl
@[simp] theorem State.withWindows_held (w : List Window) : (s.withWindows w).held = s.held := rfl
@[simp] theorem State.withWindows_plat (w : List Window) : (s.withWindows w).plat = s.plat := rfl
@[simp] theorem State.withWindows_prog (w : List Window) : (s.withWindows w).prog = s.prog := rfl
@[simp] theorem State.withWindows_turns (w : List Window) : (s.withWindows w).turns = s.turns := rfl
@[simp] theorem State.withWindows_obs (w : List Window) : (s.withWindows w).obs = s.obs := rfl
@[simp] theorem State.withWindows_windows (w : List Window) : (s.withWindows w).windows = w := rfl
@[simp] theorem State.withWindows_draws (w : List Window) : (s.withWindows w).draws = s.draws := rfl

@[simp] theorem State.withDraws_eng (n : Nat) : (s.withDraws n).eng = s.eng := rfl
@[simp] theorem State.withDraws_others (n : Nat) : (s.withDraws n).others = s.others := rfl
@[simp] theorem State.withDraws_mem (n : Nat) : (s.withDraws n).mem = s.mem := rfl
@[simp] theorem State.withDraws_held (n : Nat) : (s.withDraws n).held = s.held := rfl
@[simp] theorem State.withDraws_plat (n : Nat) : (s.withDraws n).plat = s.plat := rfl
@[simp] theorem State.withDraws_prog (n : Nat) : (s.withDraws n).prog = s.prog := rfl
@[simp] theorem State.withDraws_turns (n : Nat) : (s.withDraws n).turns = s.turns := rfl
@[simp] theorem State.withDraws_obs (n : Nat) : (s.withDraws n).obs = s.obs := rfl
@[simp] theorem State.withDraws_windows (n : Nat) : (s.withDraws n).windows = s.windows := rfl
@[simp] theorem State.withDraws_draws (n : Nat) : (s.withDraws n).draws = n := rfl

@[simp] theorem State.withProg_eng (p : List HostOp) : (s.withProg p).eng = s.eng := rfl
@[simp] theorem State.withProg_others (p : List HostOp) : (s.withProg p).others = s.others := rfl
@[simp] theorem State.withProg_mem (p : List HostOp) : (s.withProg p).mem = s.mem := rfl
@[simp] theorem State.withProg_held (p : List HostOp) : (s.withProg p).held = s.held := rfl
@[simp] theorem State.withProg_plat (p : List HostOp) : (s.withProg p).plat = s.plat := rfl
@[simp] theorem State.withProg_prog (p : List HostOp) : (s.withProg p).prog = p := rfl
@[simp] theorem State.withProg_turns (p : List HostOp) : (s.withProg p).turns = s.turns := rfl
@[simp] theorem State.withProg_obs (p : List HostOp) : (s.withProg p).obs = s.obs := rfl
@[simp] theorem State.withProg_windows (p : List HostOp) : (s.withProg p).windows = s.windows := rfl
@[simp] theorem State.withProg_draws (p : List HostOp) : (s.withProg p).draws = s.draws := rfl

@[simp] theorem State.withTurns_eng (t : List Agent) : (s.withTurns t).eng = s.eng := rfl
@[simp] theorem State.withTurns_others (t : List Agent) : (s.withTurns t).others = s.others := rfl
@[simp] theorem State.withTurns_mem (t : List Agent) : (s.withTurns t).mem = s.mem := rfl
@[simp] theorem State.withTurns_held (t : List Agent) : (s.withTurns t).held = s.held := rfl
@[simp] theorem State.withTurns_plat (t : List Agent) : (s.withTurns t).plat = s.plat := rfl
@[simp] theorem State.withTurns_prog (t : List Agent) : (s.withTurns t).prog = s.prog := rfl
@[simp] theorem State.withTurns_turns (t : List Agent) : (s.withTurns t).turns = t := rfl
@[simp] theorem State.withTurns_obs (t : List Agent) : (s.withTurns t).obs = s.obs := rfl
@[simp] theorem State.withTurns_windows (t : List Agent) : (s.withTurns t).windows = s.windows := rfl
@[simp] theorem State.withTurns_draws (t : List Agent) : (s.withTurns t).draws = s.draws := rfl

@[simp] theorem State.observed_eng (o : Obs) : (s.observed o).eng = s.eng := rfl
@[simp] theorem State.observed_others (o : Obs) : (s.observed o).others = s.others := rfl
@[simp] theorem State.observed_mem (o : Obs) : (s.observed o).mem = s.mem := rfl
@[simp] theorem State.observed_held (o : Obs) : (s.observed o).held = s.held := rfl
@[simp] theorem State.observed_plat (o : Obs) : (s.observed o).plat = s.plat := rfl
@[simp] theorem State.observed_prog (o : Obs) : (s.observed o).prog = s.prog := rfl
@[simp] theorem State.observed_turns (o : Obs) : (s.observed o).turns = s.turns := rfl
@[simp] theorem State.observed_obs (o : Obs) : (s.observed o).obs = o :: s.obs := rfl
@[simp] theorem State.observed_windows (o : Obs) : (s.observed o).windows = s.windows := rfl
@[simp] theorem State.observed_draws (o : Obs) : (s.observed o).draws = s.draws := rfl

end Sys2Proof.Machine
end

