-- ==== Sys2Proof/Laws/Ops.lean ====
section
/-! SUPPORT. One lemma for each shared operation that says what it can do; later proofs cite these and unfold nothing. -/

namespace Sys2Proof.Machine

/-! Free values. -/

/-- Drawing values changes data memory and the index of the next draw, and nothing else. -/
theorem drawAt_frame (as : List Nat) (s : State) :
    drawAt as s = (s.withMem (drawAt as s).mem).withDraws (s.draws + as.length) := by
  induction as generalizing s with
  | nil => rfl
  | cons a as ih =>
    rw [drawAt, ih]
    simp only [State.withMem, State.withDraws, List.length_cons]
    congr 1
    omega

@[simp] theorem drawAt_eng (as : List Nat) (s : State) : (drawAt as s).eng = s.eng := by rw [drawAt_frame]; rfl
@[simp] theorem drawAt_others (as : List Nat) (s : State) : (drawAt as s).others = s.others := by rw [drawAt_frame]; rfl
@[simp] theorem drawAt_held (as : List Nat) (s : State) : (drawAt as s).held = s.held := by rw [drawAt_frame]; rfl
@[simp] theorem drawAt_plat (as : List Nat) (s : State) : (drawAt as s).plat = s.plat := by rw [drawAt_frame]; rfl
@[simp] theorem drawAt_prog (as : List Nat) (s : State) : (drawAt as s).prog = s.prog := by rw [drawAt_frame]; rfl
@[simp] theorem drawAt_turns (as : List Nat) (s : State) : (drawAt as s).turns = s.turns := by rw [drawAt_frame]; rfl
@[simp] theorem drawAt_obs (as : List Nat) (s : State) : (drawAt as s).obs = s.obs := by rw [drawAt_frame]; rfl
@[simp] theorem drawAt_windows (as : List Nat) (s : State) : (drawAt as s).windows = s.windows := by rw [drawAt_frame]; rfl

/-- Drawing values leaves every byte not drawn alone. -/
theorem drawAt_read_ne (as : List Nat) (s : State) (x : Nat) (h : x ∉ as) : (drawAt as s).mem.read x = s.mem.read x := by
  induction as generalizing s with
  | nil => rfl
  | cons a as ih =>
    simp only [List.mem_cons, not_or] at h
    rw [drawAt, ih _ h.2]
    simp [Memory.read_write_ne _ h.1]

/-- Drawing values keeps memory canonical. -/
theorem drawAt_wf (as : List Nat) (s : State) (h : s.mem.wf) : (drawAt as s).mem.wf := by
  induction as generalizing s with
  | nil => exact h
  | cons a as ih => exact ih _ (Memory.write_wf _ h _ _)

/-! Races. -/

/-- A byte that is drawn holds a draw's value afterwards. -/
theorem drawAt_read_mem (as : List Nat) (s : State) (h : s.mem.wf) (x : Nat) (hx : x ∈ as) :
    ∃ q, (drawAt as s).mem.read x = Config.freeByte q := by
  induction as generalizing s with
  | nil => simp at hx
  | cons a as ih =>
    by_cases hm : x ∈ as
    · exact ih _ (Memory.write_wf _ h _ _) hm
    · obtain rfl : x = a := by simpa [hm] using hx
      refine ⟨s.draws, ?_⟩
      rw [drawAt, drawAt_read_ne _ _ _ hm]
      exact Memory.read_write_same _ h.1 _ _

/-- What a race records in a window: its own bytes and those carried from earlier windows of its engine. -/
theorem spread_getElem? (direct : Window → List Nat) (ws : List Window) (i : Nat) (w : Window) (h : ws[i]? = some w) :
    (spread direct ws).1[i]? =
      some (w.addRaced (direct w ++ w.carried (spread direct (ws.drop (i + 1))).2)) := by
  induction ws generalizing i with
  | nil => simp at h
  | cons v ws ih =>
    cases i with
    | zero =>
      obtain rfl : v = w := by simpa using h
      simp [spread]
    | succ i => simpa [spread] using ih i (by simpa using h)

@[simp] theorem spread_length (direct : Window → List Nat) (ws : List Window) : (spread direct ws).1.length = ws.length := by
  induction ws with
  | nil => rfl
  | cons w ws ih => simp [spread, ih]

/-- No place is at or after another and before it. -/
@[simp] theorem not_rewritten_empty (ws : List Window) (e x i : Nat) : ¬ rewritten ws e x i i := by
  rintro ⟨m, u, h1, h2, -⟩
  omega

/-- Whether a byte is rewritten, one window at a time. -/
theorem rewritten_cons (v : Window) (ws : List Window) (e x n : Nat) :
    rewritten (v :: ws) e x 0 (n + 1) ↔ (v.engine = e ∧ v.hasWritten x = true) ∨ rewritten ws e x 0 n := by
  constructor
  · rintro ⟨m, u, -, hm, hu, he, hx⟩
    cases m with
    | zero =>
      obtain rfl : v = u := by simpa using hu
      exact .inl ⟨he, hx⟩
    | succ m => exact .inr ⟨m, u, by omega, by omega, by simpa using hu, he, hx⟩
  · rintro (⟨he, hx⟩ | ⟨m, u, -, hm, hu, he, hx⟩)
    · exact ⟨0, v, by omega, by omega, rfl, he, hx⟩
    · exact ⟨m + 1, u, by omega, by omega, by simpa using hu, he, hx⟩

/-- Places counted from a later window on. -/
theorem rewritten_drop (ws : List Window) (e x k n : Nat) :
    rewritten (ws.drop k) e x 0 n ↔ rewritten ws e x k (k + n) := by
  constructor
  · rintro ⟨m, u, -, hm, hu, he, hx⟩
    exact ⟨k + m, u, by omega, by omega, by simpa using hu, he, hx⟩
  · rintro ⟨m, u, hk, hm, hu, he, hx⟩
    refine ⟨m - k, u, by omega, by omega, ?_, he, hx⟩
    rw [List.getElem?_drop, show k + (m - k) = m by omega]
    exact hu

/-- The bytes a race leaves at any value are those it records, each under the engine of its window, that no later command of that
engine has written. -/
theorem mem_spread (direct : Window → List Nat) (ws : List Window) (e x : Nat) :
    (e, x) ∈ (spread direct ws).2 ↔
      ∃ (i : Nat) (w : Window), ws[i]? = some w ∧ w.engine = e ∧
        x ∈ direct w ++ w.carried (spread direct (ws.drop (i + 1))).2 ∧ ¬ rewritten ws e x 0 i := by
  induction ws with
  | nil => simp [spread]
  | cons v ws ih =>
    simp only [spread, List.mem_append, List.mem_map, Prod.mk.injEq, List.mem_filter] at ih ⊢
    constructor
    · rintro (⟨a, ha, rfl, rfl⟩ | ⟨h, hv⟩)
      · exact ⟨0, v, rfl, rfl, by simpa using ha, by simp⟩
      · obtain ⟨i, w, hw, he, hx, hn⟩ := ih.1 h
        refine ⟨i + 1, w, by simpa using hw, he, by simpa using hx, ?_⟩
        rw [rewritten_cons]
        rintro (⟨h1, h2⟩ | h)
        · simp [h1, h2] at hv
        · exact hn h
    · rintro ⟨i, w, hw, rfl, hx, hn⟩
      cases i with
      | zero =>
        obtain rfl : v = w := by simpa using hw
        exact .inl ⟨x, by simpa using hx, rfl, rfl⟩
      | succ i =>
        rw [rewritten_cons, not_or] at hn
        refine .inr ⟨ih.2 ⟨i, w, by simpa using hw, rfl, by simpa using hx, hn.2⟩, ?_⟩
        by_cases h1 : w.engine = v.engine
        · simpa [h1] using fun h2 => hn.1 ⟨h1.symm, h2⟩
        · simp [h1]

/-- A byte carried into a window comes from a byte of an earlier command of its engine that the window reads. -/
theorem Window.mem_carried (w : Window) (hits : List (Nat × Nat)) (y : Nat) :
    y ∈ w.carried hits ↔ ∃ x, (w.engine, x) ∈ hits ∧ w.inSrc x = true ∧ y = w.dst + (x - w.src) := by
  simp only [Window.carried, List.mem_filterMap, Prod.exists]
  constructor
  · rintro ⟨e, x, hx, hy⟩
    split at hy
    · next h =>
      simp only [Bool.and_eq_true, decide_eq_true_eq] at h
      obtain ⟨rfl, hs⟩ := h
      exact ⟨x, hx, hs, by simpa using hy.symm⟩
    · simp at hy
  · rintro ⟨x, hx, hs, rfl⟩
    exact ⟨w.engine, x, hx, by simp [hs]⟩

@[simp] theorem raceHits_eng (d : Window → List Nat) (s : State) : (raceHits d s).eng = s.eng := by simp [raceHits]
@[simp] theorem raceHits_others (d : Window → List Nat) (s : State) : (raceHits d s).others = s.others := by simp [raceHits]
@[simp] theorem raceHits_held (d : Window → List Nat) (s : State) : (raceHits d s).held = s.held := by simp [raceHits]
@[simp] theorem raceHits_plat (d : Window → List Nat) (s : State) : (raceHits d s).plat = s.plat := by simp [raceHits]
@[simp] theorem raceHits_prog (d : Window → List Nat) (s : State) : (raceHits d s).prog = s.prog := by simp [raceHits]
@[simp] theorem raceHits_turns (d : Window → List Nat) (s : State) : (raceHits d s).turns = s.turns := by simp [raceHits]
@[simp] theorem raceHits_obs (d : Window → List Nat) (s : State) : (raceHits d s).obs = s.obs := by simp [raceHits]
@[simp] theorem raceHits_windows (d : Window → List Nat) (s : State) :
    (raceHits d s).windows = (spread d s.windows).1 := by simp [raceHits]

/-- A race leaves the bytes it does not hit alone. -/
theorem raceHits_read_ne (d : Window → List Nat) (s : State) (x : Nat) (h : x ∉ (spread d s.windows).2.map Prod.snd) :
    (raceHits d s).mem.read x = s.mem.read x := by
  simpa [raceHits] using drawAt_read_ne _ (s.withWindows (spread d s.windows).1) x h

/-- A race leaves any value in the bytes it hits. -/
theorem raceHits_read_mem (d : Window → List Nat) (s : State) (hm : s.mem.wf) (x : Nat)
    (h : x ∈ (spread d s.windows).2.map Prod.snd) : ∃ q, (raceHits d s).mem.read x = Config.freeByte q :=
  drawAt_read_mem _ (s.withWindows (spread d s.windows).1) hm x h

theorem raceHits_wf (d : Window → List Nat) (s : State) (h : s.mem.wf) : (raceHits d s).mem.wf := drawAt_wf _ _ h

/-- A race that starts from no byte of any window changes nothing. -/
theorem raceHits_nothing (d : Window → List Nat) (s : State) (h : ∀ w ∈ s.windows, d w = []) : raceHits d s = s := by
  have key : ∀ ws : List Window, (∀ w ∈ ws, d w = []) → spread d ws = (ws, []) := by
    intro ws
    induction ws with
    | nil => intro _; rfl
    | cons w ws ih =>
      intro hw
      rw [spread, ih (fun v hv => hw v (List.mem_cons_of_mem _ hv))]
      simp [hw w List.mem_cons_self, Window.carried, Window.addRaced]
  rw [raceHits, key _ h]
  rfl

/-! Byte events. -/

/-- What holds of byte events in progress: a byte fetched is the byte `get` finds at the start, and a destination byte holds what
its write event leaves, or what it held at the start. -/
structure Moving.Sound (get : Memory → Nat → Byte) (dst n : Nat) (out : Nat → Byte → Byte) (m : Memory) (x : Moving) : Prop where
  wf : x.mem.wf
  got : ∀ k b, x.got.lookup k = some b → b = get m k
  putGot : ∀ k, k ∈ x.put → (x.got.lookup k).isSome = true
  written : ∀ k, k < n → k ∈ x.put → x.mem.read (dst + k) = out k (get m k)
  unwritten : ∀ k, k < n → k ∉ x.put → x.mem.read (dst + k) = m.read (dst + k)
  outside : ∀ a, a < dst ∨ dst + n ≤ a → x.mem.read a = m.read a

/-- What `get` finds for an index depends on no destination byte of another index. -/
abbrev getsOwn (get : Memory → Nat → Byte) (dst n : Nat) (m : Memory) : Prop :=
  ∀ (m' : Memory) (k : Nat), k < n → m'.read (dst + k) = m.read (dst + k) →
    (∀ a, a < dst ∨ dst + n ≤ a → m'.read a = m.read a) → get m' k = get m k

theorem byteEvent_sound {get : Memory → Nat → Byte} {dst n : Nat} {out : Nat → Byte → Byte} {m : Memory} {x : Moving}
    (hg : getsOwn get dst n m) (h : x.Sound get dst n out m) {k : Nat} (hk : k < n) :
    (byteEvent get dst out x k).Sound get dst n out m := by
  unfold byteEvent
  split
  · next hn =>
    have hp : k ∉ x.put := fun hp => by simpa [hn] using h.putGot k hp
    refine ⟨h.wf, ?_, ?_, h.written, h.unwritten, h.outside⟩
    · intro j b hb
      rw [List.lookup_cons] at hb
      split at hb
      · next hj =>
        obtain rfl : j = k := by simpa using hj
        simpa [hg x.mem j hk (h.unwritten j hk hp) h.outside] using hb.symm
      · exact h.got j b hb
    · intro j hj
      rw [List.lookup_cons]
      split
      · rfl
      · exact h.putGot j hj
  · next b hb =>
    split
    · exact h
    · next hp =>
      have hp : k ∉ x.put := by simpa using hp
      refine ⟨Memory.write_wf _ h.wf _ _, h.got, ?_, ?_, ?_, ?_⟩
      · intro j hj
        rcases List.mem_cons.1 hj with rfl | hj
        · simp [hb]
        · exact h.putGot j hj
      · intro j hjn hj
        by_cases hjk : j = k
        · subst hjk
          rw [Memory.read_write_same _ h.wf.1, h.got j b hb]
        · rw [Memory.read_write_ne _ (by omega)]
          exact h.written j hjn ((List.mem_cons.1 hj).resolve_left hjk)
      · intro j hjn hj
        rw [List.mem_cons, not_or] at hj
        rw [Memory.read_write_ne _ (by omega)]
        exact h.unwritten j hjn hj.2
      · intro a ha
        rw [Memory.read_write_ne _ (by omega)]
        exact h.outside a ha

theorem byteEvent_got {get : Memory → Nat → Byte} {dst : Nat} {out : Nat → Byte → Byte} (x : Moving) (k j : Nat)
    (h : (x.got.lookup j).isSome = true ∨ j = k) : ((byteEvent get dst out x k).got.lookup j).isSome = true := by
  unfold byteEvent
  split
  · next hn =>
    rw [List.lookup_cons]
    split
    · rfl
    · next hj => exact h.resolve_right (by simpa using hj)
  · next b hb =>
    have : (x.got.lookup j).isSome = true := by
      rcases h with h | rfl
      · exact h
      · simp [hb]
    split <;> exact this

theorem byteEvent_put {get : Memory → Nat → Byte} {dst : Nat} {out : Nat → Byte → Byte} (x : Moving) (k j : Nat)
    (h : j ∈ x.put ∨ (j = k ∧ (x.got.lookup j).isSome = true)) : j ∈ (byteEvent get dst out x k).put := by
  unfold byteEvent
  split
  · next hn =>
    rcases h with h | ⟨rfl, h⟩
    · exact h
    · simp [hn] at h
  · split
    · next hp =>
      rcases h with h | ⟨rfl, -⟩
      · exact h
      · simpa using hp
    · rcases h with h | ⟨rfl, -⟩
      · exact List.mem_cons_of_mem _ h
      · exact List.mem_cons_self

theorem events_fold_got {get : Memory → Nat → Byte} {dst : Nat} {out : Nat → Byte → Byte} (l : List Nat) (x : Moving) (j : Nat)
    (h : (x.got.lookup j).isSome = true ∨ j ∈ l) : ((l.foldl (byteEvent get dst out) x).got.lookup j).isSome = true := by
  induction l generalizing x with
  | nil => simpa using h
  | cons k l ih =>
    refine ih _ ?_
    rcases h with h | h
    · exact .inl (byteEvent_got x k j (.inl h))
    · rcases List.mem_cons.1 h with rfl | h
      · exact .inl (byteEvent_got x j j (.inr rfl))
      · exact .inr h

theorem events_fold_put {get : Memory → Nat → Byte} {dst : Nat} {out : Nat → Byte → Byte} (l : List Nat) (x : Moving) (j : Nat)
    (h : j ∈ x.put ∨ ((x.got.lookup j).isSome = true ∧ j ∈ l)) : j ∈ (l.foldl (byteEvent get dst out) x).put := by
  induction l generalizing x with
  | nil => simpa using h
  | cons k l ih =>
    refine ih _ ?_
    rcases h with h | ⟨hg, h⟩
    · exact .inl (byteEvent_put x k j (.inl h))
    · rcases List.mem_cons.1 h with rfl | h
      · exact .inl (byteEvent_put x j j (.inr ⟨rfl, hg⟩))
      · exact .inr ⟨byteEvent_got x k j (.inl hg), h⟩

theorem visits_lt {draw n k : Nat} (h : k ∈ visits draw n) : k < n := by
  simp only [visits, List.mem_append, List.mem_filter, List.mem_range, decide_eq_true_eq] at h
  tauto

/-- Every write of byte events lies in the destination: the bytes outside stay, whatever `get` finds. -/
theorem moveBytes_outside (get : Memory → Nat → Byte) (dst n draw : Nat) (out : Nat → Byte → Byte) (m : Memory) (a : Nat)
    (h : a < dst ∨ dst + n ≤ a) : (moveBytes get dst n draw out m).read a = m.read a := by
  have key : ∀ (l : List Nat) (x : Moving), (∀ k ∈ l, k < n) → (l.foldl (byteEvent get dst out) x).mem.read a = x.mem.read a := by
    intro l
    induction l with
    | nil => intro x _; rfl
    | cons k l ih =>
      intro x hl
      rw [List.foldl_cons, ih _ (fun j hj => hl j (List.mem_cons_of_mem _ hj))]
      unfold byteEvent
      have := hl k List.mem_cons_self
      split
      · rfl
      · split
        · rfl
        · exact Memory.read_write_ne _ (by omega) _
  exact key _ _ (fun k hk => visits_lt hk)

/-- Byte events keep memory canonical, whatever `get` finds. -/
theorem moveBytes_wf (get : Memory → Nat → Byte) (dst n draw : Nat) (out : Nat → Byte → Byte) (m : Memory) (h : m.wf) :
    (moveBytes get dst n draw out m).wf := by
  have key : ∀ (l : List Nat) (x : Moving), x.mem.wf → (l.foldl (byteEvent get dst out) x).mem.wf := by
    intro l
    induction l with
    | nil => intro x hx; exact hx
    | cons k l ih =>
      intro x hx
      refine ih _ ?_
      unfold byteEvent
      split
      · exact hx
      · split
        · exact hx
        · exact Memory.write_wf _ hx _ _
  exact key _ _ h

/-- In whatever order the byte events happen, each destination byte holds what its write event leaves of the byte `get` found at the
start (R67, R68). -/
theorem moveBytes_inside (get : Memory → Nat → Byte) (dst n draw : Nat) (out : Nat → Byte → Byte) (m : Memory) (hm : m.wf)
    (hg : getsOwn get dst n m) (k : Nat) (hk : k < n) :
    (moveBytes get dst n draw out m).read (dst + k) = out k (get m k) := by
  have key : ∀ (l : List Nat) (x : Moving), (∀ j ∈ l, j < n) → x.Sound get dst n out m →
      (l.foldl (byteEvent get dst out) x).Sound get dst n out m := by
    intro l
    induction l with
    | nil => intro x _ hx; exact hx
    | cons j l ih =>
      intro x hl hx
      exact ih _ (fun i hi => hl i (List.mem_cons_of_mem _ hi)) (byteEvent_sound hg hx (hl j List.mem_cons_self))
  have start : Moving.Sound get dst n out m { mem := m, got := [], put := [] } :=
    ⟨hm, by simp, by simp, by simp, by simp, by simp⟩
  refine (key _ _ (fun j hj => visits_lt hj) start).written k hk ?_
  rw [visits, List.foldl_append, List.foldl_append]
  exact events_fold_put _ _ _ (.inr ⟨events_fold_got _ _ _ (.inr (List.mem_range.2 hk)), List.mem_range.2 hk⟩)

/-! What a command has written. -/

/-- Noting a later end of what the running command has written replaces an earlier note. -/
@[simp] theorem markWritten_markWritten (id a b : Nat) (ws : List Window) :
    markWritten id a (markWritten id b ws) = markWritten id a ws := by
  induction ws with
  | nil => rfl
  | cons w ws ih => by_cases h : w.engine = id <;> simp [markWritten, h, ih]

/-- The note changes no window but the latest of the engine, and in it nothing but how far its command has written. -/
theorem markWritten_getElem? (id a : Nat) (ws : List Window) (i : Nat) (w : Window) (h : ws[i]? = some w) :
    (markWritten id a ws)[i]? = some w ∨
      w.engine = id ∧ (markWritten id a ws)[i]? = some { w with wrote := a - w.dst } := by
  induction ws generalizing i with
  | nil => simp at h
  | cons v ws ih =>
    by_cases hv : v.engine = id <;> cases i with
    | zero =>
      obtain rfl : v = w := by simpa using h
      simp [markWritten, hv]
    | succ i =>
      first
      | exact .inl (by simpa [markWritten, hv] using h)
      | simpa [markWritten, hv] using ih i (by simpa using h)

/-- The note leaves the bytes that a race has hit in the running command. -/
@[simp] theorem racedNow_events (get : Memory → Nat → Byte) (out : Nat → Byte → Byte) (dst n : Nat) (s : State) :
    racedNow (events get out dst n s) = racedNow s := by
  have key : ∀ ws : List Window,
      (match (markWritten s.eng.id (dst + n) ws).find? (fun w => w.engine == s.eng.id) with
        | some w => w.raced
        | none => []) =
      (match ws.find? (fun w => w.engine == s.eng.id) with
        | some w => w.raced
        | none => []) := by
    intro ws
    induction ws with
    | nil => rfl
    | cons w ws ih => by_cases h : w.engine = s.eng.id <;> simp [markWritten, h, ih]
  exact key s.windows

variable (get : Memory → Nat → Byte) (out : Nat → Byte → Byte) (dst n : Nat) (s : State)

@[simp] theorem events_eng : (events get out dst n s).eng = s.eng := rfl
@[simp] theorem events_others : (events get out dst n s).others = s.others := rfl
@[simp] theorem events_held : (events get out dst n s).held = s.held := rfl
@[simp] theorem events_plat : (events get out dst n s).plat = s.plat := rfl
@[simp] theorem events_prog : (events get out dst n s).prog = s.prog := rfl
@[simp] theorem events_turns : (events get out dst n s).turns = s.turns := rfl
@[simp] theorem events_obs : (events get out dst n s).obs = s.obs := rfl
@[simp] theorem events_windows : (events get out dst n s).windows = markWritten s.eng.id (dst + n) s.windows := rfl
@[simp] theorem events_draws : (events get out dst n s).draws = s.draws + n := rfl

theorem events_wf (h : s.mem.wf) : (events get out dst n s).mem.wf := moveBytes_wf _ _ _ _ _ _ h

/-- The byte events of a segment leave the bytes outside its destination alone. -/
theorem events_read_outside (a : Nat) (h : a < dst ∨ dst + n ≤ a) : (events get out dst n s).mem.read a = s.mem.read a :=
  moveBytes_outside _ _ _ _ _ _ a h

/-- The byte events of a segment leave in each destination byte that no race hit the byte written there. -/
theorem events_read_inside (hm : s.mem.wf) (hg : getsOwn get dst n s.mem) (k : Nat) (hk : k < n) (hr : dst + k ∉ racedNow s) :
    (events get out dst n s).mem.read (dst + k) = out k (get s.mem k) :=
  (moveBytes_inside _ _ _ _ _ _ hm hg k hk).trans (by simp [landed, hr])

/-- The byte events of a segment leave any value in each destination byte that a race hit (R79). -/
theorem events_read_raced (hm : s.mem.wf) (hg : getsOwn get dst n s.mem) (k : Nat) (hk : k < n) (hr : dst + k ∈ racedNow s) :
    (events get out dst n s).mem.read (dst + k) = Config.freeByte (s.draws + k) :=
  (moveBytes_inside _ _ _ _ _ _ hm hg k hk).trans (by simp [landed, hr])

@[simp] theorem store_eng (bs : List Byte) : (store dst bs s).eng = s.eng := rfl
@[simp] theorem store_others (bs : List Byte) : (store dst bs s).others = s.others := rfl
@[simp] theorem store_held (bs : List Byte) : (store dst bs s).held = s.held := rfl
@[simp] theorem store_plat (bs : List Byte) : (store dst bs s).plat = s.plat := rfl
@[simp] theorem store_prog (bs : List Byte) : (store dst bs s).prog = s.prog := rfl
@[simp] theorem store_turns (bs : List Byte) : (store dst bs s).turns = s.turns := rfl
@[simp] theorem store_obs (bs : List Byte) : (store dst bs s).obs = s.obs := rfl
@[simp] theorem store_windows (bs : List Byte) : (store dst bs s).windows = markWritten s.eng.id (dst + bs.length) s.windows := rfl
@[simp] theorem store_draws (bs : List Byte) : (store dst bs s).draws = s.draws + bs.length := rfl

/-- A store leaves the bytes outside it alone. -/
theorem store_read_outside (bs : List Byte) (a : Nat) (h : a < dst ∨ dst + bs.length ≤ a) :
    (store dst bs s).mem.read a = s.mem.read a := events_read_outside _ _ _ _ _ a h

/-- A store leaves the bytes given where no race hit. -/
theorem store_read_inside (bs : List Byte) (hm : s.mem.wf) (k : Nat) (hk : k < bs.length) (hr : dst + k ∉ racedNow s) :
    (store dst bs s).mem.read (dst + k) = bs.getD k 0 :=
  events_read_inside _ _ _ _ _ hm (fun _ _ _ _ _ => rfl) k hk hr

/-- A store leaves any value where a race hit (R79). -/
theorem store_read_raced (bs : List Byte) (hm : s.mem.wf) (k : Nat) (hk : k < bs.length) (hr : dst + k ∈ racedNow s) :
    (store dst bs s).mem.read (dst + k) = Config.freeByte (s.draws + k) :=
  events_read_raced _ _ _ _ _ hm (fun _ _ _ _ _ => rfl) k hk hr

theorem store_wf (bs : List Byte) (h : s.mem.wf) : (store dst bs s).mem.wf := events_wf _ _ _ _ _ h

/-- A byte of the source that is not a destination byte of another index: the ranges coincide or share no byte (R213). -/
theorem getsOwn_source (src : Nat) (m : Memory) (h : dst = src ∨ overlap dst src n = false) :
    getsOwn (fun m k => m.read (src + k)) dst n m := by
  intro m' k hk hd ho
  rcases h with rfl | h
  · exact hd
  · refine ho _ ?_
    simp only [overlap, Bool.and_eq_false_iff, decide_eq_false_iff_not] at h
    omega

@[simp] theorem xornCount_self (n m : Nat) (h : n ≤ m) : xornCount n n m = n := by simp [xornCount, h]

/-! The data port. -/

/-- Going on through the port to a next state means that the port did not stop it. -/
theorem withPort_next {p : Plat} {a n : Nat} {r : Result} {t : State} :
    withPort p a n r = .next t ↔ portStop p a n = none ∧ r = .next t := by
  unfold withPort portStop
  split
  · next h =>
    constructor
    · intro hr
      subst hr
      split at h
      · cases h
      · split at h
        · cases h
        · split at h
          · cases h
          · split at h <;> cases h
    · rintro ⟨h', -⟩
      rw [h'] at h
      cases h
  · next h => simp [h]

/-- Going on with a schedule to a next state means that the collaborator holds it for this engine. -/
theorem withSchedule_next {k : Sched} {s : State} {r : Result} {t : State} :
    withSchedule k s r = .next t ↔ (s.eng.id, k) ∈ s.held ∧ r = .next t := by
  unfold withSchedule
  split <;> simp_all

/-- If a range can be accessed, so can every part of it. -/
theorem portStop_part {p : Plat} {a n b m : Nat} (h : portStop p a n = none) (hb : a ≤ b) (hm : b + m ≤ a + n) :
    portStop p b m = none := by
  unfold portStop at *
  by_cases hm0 : m = 0
  · simp [hm0]
  · have hn0 : n ≠ 0 := by omega
    simp only [hn0, hm0, if_false] at *
    by_cases hw : 2 ^ p.addrW < a + n
    · simp [hw] at h
    · simp only [hw, if_false] at h
      rw [if_neg (by omega)]
      cases hf : p.regions.find? (Region.touches a n) with
      | some r =>
        rw [hf] at h
        cases hk : r.kind <;> simp [hk] at h
      | none =>
        have : p.regions.find? (Region.touches b m) = none := by
          rw [List.find?_eq_none] at *
          intro r hr
          have := hf r hr
          simp only [Region.touches, Bool.and_eq_true, decide_eq_true_eq, not_and] at *
          omega
        rw [this]

/-- `xorn` writes as many bytes as the shortest of its three buffers has (R190). -/
@[simp] theorem xorn_length (n : Nat) (a b : List Byte) : (xorn n a b).length = xornCount n a.length b.length := by
  simp [xorn, xornCount]

/-- A transfer to a next state: the port lets both ranges through, and the state goes on from the store. -/
theorem transfer_next {src dst n : Nat} {ks : List Byte} {s t : State} {go : State → Result} :
    transfer src dst n ks s go = .next t ↔
      portStop s.plat src n = none ∧ portStop s.plat dst n = none ∧
        go (events (fun m k => m.read (src + k)) (fun k b => xornByte b (ks.getD k 0)) dst (xornCount n n ks.length) s)
          = .next t := by
  simp [transfer, withPort_next]

/-- A transfer whose ranges the port lets through, with as much keystream as bytes, goes on from its byte events. -/
theorem transfer_ready {src dst n : Nat} {ks : List Byte} {s : State} {go : State → Result} (hn : n ≤ ks.length)
    (hs : portStop s.plat src n = none) (hd : portStop s.plat dst n = none) :
    transfer src dst n ks s go =
      go (events (fun m k => m.read (src + k)) (fun k b => xornByte b (ks.getD k 0)) dst n s) := by
  simp [transfer, withPort, hs, hd, hn]

/-- A byte of a transfer that no race hit is its source byte XOR its keystream byte. -/
theorem transfer_read {src dst n : Nat} (ks : List Byte) (s : State) (hm : s.mem.wf)
    (ho : dst = src ∨ overlap dst src n = false) (i : Nat) (hi : i < n) (hr : dst + i ∉ racedNow s) :
    (events (fun m k => m.read (src + k)) (fun k b => xornByte b (ks.getD k 0)) dst n s).mem.read (dst + i) =
      s.mem.read (src + i) ^^^ ks.getD i 0 :=
  events_read_inside _ _ _ _ _ hm (getsOwn_source _ _ _ _ ho) i hi hr

/-! Acceptance, completion, the cipher port, reset. -/

@[simp] theorem complete_eng (c : BitVec 4) (s : State) : (complete c s).eng =
    { s.eng with status := { s.eng.status with err := c, busy := false, done := true }, phase := .idle } := rfl
@[simp] theorem complete_mem (c : BitVec 4) (s : State) : (complete c s).mem = s.mem := rfl
@[simp] theorem complete_others (c : BitVec 4) (s : State) : (complete c s).others = s.others := rfl
@[simp] theorem complete_plat (c : BitVec 4) (s : State) : (complete c s).plat = s.plat := rfl

@[simp] theorem issue_eng (r : Request) (b : Bool) (s : State) :
    (issue r b s).eng = { s.eng with pend := some r, status := s.eng.status.flagWrap b } := rfl
@[simp] theorem issue_mem (r : Request) (b : Bool) (s : State) : (issue r b s).mem = s.mem := rfl
@[simp] theorem issue_others (r : Request) (b : Bool) (s : State) : (issue r b s).others = s.others := rfl
@[simp] theorem issue_plat (r : Request) (b : Bool) (s : State) : (issue r b s).plat = s.plat := rfl

@[simp] theorem answered_eng (s : State) : (answered s).eng = { s.eng with pend := none } := rfl
@[simp] theorem answered_mem (s : State) : (answered s).mem = s.mem := rfl
@[simp] theorem answered_others (s : State) : (answered s).others = s.others := rfl
@[simp] theorem answered_plat (s : State) : (answered s).plat = s.plat := rfl
@[simp] theorem answered_held (s : State) : (answered s).held = s.held := rfl
@[simp] theorem answered_draws (s : State) : (answered s).draws = s.draws := rfl
@[simp] theorem answered_windows (s : State) : (answered s).windows = s.windows := rfl

@[simp] theorem goto_eng (ph : Phase) (s : State) : (goto ph s).eng = { s.eng with phase := ph } := rfl
@[simp] theorem goto_mem (ph : Phase) (s : State) : (goto ph s).mem = s.mem := rfl
@[simp] theorem setCur_eng (c : Cursors) (s : State) : (setCur c s).eng = { s.eng with cur := c } := rfl
@[simp] theorem setCur_mem (c : Cursors) (s : State) : (setCur c s).mem = s.mem := rfl

/-- A block has sixteen bytes. -/
@[simp] theorem blockBytes_length (x : Block) : (blockBytes x).length = 16 := by simp [blockBytes]

/-- Byte `j` of a block's bytes. -/
theorem blockBytes_getElem? (x : Block) (j : Nat) (h : j < 16) : (blockBytes x)[j]? = some (blockByte x j) := by
  simp [blockBytes, h]

/-- The keystream of a batch has sixteen bytes a lane. -/
@[simp] theorem laneStream_length (p : Plat) (draw : Nat) (k : Sched) (iv : Block) (start : Word) (w : Nat) :
    (laneStream p draw k iv start w).length = 16 * w := by
  simp [laneStream, List.length_flatMap]
  omega

/-- A batch stores no more bytes than its lanes have. -/
theorem batchOut_length_le (p : Plat) (draw : Nat) (k : Sched) (iv : Block) (start : Word) (w : Nat) (data : List Byte) :
    (batchOut p draw k iv start w data).length ≤ 16 * w := by
  simp [batchOut]

/-- Issuing an ENC1 to a next state: the instance names a schedule, and the request is pending. -/
theorem issueBlock_next {b : Nat} {s t : State} :
    issueBlock b s = .next t ↔ ∃ k, s.eng.sched = some k ∧
      t = issue (.enc1 k (ctr s.eng.snap.ivH s.eng.snap.ivL (BitVec.ofNat 64 b)))
        (ctrOverflows s.eng.snap.ivH s.eng.snap.ivL b) s := by
  unfold issueBlock
  cases h : s.eng.sched with
  | none => simp
  | some k => simp [eq_comm]

/-- Opening a window changes memory, the windows and the index of the next draw, and no engine. -/
@[simp] theorem openWindow_eng (v : Window) (s : State) : (openWindow v s).eng = s.eng := by simp [openWindow]
@[simp] theorem openWindow_others (v : Window) (s : State) : (openWindow v s).others = s.others := by simp [openWindow]
@[simp] theorem openWindow_plat (v : Window) (s : State) : (openWindow v s).plat = s.plat := by simp [openWindow]
@[simp] theorem openWindow_held (v : Window) (s : State) : (openWindow v s).held = s.held := by simp [openWindow]

/-- A window that conflicts with no other engine's is opened and changes nothing else (R80). -/
theorem openWindow_free (v : Window) (s : State)
    (h : ∀ w ∈ s.windows, w.engine ≠ v.engine → w.conflicts v = [] ∧ v.conflicts w = []) :
    openWindow v s = s.withWindows (v :: s.windows) := by
  have h1 : raceHits (fun w => if w.engine = v.engine then [] else w.conflicts v) s = s := by
    refine raceHits_nothing _ _ fun w hw => ?_
    by_cases he : w.engine = v.engine
    · simp [he]
    · simp [he, (h w hw he).1]
  have h2 : (s.windows.filter (fun w => w.engine != v.engine)).flatMap v.conflicts = [] := by
    simp only [List.flatMap_eq_nil_iff, List.mem_filter, bne_iff_ne]
    exact fun w hw => (h w hw.1 hw.2).2
  simp only [openWindow, h1, h2]
  rfl

theorem openWindow_wf (v : Window) (s : State) (h : s.mem.wf) : (openWindow v s).mem.wf := raceHits_wf _ _ h

@[simp] theorem accept_eng (v : Word) (s : State) : (accept v s).eng = acceptEngine v s.eng := by
  simp only [accept]; split <;> simp
@[simp] theorem accept_others (v : Word) (s : State) : (accept v s).others = s.others := by
  simp only [accept]; split <;> simp
@[simp] theorem accept_plat (v : Word) (s : State) : (accept v s).plat = s.plat := by
  simp only [accept]; split <;> simp
theorem accept_wf (v : Word) (s : State) (h : s.mem.wf) : (accept v s).mem.wf := by
  simp only [accept]
  split
  · exact openWindow_wf _ _ h
  · exact h

@[simp] theorem closeWindows_eng (i : Nat) (s : State) : (closeWindows i s).eng = s.eng := rfl
@[simp] theorem closeWindows_mem (i : Nat) (s : State) : (closeWindows i s).mem = s.mem := rfl
@[simp] theorem closeWindows_others (i : Nat) (s : State) : (closeWindows i s).others = s.others := rfl
@[simp] theorem closeWindows_plat (i : Nat) (s : State) : (closeWindows i s).plat = s.plat := rfl

@[simp] theorem resetEngine_eng (s : State) :
    (resetEngine s).eng = Engine.fresh s.eng.id s.eng.base s.eng.cipher := rfl
@[simp] theorem resetEngine_others (s : State) : (resetEngine s).others = s.others := by
  unfold resetEngine; split <;> simp
@[simp] theorem resetEngine_plat (s : State) : (resetEngine s).plat = s.plat := by
  unfold resetEngine; split <;> simp
@[simp] theorem resetEngine_held (s : State) : (resetEngine s).held = s.held := by
  unfold resetEngine; split <;> simp
/-- A reset synchronises nothing: the windows stay (R82). -/
@[simp] theorem resetEngine_windows (s : State) : (resetEngine s).windows = s.windows := by
  unfold resetEngine; split <;> simp
theorem resetEngine_wf (s : State) (h : s.mem.wf) : (resetEngine s).mem.wf := by
  unfold resetEngine
  split
  · simpa using drawAt_wf _ _ h
  · simpa using h

end Sys2Proof.Machine
end

