-- ==== Sys2Proof/Laws/PerInstr.lean ====
section
/-! SUPPORT. One lemma a constructor: the opcode table's code of an instruction, read back, is that instruction (R94, R104). -/

namespace Sys2Proof.Laws

/-- The bits an instruction encodes to fit the bits the opcode table gives its row, and decode to it. -/
def TableRoundTrip.Statement (i : Instr) : Prop :=
  encode i < 2 ^ i.tableBits ∧ decodeTableWord i.tableBits (encode i) = some i

theorem TableRoundTrip.nop : TableRoundTrip.Statement .nop := by unfold TableRoundTrip.Statement; decide
theorem TableRoundTrip.construct : TableRoundTrip.Statement .construct := by unfold TableRoundTrip.Statement; decide
theorem TableRoundTrip.apply : TableRoundTrip.Statement .apply := by unfold TableRoundTrip.Statement; decide
theorem TableRoundTrip.counter : TableRoundTrip.Statement .counter := by unfold TableRoundTrip.Statement; decide
theorem TableRoundTrip.plan : TableRoundTrip.Statement .plan := by unfold TableRoundTrip.Statement; decide
theorem TableRoundTrip.expand : TableRoundTrip.Statement .expand := by unfold TableRoundTrip.Statement; decide
theorem TableRoundTrip.enc1 : TableRoundTrip.Statement .enc1 := by unfold TableRoundTrip.Statement; decide
theorem TableRoundTrip.encb2 : TableRoundTrip.Statement .encb2 := by unfold TableRoundTrip.Statement; decide
theorem TableRoundTrip.encb4 : TableRoundTrip.Statement .encb4 := by unfold TableRoundTrip.Statement; decide
theorem TableRoundTrip.encb8 : TableRoundTrip.Statement .encb8 := by unfold TableRoundTrip.Statement; decide

end Sys2Proof.Laws
end

