-- ==== Sys2Proof/Tests/Slice0.lean ====
section
/-! SUPPORT. Tests: words and offsets written out from the spec, ill-formed terms, vectors of 95_test_vectors, and for every
obligation with hypotheses a state and operands that meet them. -/

namespace Sys2Proof.Tests

open Sys2Proof.Machine

/-! States to test on. -/

/-- The parameters 95_test_vectors uses. -/
def plat : Plat := { addrBits := 63, hasAccel := true, ovf := .unspecified, regions := [] }

/-- An engine at reset whose window starts at 0x1000, and nothing else. -/
def idle : State :=
  { eng := Engine.fresh 0 0x1000 0, others := [], mem := [(0x100, 0xAB)], held := [(0, ⟨7⟩)], plat := plat,
    prog := [], turns := [], obs := [], windows := [], draws := 0 }

/-- A snapshot of a command word with the IV of 95_test_vectors' convention: its halves and a length of 16. -/
def snapOf (op ivH ivL bi : Word) : Snap :=
  { Snap.zero with op := op, ivH := ivH, ivL := ivL, ivLen := 16, bi := bi }

/-- An engine in EXEC of the command of a snapshot. -/
def inExec (sn : Snap) : State :=
  idle.withEng { idle.eng with snap := sn, phase := .exec, status := { Status.zero with busy := true } }

/-- The snapshot of an APPLY of `n` bytes at stream position `off`, in place at 0x100. -/
def applySnap (off n : Word) (b : Backend) : Snap :=
  { Snap.zero with op := 2, ivLen := 16, off := off, s := 0x100, ns := n, d := 0x100, nd := n, backend := b }

/-- An APPLY of a constructed instance in a phase, with `pos` bytes done and `nleft` blocks left. -/
def inApply (ph : Phase) (sn : Snap) (pos nleft : Nat) (pend : Option Request) : State :=
  idle.withEng { idle.eng with
    snap := sn, phase := ph, pend := pend, sched := some ⟨7⟩
    cur := { n := sn.nd.toNat, pos := pos, p := sn.off.toNat + pos, nleft := nleft }
    status := { Status.zero with busy := true, keyValid := true, nr := 10, keylenActive := 16, backend := sn.backend } }

/-- The state of an outcome, or another one. -/
def stateOf (r : Result) (s : State) : State :=
  match r with
  | .next t => t
  | .fault _ => s
  | .refused _ => s

/-- The next state of an outcome satisfies a test. -/
def nextIs (r : Result) (q : State → Bool) : Bool :=
  match r with
  | .next t => q t
  | .fault _ => false
  | .refused _ => false

/-! Decoding words written out bit by bit. -/

/-- R93, R94: RSVD[63:8] = 0, then OP[7:0]. -/
theorem test_decode_commands :
    decodeCmd ((0 : BitVec 56) ++ 0b00000000#8) = .instr .nop ∧ decodeCmd ((0 : BitVec 56) ++ 0b00000001#8) = .instr .construct ∧
    decodeCmd ((0 : BitVec 56) ++ 0b00000010#8) = .instr .apply ∧ decodeCmd ((0 : BitVec 56) ++ 0b00000011#8) = .instr .counter ∧
    decodeCmd ((0 : BitVec 56) ++ 0b00000100#8) = .instr .plan := by decide

/-- R97: OP 0x05 and 0xFF, and RSVD bits at both ends. -/
theorem test_decode_illegal_commands :
    decodeCmd 0x05 = .reject .illegalOpcode ∧ decodeCmd 0xFF = .reject .illegalOpcode ∧
    decodeCmd 0x102 = .reject .reservedBits ∧ decodeCmd 0x8000000000000001 = .reject .reservedBits := by decide

/-- R104: KIND 0 to 4, and the kinds no engine issues. -/
theorem test_decode_kinds :
    decodeKind 0b000 = .instr .expand ∧ decodeKind 0b001 = .instr .enc1 ∧ decodeKind 0b010 = .instr .encb2 ∧
    decodeKind 0b011 = .instr .encb4 ∧ decodeKind 0b100 = .instr .encb8 ∧ decodeKind 0b101 = .reject .unusedKind ∧
    decodeKind 0b110 = .reject .unusedKind ∧ decodeKind 0b111 = .reject .unusedKind := by decide

/-- The host's numbering of the table: a KIND in one byte, a command in 64 bits. -/
theorem test_decode_table_words :
    decodeTableWord 3 4 = some .encb8 ∧ decodeTableWord 8 0 = some .expand ∧ decodeTableWord 8 9 = none ∧
    decodeTableWord 64 4 = some .plan ∧ decodeTableWord 64 0 = some .nop ∧ decodeTableWord 64 0x104 = none := by decide

/-- R91, R92: offsets of registers at the ends of the map, and reserved ones. -/
theorem test_decode_offsets :
    Reg.atOffset 0x000 = some .cmd ∧ Reg.atOffset 0x008 = some .status ∧ Reg.atOffset 0x080 = some .blockIndex ∧
    Reg.atOffset 0x0D8 = some .params ∧ Reg.atOffset 0x0E0 = none ∧ Reg.atOffset 0xFF8 = none ∧ Reg.atOffset 0x004 = none := by
  decide

/-! Ill-formed terms. -/

theorem test_illformed_expand_round_count : Request.wellFormed (.expand 12 16 (List.replicate 16 0)) = false := by decide
theorem test_illformed_expand_key_length : Request.wellFormed (.expand 10 16 (List.replicate 15 0)) = false := by decide
theorem test_illformed_expand_keylen : Request.wellFormed (.expand 10 20 (List.replicate 20 0)) = false := by decide
theorem test_illformed_encb_data : Request.wellFormed (.encb .w2 ⟨0⟩ 0 0 (List.replicate 31 0)) = false := by decide
theorem test_wellformed_requests :
    Request.wellFormed (.expand 14 32 (List.replicate 32 0)) = true ∧ Request.wellFormed (.enc1 ⟨0⟩ 0) = true ∧
    Request.wellFormed (.encb .w2 ⟨0⟩ 0 0 (List.replicate 32 0)) = true := by decide
theorem test_illformed_access :
    wholeAccess 0x1000 0x1008 32 = false ∧ wholeAccess 0x1000 0x100C 64 = false ∧ wholeAccess 0x1000 0x1FF8 64 = true := by decide
theorem test_illformed_window :
    inWindow 0x1000 0xFFF = false ∧ inWindow 0x1000 0x2000 = false ∧ inWindow 0x1000 0x1000 = true ∧
    inWindow 0x1000 0x1FFF = true := by decide
theorem test_illformed_statements :
    Stmt.wellFormed (.cmd .enc1) = false ∧ Stmt.wellFormed (.run .expand) = false ∧ Stmt.wellFormed (.setIv [1, 2]) = false ∧
    Stmt.wellFormed (.setKey (List.replicate 17 0)) = false ∧ Stmt.wellFormed (.setKey (List.replicate 24 0)) = true ∧
    Stmt.wellFormed (.run .plan) = true := by decide

/-! Vectors of 95_test_vectors. -/

/-- V-CTR-2: IVN, block 1. -/
theorem test_counter_carry_in_low :
    nextIs (exec .counter (inExec (snapOf 3 0xf0f1f2f3f4f5f6f7 0xf8f9fafbfcfdfeff 1))) (fun t =>
      t.eng.results.ctrOutHi == 0xf0f1f2f3f4f5f6f7 && t.eng.results.ctrOutLo == 0xf8f9fafbfcfdff00 &&
      statusWord t.eng.status == 0x2) = true := by decide

/-- V-CTR-3 and V-CTR-6: the carry into the high half, and its overflow. -/
theorem test_counter_carry_out :
    nextIs (exec .counter (inExec (snapOf 3 0x0001020304050607 0xffffffffffffffff 1))) (fun t =>
      t.eng.results.ctrOutHi == 0x0001020304050608 && t.eng.results.ctrOutLo == 0) = true ∧
    nextIs (exec .counter (inExec (snapOf 3 0xffffffffffffffff 0xfffffffffffffffe 2)))
      (fun t => statusWord t.eng.status == 0xA) = true := by decide

/-- V-CTR-12: IV_LEN 8. -/
theorem test_counter_iv_length :
    nextIs (exec .counter (inExec { snapOf 3 1 2 3 with ivLen := 8 }))
      (fun t => statusWord t.eng.status == 0x22 && t.eng.results == Results.zero) = true := by decide

/-- V-PLN-4, with both backends. -/
theorem test_plan :
    nextIs (exec .plan (inExec { snapOf 4 0 0 0 with off := 5, nd := 200, backend := .accelerated })) (fun t =>
      t.eng.results == { Results.zero with planLead := 11, planNfull := 11, planTrail := 13, planN8 := 1, planN2 := 1, planN1 := 1 })
      = true ∧
    nextIs (exec .plan (inExec { snapOf 4 0 0 0 with off := 5, nd := 200 })) (fun t =>
      t.eng.results == { Results.zero with planLead := 11, planNfull := 11, planTrail := 13, planN1 := 11 }) = true := by decide

/-- V-PLN-10: the last stream positions. -/
theorem test_split_at_top : split (2 ^ 64 - 1) 17 = { lead := 1, nfull := 1, trail := 0 } := by decide

/-- R172 at the counts of the source's backend property. -/
theorem test_batch_widths :
    batchWidths .accelerated 16 7 = [4, 2, 1] ∧ batchWidths .accelerated 16 9 = [8, 1] ∧
    batchWidths .accelerated 16 12 = [8, 4] ∧ batchWidths .accelerated 16 16 = [8, 8] ∧
    batchWidths .portable 16 3 = [1, 1, 1] := by decide

/-- 95_test_vectors' table of recurring STATUS words. -/
theorem test_status_word :
    statusWord { Status.zero with done := true, keyValid := true, backend := .accelerated, nr := 10, keylenActive := 16 }
      = 0x100A0302 ∧
    statusWord { Status.zero with done := true, err := 5 } = 0x52 := by decide

/-- V-APP-1: the length of the combination is the least of the three. -/
theorem test_xorn : xorn 3 [1, 2, 3, 4, 5] (List.replicate 16 0xff) = [0xfe, 0xfd, 0xfc] := by decide

/-- R67, R68: two orders of the byte events of two bytes give the same in place and differ when the ranges overlap by one byte, which
CHECK refuses (R213). -/
theorem test_byte_event_orders :
    let run := fun (dst : Nat) (order : List Nat) =>
      (order.foldl (byteEvent (fun m k => m.read (0x10 + k)) dst (fun _ b => xornByte b 0xF0))
        { mem := [(0x10, 1), (0x11, 2)], got := [], put := [] }).mem
    run 0x10 [0, 0, 1, 1] = [(0x10, 0xF1), (0x11, 0xF2)] ∧ run 0x10 [1, 0, 1, 0, 1] = [(0x10, 0xF1), (0x11, 0xF2)] ∧
    run 0x11 [0, 0, 1, 1] = [(0x10, 1), (0x11, 0xF1), (0x12, 1)] ∧
    run 0x11 [1, 0, 1, 0] = [(0x10, 1), (0x11, 0xF1), (0x12, 0xF2)] := by decide

/-- R212, R213: ranges that touch do not overlap, one shared byte does, an empty range never does. -/
theorem test_overlap :
    overlap 0x110 0x100 16 = false ∧ overlap 0x10f 0x100 16 = true ∧ overlap 0x0f1 0x100 16 = true ∧
    overlap 0x100 0x100 0 = false := by decide

/-- R226: an illegal word ends with ERR = 7. -/
theorem test_illegal_command :
    nextIs (engineStep (inExec { Snap.zero with op := 5 })) (fun t => statusWord t.eng.status == 0x72) = true := by decide

/-- R100: SETIV writes the two halves and the length. -/
theorem test_script_set_iv :
    stmtOps 0x1000 (.setIv [0, 1, 2, 3, 4, 5, 6, 7, 8, 9, 10, 11, 12, 13, 14, 15]) =
      [.write 0x1040 64 0x0001020304050607, .write 0x1048 64 0x08090a0b0c0d0e0f, .write 0x1050 64 16] := by decide

/-- R100: SETKEY of 24 bytes writes the fourth key register with 0. -/
theorem test_script_set_key :
    (stmtOps 0x1000 (.setKey (List.replicate 24 0xAA))).map (fun o => match o with | .write a _ v => (a, v) | _ => (0, 0)) =
      [(0x1020, 0xAAAAAAAAAAAAAAAA), (0x1028, 0xAAAAAAAAAAAAAAAA), (0x1030, 0xAAAAAAAAAAAAAAAA), (0x1038, 0), (0x1018, 24)] := by
  decide

/-! Witnesses: what meets the hypotheses of the obligations. -/

theorem witness_DecodeAndEncodeAgree :
    Instr.isCommand .plan = true ∧ Instr.isCommand .encb8 = false ∧ decodeCmd 4 = .instr .plan ∧ decodeKind 4 = .instr .encb8 := by
  decide

theorem witness_StepRunsDecodedCommand :
    let s := (inExec (snapOf 4 0 0 0)).withTurns [.engine 0, .host]
    (s.turns = .engine s.eng.id :: [.host] ∧ s.eng.phase ≠ .idle ∧ decodeCmd s.eng.snap.op = .instr .plan) ∧
    (let u := inExec (snapOf 5 0 0 0)
     u.turns = [] ∧ u.eng.status.busy = true ∧ u.eng.pend = none ∧ u.eng.phase ≠ .idle ∧
       decodeCmd u.eng.snap.op = .reject .illegalOpcode) ∧
    (let v := idle.withTurns [.engine 0]
     v.turns = .engine v.eng.id :: [] ∧ v.eng.phase = .idle) := by decide

/-- Two engines: engine 0 idle at `eng`, engine 1 in EXEC of PLAN among the others. -/
def twoEngines : State :=
  { idle with others := [{ (inExec (snapOf 4 0 0 0)).eng with id := 1, base := 0x2000, cipher := 1 }] }

/-- The turn of engine 1, and the default schedule's choice of it. -/
theorem witness_StepRunsDecodedCommand_other :
    let s := twoEngines.withTurns [.engine 1]
    (∃ e, s.others = [] ++ e :: [] ∧ s.eng.id ≠ e.id ∧ s.turns = .engine e.id :: [] ∧
      twoEngines.turns = [] ∧ twoEngines.eng.status.busy = false ∧ e.status.busy = true) ∧
    nextIs (step s) (fun t => t.eng.id == 1 && t.eng.status.done) = true :=
  ⟨⟨_, rfl, by decide, rfl, rfl, rfl, rfl⟩, by decide⟩

theorem witness_StepRunsPendingRequest_other :
    let s := twoEngines.withTurns [.cipher 1]
    ∃ e, s.others = [] ++ e :: [] ∧ s.eng.id ≠ e.id ∧ s.turns = .cipher e.id :: [] :=
  ⟨_, rfl, by decide, rfl⟩

/-- An engine in FULL that waits for an ENC1 of schedule 7. -/
def waiting1 : State := inApply .full (applySnap 0 16 .portable) 0 1 (some (.enc1 ⟨7⟩ 0))

theorem witness_StepRunsPendingRequest :
    (let s := waiting1.withTurns [.cipher 0]
     s.turns = .cipher s.eng.id :: [] ∧ s.eng.pend = some (.enc1 ⟨7⟩ 0) ∧
       decodeKind (Request.kind (.enc1 ⟨7⟩ 0)) = .instr .enc1) ∧
    (waiting1.turns = [] ∧ waiting1.eng.status.busy = true) ∧
    (let u := idle.withTurns [.cipher 0]
     u.turns = .cipher u.eng.id :: [] ∧ u.eng.pend = none) ∧
    (idle.turns = [] ∧ idle.eng.status.busy = false ∧ (∀ e ∈ idle.others, e.status.busy = false) ∧ idle.prog = []) := by decide

/-- R5, R99: a turn of the host with a statement and without one, and the default schedule's choice of it. -/
theorem witness_StepRunsPendingRequest_host :
    (let s := (idle.withTurns [.host, .engine 0]).withProg [.read 0x1008 64]
     s.turns = .host :: [.engine 0] ∧ s.prog = .read 0x1008 64 :: [] ∧
       nextIs (step s) (fun t => t.obs == [.reg 0] && t.prog == [] && t.turns == [.engine 0]) = true) ∧
    (let s := idle.withProg [.read 0x1008 64]
     s.turns = [] ∧ s.eng.status.busy = false ∧ (∀ e ∈ s.others, e.status.busy = false)) ∧
    ((idle.withTurns [.host]).turns = .host :: [] ∧ (idle.withTurns [.host]).prog = []) := by decide

/-- A transaction, a WAIT and a reset in the window of engine 1, which is among the others. -/
theorem witness_other_engines_window :
    (∃ e, twoEngines.others = [] ++ e :: [] ∧ (∀ f ∈ twoEngines.eng :: [], 0x2008 < f.base ∨ f.base + 4096 ≤ 0x2008) ∧
      e.base ≤ 0x2008 ∧ 0x2008 < e.base + 4096 ∧ (∀ f ∈ twoEngines.eng :: [], f.base ≠ e.base) ∧
      (twoEngines.withProg [.wait 0x2000]).prog = .wait e.base :: []) ∧
    nextIs (runHostOp (.read 0x2008 64) twoEngines) (fun t => t.obs == [.reg 1]) = true :=
  ⟨⟨_, rfl, by decide, by decide, by decide, by decide, rfl⟩, by decide⟩

theorem witness_NarrowAccessIsRefused :
    (idle.eng.base ≤ 0x1000 ∧ 0x1000 < idle.eng.base + 4096 ∧ (32 ≠ 64 ∨ (0x1000 - idle.eng.base) % 8 ≠ 0)) ∧
    (idle.eng.base ≤ 0x1FFF ∧ 0x1FFF < idle.eng.base + 4096 ∧ (64 ≠ 64 ∨ (0x1FFF - idle.eng.base) % 8 ≠ 0)) := by decide

theorem witness_IdleOperandWriteStores : idle.eng.status.busy = false ∧ Reg.keyLen ≠ .cmd ∧ Reg.keyLen ≠ .config := by decide

theorem witness_BusyWritesAreDropped :
    waiting1.eng.status.busy = true ∧ Reg.access .cmd ≠ .readOnly ∧ Reg.access .params = .readOnly ∧
    (∀ r : Reg, r ∈ Reg.all → (0x0E0 : BitVec 12) ≠ r.offsetIn) := by decide

theorem witness_AccessKindsOfRegisters :
    Reg.access .id = .readOnly ∧ Reg.access .cmd = .writeOnly ∧ (0x100 : Word).toNat / 256 ≠ 0 ∧
    (∀ r : Reg, r ∈ Reg.all → (0xFFF : BitVec 12) ≠ r.offsetIn) ∧ (∀ r : Reg, r ∈ Reg.all → (0x0E0 : BitVec 12) ≠ r.offsetIn) := by
  decide

theorem test_all_registers_listed (r : Reg) : r ∈ Reg.all := by cases r <;> decide

theorem witness_ConfigTakesLegalBackend :
    idle.eng.status.busy = false ∧ (1 : Word).getLsbD 0 = true ∧ idle.plat.hasAccel = true ∧
    (regValue idle.plat (writeReg .config 3 idle).eng .config) = 1 := by decide

theorem witness_IdentificationIsConstant : ∃ t, step idle = .next t ∧ regValue idle.plat idle.eng .params = 0x84001 :=
  ⟨_, rfl, by decide⟩

theorem witness_CommandWriteIsAccepted :
    idle.eng.status.busy = false ∧ waiting1.eng.status.busy = true ∧ Reg.params ≠ .cmd := by decide

/-- An APPLY whose checks pass, and one whose key is missing: the first opens a window of its ranges, the second none. -/
theorem witness_CommandWriteIsAccepted_opens :
    let s := idle.withEng { idle.eng with
      regs := { Regs.zero with ivLen := 16, srcAddr := 0x100, srcLen := 16, dstAddr := 0x110, dstLen := 16 }
      status := { Status.zero with keyValid := true } }
    let g := s.eng.regs
    (s.eng.status.busy = false ∧ s.eng.status.keyValid = true ∧ g.ivLen = 16 ∧ g.dstLen = g.srcLen ∧
      g.srcAddr.toNat + g.dstLen.toNat ≤ 2 ^ s.plat.addrW ∧ g.dstAddr.toNat + g.dstLen.toNat ≤ 2 ^ s.plat.addrW ∧
      overlap g.dstAddr.toNat g.srcAddr.toNat g.dstLen.toNat = false) ∧
    (writeReg .cmd 2 s).windows = [{ engine := 0, src := 0x100, dst := 0x110, len := 16, raced := [], wrote := 0 }] ∧
    (writeReg .cmd 2 (s.withEng { s.eng with status := Status.zero })).windows = [] := by decide

theorem witness_NopOnlyCompletes : (inExec Snap.zero).eng.phase = .exec := by decide

theorem witness_IllegalCommandCompletesWithSeven :
    (inExec (snapOf 0x100 0 0 0)).eng.phase = .exec ∧ (inExec (snapOf 0x100 0 0 0)).eng.snap.op.toNat / 256 ≠ 0 ∧
    5 ≤ (inExec (snapOf 5 0 0 0)).eng.snap.op.toNat % 256 := by decide

theorem witness_ConstructRejectsKeyLength :
    let s := inExec { Snap.zero with op := 1, keyLen := 33 }
    s.eng.phase = .exec ∧ s.eng.pend = none ∧ s.eng.snap.keyLen ≠ 16 ∧ s.eng.snap.keyLen ≠ 24 ∧ s.eng.snap.keyLen ≠ 32 := by
  decide

theorem witness_ConstructIssuesExpand :
    let s := fun n : Word => inExec { Snap.zero with op := 1, keyLen := n }
    ((s 16).eng.phase = .exec ∧ (s 16).eng.pend = none) ∧
    ((s 16).eng.snap.keyLen = 16 ∧ (10 : BitVec 8) = 10) ∧ ((s 24).eng.snap.keyLen = 24 ∧ (12 : BitVec 8) = 12) ∧
    ((s 32).eng.snap.keyLen = 32 ∧ (14 : BitVec 8) = 14) := by decide

theorem witness_ExpandResponseBindsInstance :
    let s := inExec { Snap.zero with op := 1, keyLen := 16 }
    let t := s.withEng { s.eng with pend := some (.expand 10 16 (List.replicate 16 0)) }
    t.eng.phase = .exec ∧ t.eng.pend = some (.expand 10 16 (List.replicate 16 0)) := by decide

theorem witness_CounterGivesCounterBlock :
    (let s := inExec (snapOf 3 0xffffffffffffffff 0xfffffffffffffffe 1)
     s.eng.phase = .exec ∧ s.eng.snap.ivLen = 16 ∧ ¬ (2 ^ 64 ≤ s.eng.snap.ivL.toNat + s.eng.snap.bi.toNat)) ∧
    (let s := inExec (snapOf 3 0xffffffffffffffff 0xfffffffffffffffe 2)
     let t : State := { s with plat := { plat with ovf := .wrap } }
     t.eng.phase = .exec ∧ t.eng.snap.ivLen = 16 ∧ t.plat.ovf = .wrap) := by decide

theorem witness_CounterOverflowIsAnyValue :
    let s := inExec (snapOf 3 0xffffffffffffffff 0xfffffffffffffffe 2)
    s.eng.phase = .exec ∧ s.eng.snap.ivLen = 16 ∧ s.plat.ovf = .unspecified ∧ s.eng.snap.ivH.toNat = 2 ^ 64 - 1 ∧
    2 ^ 64 ≤ s.eng.snap.ivL.toNat + s.eng.snap.bi.toNat := by decide

theorem witness_CounterRejectsIvLength :
    (inExec { snapOf 3 0 0 0 with ivLen := 15 }).eng.phase = .exec ∧
    (inExec { snapOf 3 0 0 0 with ivLen := 15 }).eng.snap.ivLen ≠ 16 := by decide

theorem witness_CounterBlockIsThe128BitSum :
    (0xfffffffffffffffe : Word).toNat + (if ctrCarry 0xffffffffffffffff 1 = true then 1 else 0) < 2 ^ 64 ∧
    ctr 0xfffffffffffffffe 0xffffffffffffffff 1 = 0xffffffffffffffff0000000000000000 := by decide

theorem witness_PlanReportsSplitAndBatches : (inExec (snapOf 4 0 0 0)).eng.phase = .exec := by decide

theorem witness_SegmentsUseConsecutiveBlocks :
    split 5 200 = { lead := 11, nfull := 11, trail := 13 } ∧ split 3 5 = { lead := 5, nfull := 0, trail := 0 } ∧
    split 15 2 = { lead := 1, nfull := 0, trail := 1 } := by decide

theorem witness_BatchWidthsAreGreedy : 11 ≤ 11 ∧ batchWidths .accelerated 11 11 = [8, 2, 1] := by decide

/-- An APPLY in CHECK with the instance and snapshot of `inApply`, changed. -/
def inCheck (f : Snap → Snap) (keyValid : Bool) : State :=
  let s := inApply .check (f (applySnap 0 16 .portable)) 0 0 none
  s.withEng { s.eng with status := { s.eng.status with keyValid := keyValid } }

theorem witness_CheckReportsFirstFailure :
    ((inCheck id false).eng.phase = .check ∧ (inCheck id false).eng.pend = none ∧ (inCheck id false).eng.status.keyValid = false) ∧
    (inCheck (fun sn => { sn with ivLen := 15 }) true).eng.snap.ivLen ≠ 16 ∧
    (inCheck (fun sn => { sn with ns := 17 }) true).eng.snap.nd ≠ (inCheck (fun sn => { sn with ns := 17 }) true).eng.snap.ns ∧
    (let sn := (inCheck (fun sn => { sn with s := 0xfffffffffffffff1 }) true).eng.snap
     sn.nd = sn.ns ∧ 2 ^ plat.addrW < sn.s.toNat + sn.nd.toNat) ∧
    (let sn := (inCheck (fun sn => { sn with d := 0x10f }) true).eng.snap
     sn.ivLen = 16 ∧ sn.nd = sn.ns ∧ sn.s.toNat + sn.nd.toNat ≤ 2 ^ plat.addrW ∧ sn.d.toNat + sn.nd.toNat ≤ 2 ^ plat.addrW ∧
     sn.d ≠ sn.s ∧ 0 < sn.nd.toNat ∧ sn.d.toNat < sn.s.toNat + sn.nd.toNat ∧ sn.s.toNat < sn.d.toNat + sn.nd.toNat) := by decide

theorem witness_CheckPassesToLead :
    (let s := inCheck id true
     s.eng.phase = .check ∧ s.eng.pend = none ∧ s.eng.status.keyValid = true ∧ s.eng.snap.ivLen = 16 ∧
     s.eng.snap.nd = s.eng.snap.ns ∧ s.eng.snap.s.toNat + s.eng.snap.nd.toNat ≤ 2 ^ s.plat.addrW ∧ s.eng.snap.d = s.eng.snap.s) ∧
    (let sn := (inCheck (fun sn => { sn with s := 0xfffffffffffffff0, d := 0xffffffffffffffe0 }) true).eng.snap
     sn.s.toNat + sn.nd.toNat = 2 ^ plat.addrW ∧ overlap sn.d.toNat sn.s.toNat sn.nd.toNat = false) := by decide

theorem witness_EmptySegmentsOnlyMoveOn :
    (let s := inApply .lead (applySnap 0 16 .portable) 0 0 none
     s.eng.pend = none ∧ s.eng.phase = .lead ∧ s.eng.snap.split.lead = 0) ∧
    (let s := inApply .full (applySnap 0 16 .portable) 16 0 none
     s.eng.phase = .full ∧ s.eng.cur.nleft = 0 ∧ s.eng.snap.split.trail = 0) ∧
    (let s := inApply .trail (applySnap 0 16 .portable) 16 0 none
     s.eng.phase = .trail ∧ s.eng.snap.split.trail = 0) ∧
    (inApply .finish (applySnap 0 16 .portable) 16 0 none).eng.phase = .finish := by decide

theorem witness_BlockStepsIssueOneEnc1 :
    (let s := inApply .lead (applySnap 15 33 .accelerated) 0 0 none
     s.eng.pend = none ∧ s.eng.sched = some ⟨7⟩ ∧ s.eng.phase = .lead ∧ 0 < s.eng.snap.split.lead) ∧
    (let s := inApply .full (applySnap 15 33 .accelerated) 1 1 none
     s.eng.phase = .full ∧ 0 < s.eng.cur.nleft ∧ s.eng.cur.nleft = 1) ∧
    (let s := inApply .full (applySnap 15 18 .accelerated) 17 0 none
     s.eng.phase = .full ∧ s.eng.cur.nleft = 0 ∧ 0 < s.eng.snap.split.trail) ∧
    (let s := inApply .trail (applySnap 15 18 .portable) 17 0 none
     s.eng.phase = .trail ∧ 0 < s.eng.snap.split.trail) := by decide

theorem witness_BatchStepsIssueOneEncb :
    let s := fun n : Nat => inApply .full (applySnap 0 (BitVec.ofNat 64 (16 * n)) .accelerated) 0 n none
    ((s 8).eng.pend = none ∧ (s 8).eng.sched = some ⟨7⟩ ∧ (s 8).eng.phase = .full ∧ (s 8).eng.snap.backend = .accelerated ∧
      Width.blocks .w8 ≤ (s 8).eng.cur.nleft ∧ portStop (s 8).plat 0x100 128 = none) ∧
    (Width.blocks .w4 ≤ (s 7).eng.cur.nleft ∧ (s 7).eng.cur.nleft < 8 ∧ portStop (s 7).plat 0x100 64 = none) ∧
    (Width.blocks .w2 ≤ (s 3).eng.cur.nleft ∧ (s 3).eng.cur.nleft < 4 ∧ portStop (s 3).plat 0x100 32 = none) := by decide

theorem witness_PendingRequestHoldsMicroStep :
    waiting1.eng.pend = some (.enc1 ⟨7⟩ 0) ∧ waiting1.eng.phase ≠ .idle ∧ waiting1.eng.phase ≠ .exec ∧
    (let s := inExec { Snap.zero with op := 1 }
     let t := s.withEng { s.eng with pend := some (.expand 10 16 []) }
     t.eng.pend = some (.expand 10 16 []) ∧ t.eng.phase = .exec) := by decide

theorem witness_LeadResponseTransformsLeadingBytes :
    let s := inApply .lead (applySnap 3 40 .accelerated) 0 0 (some (.enc1 ⟨7⟩ 0))
    s.eng.phase = .lead ∧ s.eng.pend = some (.enc1 ⟨7⟩ 0) ∧ (s.eng.id, ⟨7⟩) ∈ s.held ∧ s.mem.wf ∧ racedNow s = [] ∧
    counterOpen s.plat s.eng.snap.ivH s.eng.snap.ivL (s.eng.cur.p / 16) = false ∧ s.eng.snap.d = s.eng.snap.s ∧
    s.eng.snap.split.lead = 13 ∧ s.eng.snap.split.lead ≤ 16 - s.eng.cur.p % 16 ∧
    portStop s.plat s.eng.snap.s.toNat 13 = none ∧ portStop s.plat s.eng.snap.d.toNat 13 = none := by decide

theorem witness_BatchOneResponseTransformsBlock :
    waiting1.eng.phase = .full ∧ waiting1.eng.pend = some (.enc1 ⟨7⟩ 0) ∧ (waiting1.eng.id, ⟨7⟩) ∈ waiting1.held ∧ waiting1.mem.wf ∧
    racedNow waiting1 = [] ∧ counterOpen waiting1.plat 0 0 (waiting1.eng.cur.p / 16) = false ∧
    waiting1.eng.snap.d = waiting1.eng.snap.s ∧
    portStop waiting1.plat (waiting1.eng.snap.s.toNat + waiting1.eng.cur.pos) 16 = none ∧
    portStop waiting1.plat (waiting1.eng.snap.d.toNat + waiting1.eng.cur.pos) 16 = none := by decide

theorem witness_TrailResponseTransformsTrailingBytes :
    let s := inApply .trail (applySnap 15 18 .accelerated) 17 0 (some (.enc1 ⟨7⟩ 2))
    s.eng.phase = .trail ∧ s.eng.pend = some (.enc1 ⟨7⟩ 2) ∧ (s.eng.id, ⟨7⟩) ∈ s.held ∧ s.mem.wf ∧ racedNow s = [] ∧
    s.eng.snap.split.trail = 1 ∧ s.eng.snap.d = s.eng.snap.s ∧ counterOpen s.plat s.eng.snap.ivH s.eng.snap.ivL (s.eng.cur.p / 16) = false ∧
    portStop s.plat (s.eng.snap.s.toNat + 17) 1 = none ∧ portStop s.plat (s.eng.snap.d.toNat + 17) 1 = none := by decide

/-- The other cases of the answers' clauses: ranges that touch, a raced destination byte, and a counter left open. -/
theorem witness_responses_other_cases :
    overlap 0x110 0x100 16 = false ∧
    racedNow (waiting1.withWindows [{ engine := 0, src := 0x100, dst := 0x100, len := 16, raced := [0x10f], wrote := 0 }]) = [0x10f] ∧
    counterOpen plat 0xffffffffffffffff 0xffffffffffffffff 1 = true ∧
    counterOpen plat 0xffffffffffffffff 0xffffffffffffffff 0 = false := by decide

/-- An APPLY that waits for an ENCB of a width from the first block on. -/
def waitingBatch (w : Width) : State :=
  inApply .full (applySnap 0 (BitVec.ofNat 64 (16 * w.blocks)) .accelerated) 0 w.blocks
    (some (.encb w ⟨7⟩ (ivBlock 0 0) 0 (List.replicate (16 * w.blocks) 0)))

theorem witness_BatchResponseStoresOutput (w : Width) :
    (waitingBatch w).eng.phase = .full ∧
    (waitingBatch w).eng.pend = some (.encb w ⟨7⟩ (ivBlock 0 0) 0 (List.replicate (16 * w.blocks) 0)) ∧
    ((waitingBatch w).eng.id, ⟨7⟩) ∈ (waitingBatch w).held ∧ (waitingBatch w).mem.wf ∧ racedNow (waitingBatch w) = [] ∧
    (List.replicate (16 * w.blocks) (0 : Byte)).length = 16 * w.blocks ∧
    counterOpen (waitingBatch w).plat 0 0 (w.blocks - 1) = false ∧
    portStop (waitingBatch w).plat ((waitingBatch w).eng.snap.d.toNat + (waitingBatch w).eng.cur.pos) (16 * w.blocks) = none := by
  cases w <;> decide

theorem witness_StoresStayInTheirSpan :
    (∃ t, exec .enc1 waiting1 = .next t) ∧ storeSpan .enc1 waiting1 = (0x100, 16) ∧
    (∃ t, exec .plan (inExec (snapOf 4 0 0 0)) = .next t) ∧ storesData .plan = false ∧
    (∃ t, exec .encb8 (waitingBatch .w8) = .next t) ∧ storeSpan .encb8 (waitingBatch .w8) = (0x100, 128) :=
  ⟨⟨_, rfl⟩, by decide, ⟨_, rfl⟩, rfl, ⟨_, rfl⟩, by decide⟩

/-- Every instruction answers a next state somewhere: the hypothesis of the frame statements. -/
theorem witness_InstructionsLeaveOperandsAndOthers (i : Instr) : ∃ s t, exec i s = .next t := by
  cases i with
  | nop => exact ⟨inExec Snap.zero, _, rfl⟩
  | construct => exact ⟨inExec { Snap.zero with op := 1 }, _, rfl⟩
  | apply => exact ⟨inApply .lead (applySnap 3 40 .portable) 0 0 none, _, rfl⟩
  | counter => exact ⟨inExec (snapOf 3 0 0 1), _, rfl⟩
  | plan => exact ⟨inExec (snapOf 4 0 0 0), _, rfl⟩
  | expand =>
    exact ⟨(inExec Snap.zero).withEng { (inExec Snap.zero).eng with pend := some (.expand 10 16 []) }, _, rfl⟩
  | enc1 => exact ⟨waiting1, _, rfl⟩
  | encb2 => exact ⟨waitingBatch .w2, _, rfl⟩
  | encb4 => exact ⟨waitingBatch .w4, _, rfl⟩
  | encb8 => exact ⟨waitingBatch .w8, _, rfl⟩

theorem witness_StatusFlagsOnlyMoveAsSpecified :
    nextIs (exec .nop (inExec Snap.zero)) (fun t => t.eng.phase == .idle) = true ∧
    nextIs (exec .apply (inApply .lead (applySnap 3 40 .portable) 0 0 none)) (fun t => t.eng.phase != .idle) = true := by decide

theorem witness_WaitEndsAtDone :
    let s := idle.withProg [.wait 0x1000]
    s.prog = .wait s.eng.base :: [] ∧ s.eng.status.done = false ∧
    (s.withEng { s.eng with status := { s.eng.status with done := true } }).eng.status.done = true := by decide

/-- An APPLY in place of 16 bytes at 0x100 is open. -/
def racing : State := waiting1.withWindows [{ engine := 0, src := 0x100, dst := 0x100, len := 16, raced := [], wrote := 0 }]

theorem witness_OrderedHostAccessesArePlain :
    racing.mem.wf ∧ portStop racing.plat 0x110 2 = none ∧
    (∀ i, i < [1#8, 2#8].length → ∀ w ∈ racing.windows, w.inSrc (0x110 + i) = false ∧ w.inDst (0x110 + i) = false) := by decide

/-- A read of source bytes that no open command writes. -/
theorem witness_OrderedHostAccessesArePlain_source :
    let s := idle.withWindows [{ engine := 0, src := 0x100, dst := 0x200, len := 16, raced := [], wrote := 0 }]
    (∀ i, i < 16 → ∀ w ∈ s.windows, w.inSrc (0x100 + i) = true ∧ w.inDst (0x100 + i) = false) ∧
    portStop s.plat 0x100 16 = none := by decide

/-- Two APPLYs of engine 0 of which the host has seen neither complete, the latest first: the second reads what the first writes. -/
def chain : State :=
  idle.withWindows [{ engine := 0, src := 0x200, dst := 0x300, len := 16, raced := [], wrote := 0 },
    { engine := 0, src := 0x100, dst := 0x200, len := 16, raced := [], wrote := 0 }]

theorem witness_RacedHostWriteLeavesAnyValue :
    racing.mem.wf ∧ (∃ w ∈ racing.windows, w.inSrc 0x10f = true ∨ w.inDst 0x10f = true) ∧
    (∃ w ∈ chain.windows, w.inDst 0x30f = true) ∧ (∃ w ∈ chain.windows, w.engine ≠ 1) := by decide

/-- R79, R77: a host write to the first APPLY's source leaves any value in both APPLYs' results; a host read of the first's result
in that and in the second's. -/
theorem test_race_carried :
    (hostWriteByte 0x101 5 chain).windows.map Window.raced = [[0x301], [0x201]] ∧
    (hostReadByte 0x202 chain).2.windows.map Window.raced = [[0x302], [0x202]] := by decide

/-- R77, R79: two APPLYs of engine 0 into the same range, the second of which has written 4 bytes. A host write to the first's source
draws one value for the byte itself, and one more for the first's result only where the second has not written it yet. -/
theorem test_race_rewritten :
    let s := idle.withWindows [{ engine := 0, src := 0x300, dst := 0x200, len := 16, raced := [], wrote := 4 },
      { engine := 0, src := 0x100, dst := 0x200, len := 16, raced := [], wrote := 16 }]
    (hostWriteByte 0x103 5 s).draws = 1 ∧ (hostWriteByte 0x104 5 s).draws = 2 := by decide

/-- An answer that stores notes in the engine's latest window how far its command has written. -/
theorem test_window_notes_writes :
    nextIs (exec .enc1 racing) (fun t => t.windows.map Window.wrote == [16]) = true := by decide

/-- R78, R79: engine 1 writes 0x20f while engine 0's two APPLYs may still run. -/
theorem test_race_between_engines :
    ((openWindow { engine := 1, src := 0x400, dst := 0x20f, len := 1, raced := [], wrote := 0 } chain).windows.map Window.raced) =
      [[0x20f, 0x20f], [0x30f, 0x30f], [0x20f]] := by decide

/-- R80: engine 1 may run beside them on bytes of its own. -/
theorem test_race_free_engines :
    (openWindow { engine := 1, src := 0x100, dst := 0x210, len := 16, raced := [], wrote := 0 } chain).windows =
      { engine := 1, src := 0x100, dst := 0x210, len := 16, raced := [], wrote := 0 } :: chain.windows ∧
    (openWindow { engine := 1, src := 0x100, dst := 0x210, len := 16, raced := [], wrote := 0 } chain).draws = chain.draws := by decide

/-- R257, R273: a collaborator of its own forgets its engine's schedules, a shared one those of every engine it serves. -/
theorem test_cipher_reset :
    let two := fun c : Nat => ({ twoEngines with
      held := [(0, ⟨7⟩), (1, ⟨7⟩)], others := twoEngines.others.map (fun e => { e with cipher := c }) } : State)
    nextIs (runHostOp (.cipherReset 0x1000) (two 1)) (fun t => t.held == [(1, ⟨7⟩)]) = true ∧
    nextIs (runHostOp (.cipherReset 0x1000) (two 0)) (fun t => t.held == []) = true := by decide

/-- R82: a reset of an engine leaves its windows open. -/
theorem test_reset_keeps_windows : (resetEngine chain).windows = chain.windows := by decide

theorem witness_ResetDuringApplyLeavesRangeOpen :
    waiting1.mem.wf ∧ pastCheck waiting1.eng.phase = true ∧ 15 < waiting1.eng.snap.nd.toNat ∧
    pastCheck (inCheck id true).eng.phase = false := by decide

/-- A platform whose only region lacks memory for `n` bytes at `a`. -/
def lacking (a n : Nat) : Plat := { plat with regions := [{ base := a, size := n, kind := .absent }] }

theorem witness_StuckWithoutMemoryOrSchedule :
    (waiting1.eng.phase = .full ∧ waiting1.eng.pend = some (.enc1 ⟨7⟩ 0) ∧ (waiting1.eng.id, ⟨7⟩) ∉ (waiting1.withHeld []).held) ∧
    ((waiting1.eng.id, ⟨7⟩) ∈ waiting1.held ∧ (lacking 0x10f 1).lacks 0x100 16) ∧
    (portStop (lacking 0x20f 1) 0x100 16 = none ∧ (lacking 0x20f 1).lacks 0x200 16) ∧
    ((waitingBatch .w8).eng.phase = .full ∧ ((waitingBatch .w8).eng.id, ⟨7⟩) ∈ (waitingBatch .w8).held ∧
      (lacking 0x17f 1).lacks ((waitingBatch .w8).eng.snap.d.toNat + (waitingBatch .w8).eng.cur.pos) 128) := by
  unfold Plat.lacks
  decide

/-- The other clauses of the same statement: LEAD and TRAIL, and a batch at its issue. -/
theorem witness_StuckWithoutMemoryOrSchedule_other :
    (let s := inApply .lead (applySnap 3 40 .portable) 0 0 (some (.enc1 ⟨7⟩ 0))
     s.eng.phase = .lead ∧ storeSpan .enc1 s = (0x100, 13) ∧ (lacking 0x10c 1).lacks 0x100 13) ∧
    (let s := inApply .trail (applySnap 15 18 .portable) 17 0 (some (.enc1 ⟨7⟩ 2))
     s.eng.phase = .trail ∧ storeSpan .enc1 s = (0x111, 1) ∧ (lacking 0x111 1).lacks 0x111 1) ∧
    (let s := inApply .full (applySnap 0 32 .accelerated) 0 2 none
     s.eng.pend = none ∧ s.eng.sched = some ⟨7⟩ ∧ s.eng.phase = .full ∧ s.eng.snap.backend = .accelerated ∧
       Width.blocks .w2 ≤ s.eng.cur.nleft ∧ s.eng.cur.nleft < 4 ∧ (lacking 0x100 1).lacks 0x100 32) := by
  unfold Plat.lacks
  decide

/-- A state of the invariant that steps, in the middle of an APPLY. -/
theorem witness_EveryStepKeepsInvariant :
    let s := inApply .lead (applySnap 3 40 .portable) 0 0 none
    s.Inv ∧ ∃ t, step s = .next t := by
  refine ⟨⟨⟨⟨?_, ?_, ?_, ?_, ?_, ?_, ?_⟩, ?_⟩, ?_⟩, ⟨_, rfl⟩⟩
  · unfold Engine.handshake; decide
  · unfold Engine.instanceLegal; decide
  · unfold Engine.backendLegal; decide
  · unfold Engine.resultsBounded; decide
  · show _ = _; decide
  · trivial
  · intro _; exact ⟨by decide, rfl, rfl, rfl⟩
  · intro e he; cases he
  · decide

theorem witness_EveryStepKeepsMemoryCanonical : idle.mem.wf ∧ ∃ t, step idle = .next t := ⟨by decide, _, rfl⟩

/-- An APPLY of `n` bytes at `off`, ready in CHECK: the hypotheses of the statements about whole APPLYs. -/
def readyApply (off n : Word) : State := inApply .check (applySnap off n .accelerated) 0 0 none

theorem witness_ApplyTransformsItsRange : (readyApply 5 200).mem.wf ∧ applyReady ⟨7⟩ (readyApply 5 200) := by
  refine ⟨by decide, ?_⟩
  unfold applyReady
  decide

theorem witness_ApplyDoesNotDependOnBackend :
    (readyApply 5 20).mem.wf ∧ applyReady ⟨7⟩ (readyApply 5 20) ∧
    (∀ i, i < 20 → counterOpen (readyApply 5 20).plat 0 0 ((5 + i) / 16) = false) := by
  refine ⟨by decide, ?_, by decide⟩
  unfold applyReady
  decide

theorem witness_ApplyIsPartitionInvariant :
    let u := readyApply 5 3
    let w := readyApply 5 20
    u.mem.wf ∧ applyReady ⟨7⟩ u ∧ applyReady ⟨7⟩ w ∧ w.mem = u.mem ∧ 3 ≤ w.eng.snap.nd.toNat ∧ u.eng.snap.nd.toNat = 3 ∧
    u.eng.snap.off = w.eng.snap.off ∧ u.plat = w.plat ∧
    (∀ i, i < 20 → counterOpen w.plat w.eng.snap.ivH w.eng.snap.ivL ((5 + i) / 16) = false) := by
  refine ⟨by decide, ?_, ?_, rfl, by decide, by decide, rfl, rfl, by decide⟩ <;> (unfold applyReady; decide)

theorem witness_ApplyTwiceRestores :
    (readyApply 5 3).eng.snap.d = (readyApply 5 3).eng.snap.s ∧
    ∃ u', core.run (applySteps (applySnap 5 3 .accelerated)) (readyApply 5 3) = .next u' ∧
      ∃ v : State, v.mem = u'.mem ∧ applyReady ⟨7⟩ v ∧ v.plat = plat ∧ v.eng.snap = (readyApply 5 3).eng.snap := by
  refine ⟨rfl, _, rfl, (readyApply 5 3).withMem _, rfl, ?_, rfl, rfl⟩
  unfold applyReady
  simp only [State.withMem]
  decide

/-- The second piece after the first: 17 bytes from stream position 8 and address 0x103 on, over the memory the first leaves. -/
theorem witness_ApplyIsPartitionInvariant_second :
    ∃ u', core.run (applySteps (applySnap 5 3 .accelerated)) (readyApply 5 3) = .next u' ∧
      ∃ v : State, v.mem = u'.mem ∧ applyReady ⟨7⟩ v ∧ v.plat = plat ∧ v.eng.snap.nd.toNat = 20 - 3 ∧
        v.eng.snap.off.toNat = 5 + 3 ∧ v.eng.snap.s.toNat = 0x100 + 3 ∧ v.eng.snap.d.toNat = 0x100 + 3 := by
  refine ⟨_, rfl, (inApply .check { applySnap 8 17 .accelerated with s := 0x103, d := 0x103 } 0 0 none).withMem _, rfl, ?_,
    rfl, by decide, by decide, by decide, by decide⟩
  unfold applyReady
  simp only [State.withMem]
  decide

end Sys2Proof.Tests
end

section
/-! SUPPORT. How a step finds its agent (R5, R286; log entries 1 and 23), and the statement that a step runs the pending request. -/

namespace Sys2Proof.Machine

/-- The next step is this agent's and leaves these turns: the schedule names it first, or the schedule is empty and the default
one chooses it (log entry 1). -/
def scheduled (s : State) (a : Agent) (rest : List Agent) : Prop :=
  s.turns = a :: rest ∨ (s.turns = [] ∧ rest = [] ∧ nextAgent s = a)

/-- With no turn given there is none to take away. -/
theorem State.withTurns_of_eq {s : State} {t : List Agent} (h : s.turns = t) : s.withTurns t = s := h ▸ rfl

/-- A step is the step of the scheduled agent on the state without its turn. -/
theorem step_of_scheduled {s : State} {a : Agent} {rest : List Agent} (h : scheduled s a rest) :
    step s = agentStep a (s.withTurns rest) := by
  rcases h with h | ⟨h, rfl, rfl⟩
  · simp [step, advance, h]
  · simp [step, advance, h, State.withTurns_of_eq h]

/-- The default schedule chooses a busy engine at `eng` or the collaborator it waits for. -/
theorem nextAgent_of_busy {s : State} (h : s.eng.status.busy = true) : nextAgent s = mover s.eng := by
  simp [nextAgent, h]

/-- The default schedule chooses the host when no engine is busy. -/
theorem nextAgent_of_idle {s : State} (h : s.eng.status.busy = false) (ho : ∀ e ∈ s.others, e.status.busy = false) :
    nextAgent s = .host := by
  have hf : s.others.find? (fun e => e.status.busy) = none := by
    simpa [List.find?_eq_none] using ho
  simp [nextAgent, h, hf]

/-- The engine at `eng` is found first. -/
@[simp] theorem focus_eng_id (s : State) : focus (fun e => e.id == s.eng.id) s = some s := by simp [focus]

/-- The first engine of a list that satisfies the test is taken out of its place. -/
theorem pick_append {q : Engine → Bool} {before after : List Engine} {e : Engine} (hb : ∀ f ∈ before, q f = false)
    (he : q e = true) : pick q (before ++ e :: after) = some (e, before ++ after) := by
  induction before with
  | nil => simp [pick, he]
  | cons f fs ih =>
    have hf : q f = false := hb f List.mem_cons_self
    simp [pick, hf, ih fun g hg => hb g (List.mem_cons_of_mem _ hg)]

/-- An engine among the others is brought to `eng`, and the one that stood there is put before the others (R256). -/
theorem focus_other {q : Engine → Bool} {s : State} {before after : List Engine} {e : Engine}
    (ho : s.others = before ++ e :: after) (hs : q s.eng = false) (hb : ∀ f ∈ before, q f = false) (he : q e = true) :
    focus q s = some { s with eng := e, others := s.eng :: (before ++ after) } := by
  simp [focus, hs, ho, pick_append hb he]

/-- The collaborator answers the engine at `eng`. -/
theorem agentStep_cipher_self (s : State) : agentStep (.cipher s.eng.id) s = cipherStep s := by simp [agentStep]

/-- The engine at `eng` takes its step. -/
theorem agentStep_engine_self (s : State) : agentStep (.engine s.eng.id) s = engineStep s := by simp [agentStep]

/-- The collaborator's answer to a pending request is the meaning of the request's kind (R104, R108). -/
theorem cipherStep_pending {s : State} {r : Request} {i : Instr} (hr : s.eng.pend = some r)
    (hi : decodeKind r.kind = .instr i) : cipherStep s = exec i s := by
  simp [cipherStep, hr, hi]

/-- A step of the collaborator runs the request of the engine at `eng`. -/
theorem step_pending {s : State} {rest : List Agent} {r : Request} {i : Instr} (h : scheduled s (.cipher s.eng.id) rest)
    (hr : s.eng.pend = some r) (hi : decodeKind r.kind = .instr i) : step s = exec i (s.withTurns rest) :=
  calc step s = agentStep (.cipher s.eng.id) (s.withTurns rest) := step_of_scheduled h
    _ = cipherStep (s.withTurns rest) := agentStep_cipher_self _
    _ = exec i (s.withTurns rest) := cipherStep_pending hr hi

/-- Settles O6: the step is traced from the schedule through the agent found to the meaning it runs. -/
theorem stepRunsPendingRequest : Obligations.StepRunsPendingRequest := by
  unfold Obligations.StepRunsPendingRequest
  refine ⟨fun s rest => ⟨?_, ?_, ?_⟩, ?_, fun s rest h => ?_⟩
  · intro r i h hr hi
    refine step_pending ?_ hr hi
    exact h.imp_right fun ⟨ht, hrest, hb⟩ => ⟨ht, hrest, by simp [nextAgent_of_busy hb, mover, hr]⟩
  · intro ht hp
    rw [step_of_scheduled (.inl ht), ← State.withTurns_eng s rest, agentStep_cipher_self]
    simp [cipherStep, hp]
  · intro ht hb ho hp
    rw [step_of_scheduled (.inr ⟨ht, rfl, nextAgent_of_idle hb ho⟩), State.withTurns_of_eq ht]
    simp [agentStep, hostStep, hp]
  · intro s before after e rest ho hne hb ht
    have hfocus := focus_other (q := fun f => f.id == e.id) (s := s.withTurns rest) ho (by simpa using hne)
      (by simpa using hb) (by simp)
    let t : State := { s with eng := e, others := s.eng :: (before ++ after) }
    calc step s = agentStep (.cipher e.id) (s.withTurns rest) := step_of_scheduled (.inl ht)
      _ = cipherStep (t.withTurns rest) := by simp only [agentStep, hfocus]; rfl
      _ = agentStep (.cipher e.id) (t.withTurns rest) := (agentStep_cipher_self _).symm
      _ = step t := (step_of_scheduled (s := t) (.inl ht)).symm
  · have hstep : step s = hostStep (s.withTurns rest) :=
      step_of_scheduled (h.imp_right fun ⟨ht, hrest, hb, ho⟩ => ⟨ht, hrest, nextAgent_of_idle hb ho⟩)
    constructor
    · intro op ops hp
      simp [hstep, hostStep, hp]
    · intro hp
      simp [hstep, hostStep, hp]

end Sys2Proof.Machine
end

section
/-! SUPPORT. The split of a range (R140) and the keystream of a block and of a batch (R107, R125). -/

namespace Sys2Proof.Machine

/-! The split. -/

/-- The three segments make up the range. -/
theorem split_sum (off n : Nat) : (split off n).lead + 16 * (split off n).nfull + (split off n).trail = n := by
  simp only [split]
  omega

/-- The segments of a snapshot make up its range. -/
theorem Snap.split_sum (sn : Snap) : sn.split.lead + 16 * sn.split.nfull + sn.split.trail = sn.nd.toNat :=
  Machine.split_sum _ _

/-- LEAD stays within one block. -/
theorem split_lead_fits (off n : Nat) : off % 16 + (split off n).lead ≤ 16 := by
  simp only [split]
  omega

/-- TRAIL is shorter than a block. -/
theorem split_trail_lt (off n : Nat) : (split off n).trail < 16 := by
  simp only [split]
  omega

/-- LEAD ends at a block boundary, unless it is the whole range. -/
theorem split_lead_aligned (off n : Nat) (h : (split off n).lead < n) : (off + (split off n).lead) % 16 = 0 := by
  simp only [split] at *
  omega

/-! Counters. -/

/-- If a counter overflows, so does every later one. -/
theorem ctrOverflows_mono {ivH ivL : Word} {b c : Nat} (h : ctrOverflows ivH ivL b = true) (hbc : b ≤ c) :
    ctrOverflows ivH ivL c = true := by
  simp only [ctrOverflows, Bool.and_eq_true, decide_eq_true_eq] at *
  exact ⟨h.1, by omega⟩

@[simp] theorem ivHigh_ivBlock (h l : Word) : ivHigh (ivBlock h l) = h :=
  BitVec.extractLsb'_append_eq_left

@[simp] theorem ivLow_ivBlock (h l : Word) : ivLow (ivBlock h l) = l :=
  BitVec.extractLsb'_append_eq_right

/-! Keystream. -/

theorem blockBytes_getD (x : Block) {j : Nat} (h : j < 16) : (blockBytes x).getD j 0 = blockByte x j := by
  simp [List.getD, blockBytes_getElem? x j h]

theorem Memory.readN_getD (m : Memory) (a : Nat) {n i : Nat} (h : i < n) : (m.readN a n).getD i 0 = m.read (a + i) := by
  simp [List.getD, Memory.readN_getElem? m a n i h]

/-- Where the counter's result is not open, byte `i` of a keystream block is the keystream byte of its stream position (R125). -/
theorem blockByte_keyBlock {p : Plat} {ivH ivL : Word} {b pos i : Nat} (q : Nat) (k : Sched) (hb : pos / 16 = b)
    (hi : pos % 16 = i) (h : counterOpen p ivH ivL b = false) :
    blockByte (keyBlock p q k ivH ivL b) i = keystreamAt k ivH ivL pos := by
  subst hb hi
  simp [keyBlock, h, keystreamAt, keystreamByte]

/-- The rest of the block that holds stream position `pos` is the keystream from `pos` on. -/
theorem keyBlock_drop_getD {p : Plat} {ivH ivL : Word} {pos i : Nat} (q : Nat) (k : Sched) (hi : pos % 16 + i < 16)
    (h : counterOpen p ivH ivL ((pos + i) / 16) = false) :
    ((blockBytes (keyBlock p q k ivH ivL (pos / 16))).drop (pos % 16)).getD i 0 = keystreamAt k ivH ivL (pos + i) := by
  have hb : (pos + i) / 16 = pos / 16 := by omega
  rw [hb] at h
  calc ((blockBytes (keyBlock p q k ivH ivL (pos / 16))).drop (pos % 16)).getD i 0
      = blockByte (keyBlock p q k ivH ivL (pos / 16)) (pos % 16 + i) := by
        simp [List.getD, blockBytes_getElem? _ _ hi]
    _ = keystreamAt k ivH ivL (pos + i) := blockByte_keyBlock q k hb (by omega) h

/-- Byte `j` of lane `l` of a batch is byte `j` of the lane's keystream block (R107). -/
theorem laneStream_getD (p : Plat) (q : Nat) (k : Sched) (iv : Block) (start : Word) {w l j : Nat} (hl : l < w) (hj : j < 16) :
    (laneStream p q k iv start w).getD (16 * l + j) 0 =
      blockByte (keyBlock p (q + l) k (ivHigh iv) (ivLow iv) (start.toNat + l)) j := by
  induction w with
  | zero => omega
  | succ w ih =>
    have hcut : laneStream p q k iv start (w + 1) = laneStream p q k iv start w ++
        blockBytes (keyBlock p (q + w) k (ivHigh iv) (ivLow iv) (start.toNat + w)) := by
      simp [laneStream, List.range_succ, List.flatMap_append]
    rw [hcut]
    by_cases hlw : l < w
    · rw [List.getD_append _ _ _ _ (by simp; omega), ih hlw]
    · obtain rfl : l = w := by omega
      rw [List.getD_append_right _ _ _ _ (by simp)]
      simpa using blockBytes_getD _ hj

/-- A batch whose data has sixteen bytes a lane stores as many. -/
theorem batchOut_length (p : Plat) (q : Nat) (k : Sched) (iv : Block) (start : Word) {w : Nat} {data : List Byte}
    (h : data.length = 16 * w) : (batchOut p q k iv start w data).length = 16 * w := by
  simp [batchOut, h]

/-- Byte `i` of what a batch at a block boundary stores is the source byte XOR the keystream byte of its position, where the
counter's result is not open (R107, R141). -/
theorem batchOut_getD {p : Plat} {ivH ivL : Word} {pos w i : Nat} (q : Nat) (k : Sched) (m : Memory) (a : Nat)
    (hpos : pos % 16 = 0) (hw : pos / 16 < 2 ^ 64) (hi : i < 16 * w) (h : counterOpen p ivH ivL ((pos + i) / 16) = false) :
    (batchOut p q k (ivBlock ivH ivL) (BitVec.ofNat 64 (pos / 16)) w (m.readN a (16 * w))).getD i 0 =
      m.read (a + i) ^^^ keystreamAt k ivH ivL (pos + i) := by
  have hlane : (laneStream p q k (ivBlock ivH ivL) (BitVec.ofNat 64 (pos / 16)) w).getD i 0 =
      keystreamAt k ivH ivL (pos + i) := by
    have hcut := laneStream_getD p q k (ivBlock ivH ivL) (BitVec.ofNat 64 (pos / 16)) (w := w) (l := i / 16) (j := i % 16)
      (by omega) (by omega)
    rw [Nat.div_add_mod, ivHigh_ivBlock, ivLow_ivBlock, BitVec.toNat_ofNat, Nat.mod_eq_of_lt hw] at hcut
    rw [hcut]
    have hb : (pos + i) / 16 = pos / 16 + i / 16 := by omega
    exact blockByte_keyBlock _ k hb (by omega) (hb ▸ h)
  have hdata := m.readN_getD a hi
  have hlen : i < (laneStream p q k (ivBlock ivH ivL) (BitVec.ofNat 64 (pos / 16)) w).length := by simpa using hi
  have hlen' : i < (m.readN a (16 * w)).length := by simpa using hi
  rw [List.getD_eq_getElem _ _ hlen] at hlane
  rw [List.getD_eq_getElem _ _ hlen'] at hdata
  rw [batchOut, List.getD_eq_getElem _ _ (by simpa using hi), List.getElem_zipWith, hlane, hdata, xornByte]

end Sys2Proof.Machine
end

section
/-! SUPPORT. Runs of the machine one after the other, and ranges that coincide or share no byte (R213). -/

namespace Sys2Proof.Machine

/-! Runs. -/

theorem run_succ {s t : State} (n : Nat) (h : step s = .next t) : core.run (n + 1) s = core.run n t := by
  have hc : core.step s = .next t := h
  simp only [Host.Core.run, hc]

/-- Runs of at least one step that begin with the same outcome are the same. -/
theorem run_congr {s t : State} (n : Nat) (h : step s = step t) : core.run (n + 1) s = core.run (n + 1) t := by
  have hc : core.step s = core.step t := h
  simp only [Host.Core.run, hc]

theorem run_one {s t : State} (h : step s = .next t) : core.run 1 s = .next t := run_succ 0 h

theorem run_two {s t u : State} (h : step s = .next t) (h' : step t = .next u) : core.run 2 s = .next u :=
  (run_succ 1 h).trans (run_one h')

theorem run_add {s t : State} {a b : Nat} (h : core.run a s = .next t) : core.run (a + b) s = core.run b t := by
  induction a generalizing s with
  | zero =>
    obtain rfl : s = t := Host.Outcome.next.inj h
    rw [Nat.zero_add]
  | succ a ih =>
    cases hs : step s with
    | next u =>
      rw [run_succ _ hs] at h
      rw [Nat.add_right_comm, run_succ _ hs, ih h]
    | fault r =>
      have hc : core.step s = .fault r := hs
      simp [Host.Core.run, hc] at h
    | refused r =>
      have hc : core.step s = .refused r := hs
      simp [Host.Core.run, hc] at h

/-! The ranges of an APPLY. -/

/-- The ranges of `n` bytes at `d` and `s` coincide or share no byte (R213). -/
def rangesApart (d s n : Nat) : Prop := d = s ∨ overlap d s n = false

theorem rangesApart_part {d s n pos m : Nat} (h : rangesApart d s n) (hm : pos + m ≤ n) :
    rangesApart (d + pos) (s + pos) m := by
  simp only [rangesApart, overlap, Bool.and_eq_false_iff, decide_eq_false_iff_not] at *
  omega

/-- No byte of the source from `pos` on lies in the first `pos` bytes of the destination. -/
theorem rangesApart_source {d s n pos i : Nat} (h : rangesApart d s n) (hi : pos + i < n) :
    s + (pos + i) < d ∨ d + pos ≤ s + (pos + i) := by
  simp only [rangesApart, overlap, Bool.and_eq_false_iff, decide_eq_false_iff_not] at h
  omega

/-- CHECK passes only ranges that coincide or share no byte. -/
theorem rangesApart_of_applyCheck {p : Plat} {kv : Bool} {sn : Snap} (h : applyCheck p kv sn = none) :
    rangesApart sn.d.toNat sn.s.toNat sn.nd.toNat := by
  have ho : ¬ (overlap sn.d.toNat sn.s.toNat sn.nd.toNat = true ∧ sn.d ≠ sn.s) := by
    unfold applyCheck at h
    split_ifs at h
    assumption
  by_cases hd : sn.d = sn.s
  · exact .inl (congrArg BitVec.toNat hd)
  · exact .inr (Bool.eq_false_iff.2 fun hov => ho ⟨hov, hd⟩)

end Sys2Proof.Machine
end

section
/-! SUPPORT. A whole APPLY (R145 to R152, R285): the predicate `Reached` says how far a running APPLY has come, one lemma for each
micro-step carries it on, and `apply_run` puts them together. -/

namespace Sys2Proof.Machine

/-! How far an APPLY has come. -/

/-- What an APPLY has done to memory after its first `pos` bytes: R141 up to there, for bytes whose counter's result is not open. -/
def appliedFirst (p : Plat) (k : Sched) (sn : Snap) (pos : Nat) (m m' : Memory) : Prop :=
  (∀ i, i < pos → counterOpen p sn.ivH sn.ivL ((sn.off.toNat + i) / 16) = false →
    m'.read (sn.d.toNat + i) = m.read (sn.s.toNat + i) ^^^ keystreamAt k sn.ivH sn.ivL (sn.off.toNat + i)) ∧
  (∀ a, a < sn.d.toNat ∨ sn.d.toNat + pos ≤ a → m'.read a = m.read a)

theorem appliedFirst_zero (p : Plat) (k : Sched) (sn : Snap) (m : Memory) : appliedFirst p k sn 0 m m :=
  ⟨fun i hi => absurd hi (Nat.not_lt_zero i), fun _ _ => rfl⟩

/-- A segment of `n` bytes from `pos` on carries an APPLY on: its source bytes are still those of the start. -/
theorem appliedFirst_extend {p : Plat} {k : Sched} {sn : Snap} {pos n : Nat} {m₀ m m' : Memory}
    (h : appliedFirst p k sn pos m₀ m) (hr : rangesApart sn.d.toNat sn.s.toNat sn.nd.toNat) (hn : pos + n ≤ sn.nd.toNat)
    (hin : ∀ i, i < n → counterOpen p sn.ivH sn.ivL ((sn.off.toNat + pos + i) / 16) = false →
      m'.read (sn.d.toNat + pos + i) =
        m.read (sn.s.toNat + pos + i) ^^^ keystreamAt k sn.ivH sn.ivL (sn.off.toNat + pos + i))
    (hout : ∀ a, a < sn.d.toNat + pos ∨ sn.d.toNat + pos + n ≤ a → m'.read a = m.read a) :
    appliedFirst p k sn (pos + n) m₀ m' := by
  obtain ⟨hdone, hrest⟩ := h
  refine ⟨fun i hi hc => ?_, fun a ha => ?_⟩
  · by_cases hip : i < pos
    · rw [hout _ (by omega), hdone i hip hc]
    · obtain ⟨j, rfl⟩ := Nat.exists_eq_add_of_le (Nat.le_of_not_lt hip)
      have hsrc : m.read (sn.s.toNat + (pos + j)) = m₀.read (sn.s.toNat + (pos + j)) :=
        hrest _ (rangesApart_source hr (by omega))
      have hj := hin j (by omega) (by simpa [Nat.add_assoc] using hc)
      simp only [Nat.add_assoc] at hj hsrc ⊢
      rw [hj, hsrc]
  · rw [hout a (by omega), hrest a (by omega)]

/-- The state without what the micro-steps of an APPLY may change. -/
def State.forget (s : State) : State :=
  { s with
    eng := { s.eng with
      phase := .idle, cur := Cursors.zero, scratch := 0, pend := none, status := { s.eng.status with ctrWrap := false } }
    mem := [], windows := [], draws := 0 }

/-- The open windows once the running APPLY has written its first `pos` bytes (R77). -/
def windowsAt (s₀ : State) (pos : Nat) : List Window :=
  if pos = 0 then s₀.windows else markWritten s₀.eng.id (s₀.eng.snap.d.toNat + pos) s₀.windows

/-- Whether a block of the first `pos` bytes has a counter that overflows (R130). -/
def wrapsAt (sn : Snap) (pos : Nat) : Bool :=
  decide (0 < pos ∧ ctrOverflows sn.ivH sn.ivL ((sn.off.toNat + pos - 1) / 16) = true)

/-- The flag after a segment is the flag before it, or that its last counter overflows. -/
theorem wrapsAt_extend (sn : Snap) (pos : Nat) {n : Nat} (hn : 0 < n) :
    (wrapsAt sn pos || ctrOverflows sn.ivH sn.ivL ((sn.off.toNat + pos + n - 1) / 16)) = wrapsAt sn (pos + n) := by
  have hlast : wrapsAt sn (pos + n) = ctrOverflows sn.ivH sn.ivL ((sn.off.toNat + pos + n - 1) / 16) := by
    simp [wrapsAt, Nat.add_assoc, show 0 < pos + n by omega]
  rw [hlast, Bool.or_eq_right_iff_imp]
  intro h
  simp only [wrapsAt, decide_eq_true_eq] at h
  exact ctrOverflows_mono h.2 (by omega)

/-- The cursors of a running APPLY at `pos` with `nleft` blocks left (R39). -/
def cursorsAt (sn : Snap) (pos nleft : Nat) : Cursors :=
  { n := sn.nd.toNat, pos := pos, p := sn.off.toNat + pos, nleft := nleft }

/-- Cursors moved past a segment, with the blocks left after it. -/
theorem cursorsAt_advance (sn : Snap) (pos n nl nl' : Nat) :
    { (cursorsAt sn pos nl).advance n with nleft := nl' } = cursorsAt sn (pos + n) nl' := by
  simp [cursorsAt, Cursors.advance, Nat.add_assoc]

/-- The running APPLY that started in `s₀` stands at the beginning of a micro-step of `ph` with no request pending, has combined its
first `pos` bytes with keystream of schedule `k`, and has `nleft` blocks left. -/
structure Reached (k : Sched) (s₀ : State) (ph : Phase) (pos nleft : Nat) (s : State) : Prop where
  frame : s.forget = s₀.forget
  phase : s.eng.phase = ph
  pend : s.eng.pend = none
  cur : s.eng.cur = cursorsAt s₀.eng.snap pos nleft
  wrap : s.eng.status.ctrWrap = (s₀.eng.status.ctrWrap || wrapsAt s₀.eng.snap pos)
  windows : s.windows = windowsAt s₀ pos
  wf : s.mem.wf
  applied : appliedFirst s₀.plat k s₀.eng.snap pos s₀.mem s.mem

namespace Reached

variable {k : Sched} {s₀ s : State} {ph : Phase} {pos nl : Nat}

theorem snap (h : Reached k s₀ ph pos nl s) : s.eng.snap = s₀.eng.snap := congrArg (·.eng.snap) h.frame
theorem engineId (h : Reached k s₀ ph pos nl s) : s.eng.id = s₀.eng.id := congrArg (·.eng.id) h.frame
theorem sched (h : Reached k s₀ ph pos nl s) : s.eng.sched = s₀.eng.sched := congrArg (·.eng.sched) h.frame
theorem busy (h : Reached k s₀ ph pos nl s) : s.eng.status.busy = s₀.eng.status.busy := congrArg (·.eng.status.busy) h.frame
theorem turns (h : Reached k s₀ ph pos nl s) : s.turns = s₀.turns := congrArg (·.turns) h.frame
theorem held (h : Reached k s₀ ph pos nl s) : s.held = s₀.held := congrArg (·.held) h.frame
theorem plat (h : Reached k s₀ ph pos nl s) : s.plat = s₀.plat := congrArg (·.plat) h.frame

/-- The note of what the command has written leaves the bytes a race has hit in it. -/
theorem raced (h : Reached k s₀ ph pos nl s) : racedNow s = racedNow s₀ := by
  have hw : racedNow s = racedNow (s₀.withWindows (windowsAt s₀ pos)) := by
    simp [racedNow, h.windows, h.engineId]
  rw [hw, windowsAt]
  split
  · rfl
  · exact racedNow_events (fun _ _ => 0) (fun _ b => b) (s₀.eng.snap.d.toNat + pos) 0 s₀

end Reached

/-! What a ready APPLY meets. -/

namespace applyReady

variable {k : Sched} {s : State}

theorem sched (h : applyReady k s) : s.eng.sched = some k := by
  obtain ⟨-, -, -, -, -, -, hsched, -⟩ := h
  exact hsched

theorem held (h : applyReady k s) : (s.eng.id, k) ∈ s.held := by
  obtain ⟨-, -, -, -, -, -, -, hheld, -⟩ := h
  exact hheld

theorem raced (h : applyReady k s) : racedNow s = [] := by
  obtain ⟨-, -, -, -, -, -, -, -, -, -, hraced⟩ := h
  exact hraced

theorem apart (h : applyReady k s) : rangesApart s.eng.snap.d.toNat s.eng.snap.s.toNat s.eng.snap.nd.toNat := by
  obtain ⟨-, -, -, -, -, hcheck, -⟩ := h
  exact rangesApart_of_applyCheck hcheck

theorem srcPort (h : applyReady k s) {pos n : Nat} (hn : pos + n ≤ s.eng.snap.nd.toNat) :
    portStop s.plat (s.eng.snap.s.toNat + pos) n = none := by
  obtain ⟨-, -, -, -, -, -, -, -, hsrc, -⟩ := h
  exact portStop_part hsrc (by omega) (by omega)

theorem dstPort (h : applyReady k s) {pos n : Nat} (hn : pos + n ≤ s.eng.snap.nd.toNat) :
    portStop s.plat (s.eng.snap.d.toNat + pos) n = none := by
  obtain ⟨-, -, -, -, -, -, -, -, -, hdst, -⟩ := h
  exact portStop_part hdst (by omega) (by omega)

end applyReady

/-! The steps of a running APPLY. -/

section
variable {k : Sched} {s₀ s : State} {ph : Phase} {pos nl : Nat}

/-- An engine that is not idle after an APPLY's CMD write runs the APPLY (R95). -/
theorem engineStep_apply {s : State} (hph : s.eng.phase ≠ .idle) (hop : s.eng.snap.op = 2) : engineStep s = execApply s := by
  have hdec : decodeCmd s.eng.snap.op = .instr .apply := by
    rw [hop]
    rfl
  simp [engineStep, hph, hdec, exec]

/-- Under the default schedule a busy engine with no request pending moves, and its step is the APPLY's. -/
theorem step_eq_execApply {s : State} (hturns : s.turns = []) (hbusy : s.eng.status.busy = true) (hpend : s.eng.pend = none)
    (hop : s.eng.snap.op = 2) (hph : s.eng.phase ≠ .idle) : step s = execApply s := by
  have hsched : scheduled s (.engine s.eng.id) [] :=
    .inr ⟨hturns, rfl, by simp [nextAgent_of_busy hbusy, mover, hpend]⟩
  rw [step_of_scheduled hsched, State.withTurns_of_eq hturns, agentStep_engine_self, engineStep_apply hph hop]

/-- With no request pending a running APPLY takes its own step. -/
theorem Reached.step_apply (h : Reached k s₀ ph pos nl s) (h₀ : applyReady k s₀) (hph : ph ≠ .idle) :
    step s = execApply s := by
  obtain ⟨hturns, -, hbusy, -, hop, -⟩ := h₀
  exact step_eq_execApply (h.turns.trans hturns) (h.busy.trans hbusy) h.pend (by rw [h.snap, hop]) (by rwa [h.phase])

/-- CHECK passes the checks and goes to LEAD (R147). -/
theorem check_run (h₀ : applyReady k s₀) (hm : s₀.mem.wf) :
    ∃ t, core.run 1 s₀ = .next t ∧ Reached k s₀ .lead 0 s₀.eng.cur.nleft t := by
  obtain ⟨hturns, hphase, hbusy, hpend, hop, hcheck, -⟩ := h₀
  have hstep : step s₀ = microCheck s₀ := by
    rw [step_eq_execApply hturns hbusy hpend hop (by simp [hphase])]
    simp [execApply, hphase, hpend]
  refine ⟨_, run_one (hstep.trans (by rw [microCheck, hcheck])), ?_⟩
  exact ⟨rfl, rfl, hpend, by simp [cursorsAt], by simp [wrapsAt], by simp [windowsAt, goto, setCur], hm, appliedFirst_zero _ _ _ _⟩

/-- With a request pending the collaborator moves and answers it. -/
theorem Reached.step_issued (h : Reached k s₀ ph pos nl s) (h₀ : applyReady k s₀) {r : Request} {i : Instr} (ov : Bool)
    (hi : decodeKind r.kind = .instr i) : step (issue r ov s) = exec i (issue r ov s) := by
  obtain ⟨hturns, -, hbusy, -⟩ := h₀
  have hsched : scheduled (issue r ov s) (.cipher s.eng.id) [] :=
    .inr ⟨h.turns.trans hturns, rfl, nextAgent_of_busy (s := issue r ov s) (h.busy.trans hbusy)⟩
  have hs := step_pending hsched rfl hi
  rwa [State.withTurns_of_eq (s := issue r ov s) (h.turns.trans hturns)] at hs

/-! Segments. -/

/-- The state before the byte events of an answer: the request was issued with the flag `ov` and is no longer pending. -/
def segmentStart (ov : Bool) (x : Block) (q : Nat) (s : State) : State :=
  (s.withEng { s.eng with pend := none, status := s.eng.status.flagWrap ov, scratch := x }).withDraws q

/-- The state after the answer has moved `n` bytes to `dst`: PHASE and the cursors hold what the micro-step leaves there. -/
def segmentDone (get : Memory → Nat → Byte) (out : Nat → Byte → Byte) (dst n : Nat) (ph : Phase) (c : Cursors) (s : State) : State :=
  let u := events get out dst n s
  u.withEng { u.eng with phase := ph, cur := c }

/-- A segment whose bytes are the source bytes XOR the keystream carries the APPLY on. -/
theorem Reached.segment (h : Reached k s₀ ph pos nl s) (h₀ : applyReady k s₀) {n : Nat} (hn : 0 < n)
    (hpos : pos + n ≤ s₀.eng.snap.nd.toNat) {get : Memory → Nat → Byte} {out : Nat → Byte → Byte}
    (hg : getsOwn get (s₀.eng.snap.d.toNat + pos) n s.mem)
    (hbyte : ∀ i, i < n →
      counterOpen s₀.plat s₀.eng.snap.ivH s₀.eng.snap.ivL ((s₀.eng.snap.off.toNat + pos + i) / 16) = false →
      out i (get s.mem i) = s.mem.read (s₀.eng.snap.s.toNat + pos + i) ^^^
        keystreamAt k s₀.eng.snap.ivH s₀.eng.snap.ivL (s₀.eng.snap.off.toNat + pos + i))
    {b : Nat} (hb : b = (s₀.eng.snap.off.toNat + pos + n - 1) / 16) (x : Block) (q : Nat) (ph' : Phase) (nl' : Nat) :
    Reached k s₀ ph' (pos + n) nl'
      (segmentDone get out (s₀.eng.snap.d.toNat + pos) n ph' (cursorsAt s₀.eng.snap (pos + n) nl')
        (segmentStart (ctrOverflows s₀.eng.snap.ivH s₀.eng.snap.ivL b) x q s)) := by
  have hr : racedNow (segmentStart (ctrOverflows s₀.eng.snap.ivH s₀.eng.snap.ivL b) x q s) = [] := h.raced.trans h₀.raced
  constructor
  case frame => exact h.frame
  case phase => rfl
  case pend => rfl
  case cur => rfl
  case wrap =>
    subst hb
    rw [← wrapsAt_extend _ _ hn, ← Bool.or_assoc, ← h.wrap]
    rfl
  case windows =>
    have hw : pos + n ≠ 0 := by omega
    simp only [segmentDone, segmentStart, State.withEng_windows, events_windows, State.withDraws_windows, State.withDraws_eng,
      State.withEng_eng, h.windows, h.engineId, windowsAt, hw, if_false, Nat.add_assoc]
    split <;> simp
  case wf => exact events_wf _ _ _ _ _ h.wf
  case applied =>
    refine appliedFirst_extend h.applied h₀.apart hpos (fun i hi hc => ?_) (fun a ha => ?_)
    · rw [← hbyte i hi hc]
      exact events_read_inside _ _ _ _ (segmentStart _ x q s) h.wf hg i hi (by simp [hr])
    · exact events_read_outside _ _ _ _ _ a ha

/-! Segments of one block. -/

/-- The keystream block the answer to an ENC1 at stream position `p` gives (R106, R125). -/
def answerBlock (k : Sched) (sn : Snap) (p : Nat) (s : State) : Block :=
  keyBlock s.plat s.draws k sn.ivH sn.ivL (p / 16)

/-- The request of an ENC1 at stream position `p` (R106). -/
def blockRequest (k : Sched) (sn : Snap) (p : Nat) : Request := .enc1 k (ctr sn.ivH sn.ivL (BitVec.ofNat 64 (p / 16)))

/-- The state after an ENC1 has completed a segment of `n` bytes within one block. -/
def blockDone (k : Sched) (sn : Snap) (pos n : Nat) (x : Block) (ph : Phase) (nl : Nat) (ov : Bool) (s : State) : State :=
  let ks := (blockBytes (answerBlock k sn (sn.off.toNat + pos) s)).drop ((sn.off.toNat + pos) % 16)
  segmentDone (fun m i => m.read (sn.s.toNat + pos + i)) (fun i b => xornByte b (ks.getD i 0)) (sn.d.toNat + pos) n ph
    (cursorsAt sn (pos + n) nl) (segmentStart ov x (s.draws + 1) s)

/-- A segment within one block that takes its keystream from an ENC1's answer carries the APPLY on (R193 to R195). -/
theorem Reached.block (h : Reached k s₀ ph pos nl s) (h₀ : applyReady k s₀) {n : Nat} (hn : 0 < n)
    (hpos : pos + n ≤ s₀.eng.snap.nd.toNat) (hfit : (s₀.eng.snap.off.toNat + pos) % 16 + n ≤ 16) (x : Block) (ph' : Phase)
    (nl' : Nat) : Reached k s₀ ph' (pos + n) nl' (blockDone k s₀.eng.snap pos n x ph' nl'
      (ctrOverflows s₀.eng.snap.ivH s₀.eng.snap.ivL ((s₀.eng.snap.off.toNat + pos) / 16)) s) := by
  refine h.segment h₀ hn hpos (getsOwn_source _ _ _ _ (rangesApart_part h₀.apart hpos)) (fun i hi hc => ?_) (by omega) _ _ _ _
  rw [answerBlock, h.plat, keyBlock_drop_getD _ _ (by omega) hc, xornByte]

/-- The issue of an ENC1 and the answer that completes the segment are two steps (log entry 7). -/
theorem Reached.block_run (h : Reached k s₀ ph pos nl s) (h₀ : applyReady k s₀) (hph : ph ≠ .idle)
    (hissue : execApply s = issueBlock (s.eng.cur.p / 16) s) {n : Nat} (hn : 0 < n) (hpos : pos + n ≤ s₀.eng.snap.nd.toNat)
    (hfit : (s₀.eng.snap.off.toNat + pos) % 16 + n ≤ 16) (x : Block) {ph' : Phase} {nl' : Nat}
    (hanswer : ∀ ov, execEnc1 (issue (blockRequest k s₀.eng.snap (s₀.eng.snap.off.toNat + pos)) ov s) =
      .next (blockDone k s₀.eng.snap pos n x ph' nl' ov s)) :
    ∃ t, core.run 2 s = .next t ∧ Reached k s₀ ph' (pos + n) nl' t := by
  have hissued : step s = .next (issue (blockRequest k s₀.eng.snap (s₀.eng.snap.off.toNat + pos))
      (ctrOverflows s₀.eng.snap.ivH s₀.eng.snap.ivL ((s₀.eng.snap.off.toNat + pos) / 16)) s) := by
    rw [h.step_apply h₀ hph, hissue, issueBlock_next]
    exact ⟨k, h.sched.trans h₀.sched, by simp [h.snap, h.cur, cursorsAt, blockRequest]⟩
  exact ⟨_, run_two hissued ((h.step_issued (i := .enc1) h₀ _ rfl).trans (hanswer _)), h.block h₀ hn hpos hfit x ph' nl'⟩

/-- What an answer to an ENC1 gives the waiting micro-step. -/
theorem Reached.responseBlock_issued (h : Reached k s₀ ph pos nl s) (r : Request) (ov : Bool) :
    responseBlock k (ctr s₀.eng.snap.ivH s₀.eng.snap.ivL (BitVec.ofNat 64 ((s₀.eng.snap.off.toNat + pos) / 16)))
      (issue r ov s) = answerBlock k s₀.eng.snap (s₀.eng.snap.off.toNat + pos) s := by
  have hdraws : (issue r ov s).draws = s.draws := rfl
  simp [responseBlock, answerBlock, keyBlock, h.snap, h.cur, cursorsAt, hdraws]

/-- The transfer of an answer to an ENC1 completes its micro-step. -/
theorem Reached.transfer_done (h : Reached k s₀ ph pos nl s) (h₀ : applyReady k s₀) {n : Nat}
    (hpos : pos + n ≤ s₀.eng.snap.nd.toNat) (hfit : (s₀.eng.snap.off.toNat + pos) % 16 + n ≤ 16) (x : Block) (ov : Bool)
    {ph' : Phase} {nl' : Nat} {go : State → Result}
    (hgo : ∀ u : State, u.eng.phase = ph → u.eng.cur = cursorsAt s₀.eng.snap pos nl →
      go u = .next (u.withEng { u.eng with phase := ph', cur := cursorsAt s₀.eng.snap (pos + n) nl' })) :
    transfer (s₀.eng.snap.s.toNat + pos) (s₀.eng.snap.d.toNat + pos) n
        ((blockBytes (answerBlock k s₀.eng.snap (s₀.eng.snap.off.toNat + pos) s)).drop ((s₀.eng.snap.off.toNat + pos) % 16))
        (segmentStart ov x (s.draws + 1) s) go =
      .next (blockDone k s₀.eng.snap pos n x ph' nl' ov s) := by
  have hplat : (segmentStart ov x (s.draws + 1) s).plat = s₀.plat := h.plat
  rw [transfer_ready (by simp; omega) (by rw [hplat]; exact h₀.srcPort hpos) (by rw [hplat]; exact h₀.dstPort hpos)]
  exact hgo _ h.phase h.cur

/-- The collaborator holds the schedule of a running APPLY's request. -/
theorem Reached.withSchedule_issued (h : Reached k s₀ ph pos nl s) (h₀ : applyReady k s₀) (r : Request) (ov : Bool) (go : Result) :
    withSchedule k (issue r ov s) go = go := by
  have hheld : ((issue r ov s).eng.id, k) ∈ (issue r ov s).held := by
    rw [show (issue r ov s).held = s.held from rfl, h.held, issue_eng, h.engineId]
    exact h₀.held
  exact if_pos hheld

/-- LEAD's completion is a transfer at the start of both ranges. -/
theorem leadDone_issued (r : Request) (ov : Bool) (y : Block) (q : Nat) (s : State) :
    leadDone y ((answered (issue r ov s)).withDraws q) =
      transfer s.eng.snap.s.toNat s.eng.snap.d.toNat s.eng.snap.split.lead ((blockBytes y).drop (s.eng.cur.p % 16))
        (segmentStart ov y q s) fun u => .next (goto .full
          (setCur { (u.eng.cur.advance s.eng.snap.split.lead) with nleft := s.eng.snap.split.nfull } u)) := rfl

/-- BATCH1's completion is a transfer of a whole block at the cursor. -/
theorem batchOneDone_issued (r : Request) (ov : Bool) (y : Block) (q : Nat) (s : State) :
    batchOneDone y ((answered (issue r ov s)).withDraws q) =
      transfer (s.eng.snap.s.toNat + s.eng.cur.pos) (s.eng.snap.d.toNat + s.eng.cur.pos) 16 (blockBytes y)
        (segmentStart ov s.eng.scratch q s) fun u => .next
          (setCur { (u.eng.cur.advance 16) with nleft := u.eng.cur.nleft - 1 } u) := rfl

/-- TRAIL's completion is a transfer at the cursor. -/
theorem trailDone_issued (r : Request) (ov : Bool) (y : Block) (q : Nat) (s : State) :
    trailDone y ((answered (issue r ov s)).withDraws q) =
      transfer (s.eng.snap.s.toNat + s.eng.cur.pos) (s.eng.snap.d.toNat + s.eng.cur.pos) s.eng.snap.split.trail (blockBytes y)
        (segmentStart ov y q s) fun u => .next (goto .finish (setCur (u.eng.cur.advance s.eng.snap.split.trail) u)) := rfl

/-- The answer LEAD waits for completes it, with the block in SCRATCH (R148, R194). -/
theorem Reached.lead_answer (h : Reached k s₀ .lead 0 nl s) (h₀ : applyReady k s₀) (ov : Bool) :
    execEnc1 (issue (blockRequest k s₀.eng.snap (s₀.eng.snap.off.toNat + 0)) ov s) =
      .next (blockDone k s₀.eng.snap 0 s₀.eng.snap.split.lead (answerBlock k s₀.eng.snap (s₀.eng.snap.off.toNat + 0) s) .full
        s₀.eng.snap.split.nfull ov s) := by
  have hsum := s₀.eng.snap.split_sum
  have hfit : (s₀.eng.snap.off.toNat + 0) % 16 + s₀.eng.snap.split.lead ≤ 16 := split_lead_fits _ _
  refine Eq.trans ?_ (h.transfer_done (go := fun u => .next (goto .full
    (setCur { (u.eng.cur.advance s₀.eng.snap.split.lead) with nleft := s₀.eng.snap.split.nfull } u))) h₀ (by omega)
    hfit _ ov fun u _ hcur => ?_)
  · simp only [execEnc1, blockRequest, issue_eng, h.phase, h.responseBlock_issued, h.withSchedule_issued h₀, leadDone_issued]
    simp only [h.snap, h.cur]
    rfl
  · rw [hcur, cursorsAt_advance]
    rfl

/-- The answer BATCH1 waits for completes it, and SCRATCH stays (R179, R193). -/
theorem Reached.batchOne_answer (h : Reached k s₀ .full pos nl s) (h₀ : applyReady k s₀) (ov : Bool)
    (haligned : (s₀.eng.snap.off.toNat + pos) % 16 = 0) (hpos : pos + 16 ≤ s₀.eng.snap.nd.toNat) :
    execEnc1 (issue (blockRequest k s₀.eng.snap (s₀.eng.snap.off.toNat + pos)) ov s) =
      .next (blockDone k s₀.eng.snap pos 16 s.eng.scratch .full (nl - 1) ov s) := by
  refine Eq.trans ?_ (h.transfer_done (go := fun u => .next
    (setCur { (u.eng.cur.advance 16) with nleft := u.eng.cur.nleft - 1 } u)) h₀ hpos (by omega) _ ov fun u hph hcur => ?_)
  · simp only [execEnc1, blockRequest, issue_eng, h.phase, h.responseBlock_issued, h.withSchedule_issued h₀, batchOneDone_issued,
      haligned, List.drop_zero]
    simp only [h.snap, h.cur]
    rfl
  · rw [hcur, cursorsAt_advance, ← hph]
    rfl

/-- The answer TRAIL waits for completes it, with the block in SCRATCH (R151, R195). -/
theorem Reached.trail_answer (h : Reached k s₀ .trail pos nl s) (h₀ : applyReady k s₀) (ov : Bool)
    (haligned : (s₀.eng.snap.off.toNat + pos) % 16 = 0) (hpos : pos + s₀.eng.snap.split.trail ≤ s₀.eng.snap.nd.toNat) :
    execEnc1 (issue (blockRequest k s₀.eng.snap (s₀.eng.snap.off.toNat + pos)) ov s) =
      .next (blockDone k s₀.eng.snap pos s₀.eng.snap.split.trail (answerBlock k s₀.eng.snap (s₀.eng.snap.off.toNat + pos) s)
        .finish nl ov s) := by
  have htrail : s₀.eng.snap.split.trail < 16 := split_trail_lt _ _
  refine Eq.trans ?_ (h.transfer_done (go := fun u => .next
    (goto .finish (setCur (u.eng.cur.advance s₀.eng.snap.split.trail) u))) h₀ hpos (by omega) _ ov fun u hph hcur => ?_)
  · simp only [execEnc1, blockRequest, issue_eng, h.phase, h.responseBlock_issued, h.withSchedule_issued h₀, trailDone_issued,
      haligned, List.drop_zero]
    simp only [h.snap, h.cur]
    rfl
  · have hadv := cursorsAt_advance s₀.eng.snap pos s₀.eng.snap.split.trail nl nl
    rw [hcur, ← hadv]
    rfl

/-- LEAD: one step when the segment is empty, else an ENC1 (R148, R194). -/
theorem Reached.lead_run (h : Reached k s₀ .lead 0 nl s) (h₀ : applyReady k s₀) :
    ∃ t, core.run (1 + if s₀.eng.snap.split.lead = 0 then 0 else 1) s = .next t ∧
      Reached k s₀ .full s₀.eng.snap.split.lead s₀.eng.snap.split.nfull t := by
  by_cases hl : s₀.eng.snap.split.lead = 0
  · have hstep : step s = .next (goto .full (setCur { s.eng.cur with nleft := s.eng.snap.split.nfull } s)) := by
      simp [h.step_apply h₀, execApply, h.phase, h.pend, microLead, h.snap, hl]
    rw [if_pos hl, hl]
    refine ⟨_, run_one hstep, ?_⟩
    exact ⟨h.frame, rfl, h.pend, by simp [h.cur, h.snap, cursorsAt], h.wrap, h.windows, h.wf, h.applied⟩
  · have hissue : execApply s = issueBlock (s.eng.cur.p / 16) s := by
      simp [execApply, h.phase, h.pend, microLead, h.snap, hl]
    have hsum := s₀.eng.snap.split_sum
    have hfit : (s₀.eng.snap.off.toNat + 0) % 16 + s₀.eng.snap.split.lead ≤ 16 := split_lead_fits _ _
    have hrun := h.block_run h₀ (by simp) hissue (by omega) (by omega) hfit _ (h.lead_answer h₀)
    rw [Nat.zero_add] at hrun
    rwa [if_neg hl]

/-- TRAIL from the moment FULL has no blocks left: one step when the segment is empty, else an ENC1 (R149, R151, R195, log entry 8). -/
theorem Reached.trail_run (h : Reached k s₀ .full pos 0 s) (h₀ : applyReady k s₀)
    (hpos : pos + s₀.eng.snap.split.trail = s₀.eng.snap.nd.toNat)
    (haligned : s₀.eng.snap.split.trail ≠ 0 → (s₀.eng.snap.off.toNat + pos) % 16 = 0) :
    ∃ t, core.run (1 + if s₀.eng.snap.split.trail = 0 then 0 else 1) s = .next t ∧
      Reached k s₀ .finish s₀.eng.snap.nd.toNat 0 t := by
  have hgoto : Reached k s₀ .trail pos 0 (goto .trail s) :=
    ⟨h.frame, rfl, h.pend, h.cur, h.wrap, h.windows, h.wf, h.applied⟩
  have htrail : execApply (goto .trail s) = microTrail (goto .trail s) := by simp [execApply, h.pend]
  have hstep : step s = step (goto .trail s) := by
    rw [h.step_apply h₀ (by simp), hgoto.step_apply h₀ (by simp), htrail]
    simp [execApply, h.phase, h.pend, microFull, h.cur, cursorsAt]
  by_cases ht : s₀.eng.snap.split.trail = 0
  · have hend : pos = s₀.eng.snap.nd.toNat := by omega
    have hfinish : step s = .next (goto .finish (goto .trail s)) := by
      simp [hstep, hgoto.step_apply h₀, htrail, microTrail, h.snap, ht]
    rw [if_pos ht, ← hend]
    exact ⟨_, run_one hfinish, h.frame, rfl, h.pend, h.cur, h.wrap, h.windows, h.wf, h.applied⟩
  · have hissue : execApply (goto .trail s) = issueBlock ((goto .trail s).eng.cur.p / 16) (goto .trail s) := by
      simp [htrail, microTrail, h.snap, ht]
    have hlt : s₀.eng.snap.split.trail < 16 := split_trail_lt _ _
    have ha := haligned ht
    have hrun := hgoto.block_run h₀ (by simp) hissue (by omega) (by omega) (by omega) _
      fun ov => hgoto.trail_answer h₀ ov ha (by omega)
    rw [hpos] at hrun
    rwa [if_neg ht, run_congr 1 hstep]

/-! Batches of several blocks. -/

/-- The request of a batch of width `w` at stream position `p`, with the bytes of memory it combines (R107). -/
def batchRequest (w : Width) (k : Sched) (sn : Snap) (pos : Nat) (m : Memory) : Request :=
  .encb w k (ivBlock sn.ivH sn.ivL) (BitVec.ofNat 64 ((sn.off.toNat + pos) / 16)) (m.readN (sn.s.toNat + pos) (16 * w.blocks))

theorem exec_widthInstr (w : Width) (s : State) : exec (Width.instr w) s = answerBatch w s := by cases w <;> rfl

theorem decodeKind_batchRequest (w : Width) (k : Sched) (sn : Snap) (pos : Nat) (m : Memory) :
    decodeKind (batchRequest w k sn pos m).kind = .instr (Width.instr w) := by cases w <;> rfl

/-- The bytes the answer to a batch stores. -/
def batchBytes (w : Width) (k : Sched) (sn : Snap) (pos : Nat) (s : State) : List Byte :=
  batchOut s.plat s.draws k (ivBlock sn.ivH sn.ivL) (BitVec.ofNat 64 ((sn.off.toNat + pos) / 16)) w.blocks
    (s.mem.readN (sn.s.toNat + pos) (16 * w.blocks))

/-- The state after a batch has completed. -/
def batchDone (w : Width) (k : Sched) (sn : Snap) (pos nl : Nat) (ov : Bool) (s : State) : State :=
  segmentDone (fun _ i => (batchBytes w k sn pos s).getD i 0) (fun _ b => b) (sn.d.toNat + pos) (16 * w.blocks) .full
    (cursorsAt sn (pos + 16 * w.blocks) (nl - w.blocks)) (segmentStart ov s.eng.scratch (s.draws + w.blocks) s)

/-- The answer to a batch of width `w` that FULL waits for stores its bytes, if the schedule is held and the port lets them through. -/
theorem answerBatch_issued {s : State} (hph : s.eng.phase = .full) (w : Width) (k : Sched) (iv : Block) (start : Word)
    (data : List Byte) (ov : Bool) :
    answerBatch w (issue (.encb w k iv start data) ov s) =
      withSchedule k (issue (.encb w k iv start data) ov s)
        (withPort s.plat (s.eng.snap.d.toNat + s.eng.cur.pos) (16 * w.blocks)
          (.next (segmentDone (fun _ i => (batchOut s.plat s.draws k iv start w.blocks data).getD i 0) (fun _ b => b)
            (s.eng.snap.d.toNat + s.eng.cur.pos) (batchOut s.plat s.draws k iv start w.blocks data).length s.eng.phase
            { (s.eng.cur.advance (16 * w.blocks)) with nleft := s.eng.cur.nleft - w.blocks }
            (segmentStart ov s.eng.scratch (s.draws + w.blocks) s)))) := by
  have hcond : w = w ∧ s.eng.phase = .full := ⟨rfl, hph⟩
  exact if_pos hcond

/-- The answer a batch of a running APPLY waits for completes it (R107, R175). -/
theorem Reached.batch_answer (h : Reached k s₀ .full pos nl s) (h₀ : applyReady k s₀) {w : Width} (ov : Bool)
    (hpos : pos + 16 * w.blocks ≤ s₀.eng.snap.nd.toNat) :
    answerBatch w (issue (batchRequest w k s₀.eng.snap pos s.mem) ov s) = .next (batchDone w k s₀.eng.snap pos nl ov s) := by
  have hlen : (batchBytes w k s₀.eng.snap pos s).length = 16 * w.blocks := batchOut_length _ _ _ _ _ (by simp)
  have hport : portStop s.plat (s₀.eng.snap.d.toNat + pos) (16 * w.blocks) = none := by
    rw [h.plat]
    exact h₀.dstPort hpos
  rw [batchBytes] at hlen
  rw [batchRequest, answerBatch_issued h.phase, h.withSchedule_issued h₀, hlen, h.snap, h.cur, h.phase, cursorsAt_advance]
  exact withPort_next.2 ⟨hport, rfl⟩

/-- A batch at a block boundary carries the APPLY on (R176 to R178). -/
theorem Reached.batch (h : Reached k s₀ .full pos nl s) (h₀ : applyReady k s₀) {w : Width}
    (haligned : (s₀.eng.snap.off.toNat + pos) % 16 = 0) (hpos : pos + 16 * w.blocks ≤ s₀.eng.snap.nd.toNat) :
    Reached k s₀ .full (pos + 16 * w.blocks) (nl - w.blocks) (batchDone w k s₀.eng.snap pos nl
      (ctrOverflows s₀.eng.snap.ivH s₀.eng.snap.ivL ((s₀.eng.snap.off.toNat + pos) / 16 + w.blocks - 1)) s) := by
  have hw : 0 < w.blocks := by cases w <;> decide
  have hlt : (s₀.eng.snap.off.toNat + pos) / 16 < 2 ^ 64 := by omega
  refine h.segment h₀ (by omega) hpos (fun _ _ _ _ _ => rfl) (fun i hi hc => ?_) (by omega) _ _ _ _
  rw [batchBytes, h.plat]
  exact batchOut_getD _ _ _ _ haligned hlt hi hc

/-- The issue of a batch reads its source bytes and leaves the request pending (R175). -/
theorem Reached.batch_issue (h : Reached k s₀ .full pos nl s) (h₀ : applyReady k s₀) {w : Width}
    (hpos : pos + 16 * w.blocks ≤ s₀.eng.snap.nd.toNat) :
    issueBatch w s = .next (issue (batchRequest w k s₀.eng.snap pos s.mem)
      (ctrOverflows s₀.eng.snap.ivH s₀.eng.snap.ivL ((s₀.eng.snap.off.toNat + pos) / 16 + w.blocks - 1)) s) := by
  have hport : portStop s.plat (s₀.eng.snap.s.toNat + pos) (16 * w.blocks) = none := by
    rw [h.plat]
    exact h₀.srcPort hpos
  simp only [issueBatch, h.sched.trans h₀.sched, h.snap, h.cur]
  exact withPort_next.2 ⟨hport, rfl⟩

/-! FULL, FINISH and the whole APPLY. -/

/-- A batch width has a request kind of its own, or is 1. -/
theorem widthKind_width (n : Nat) (b : Backend) :
    (∃ w, widthKind (width n b) = some w ∧ w.blocks = width n b) ∨ (widthKind (width n b) = none ∧ width n b = 1) := by
  cases b with
  | portable => exact .inr ⟨rfl, rfl⟩
  | accelerated =>
    simp only [width]
    split_ifs
    · exact .inl ⟨.w8, rfl, rfl⟩
    · exact .inl ⟨.w4, rfl, rfl⟩
    · exact .inl ⟨.w2, rfl, rfl⟩
    · exact .inr ⟨rfl, rfl⟩

theorem width_le (b : Backend) {n : Nat} (hn : n ≠ 0) : width n b ≤ n := by
  cases b with
  | portable => simp only [width]; omega
  | accelerated => simp only [width]; split_ifs <;> omega

theorem width_pos (n : Nat) (b : Backend) : 0 < width n b := by
  rcases widthKind_width n b with ⟨w, -, hw⟩ | ⟨-, hw⟩
  · rw [← hw]
    cases w <;> decide
  · omega

/-- One batch of FULL: its issue and its answer (R149, R175, log entry 7). -/
theorem Reached.batch_run (h : Reached k s₀ .full pos nl s) (h₀ : applyReady k s₀) (hnl : nl ≠ 0)
    (haligned : (s₀.eng.snap.off.toNat + pos) % 16 = 0)
    (hpos : pos + 16 * width nl s₀.eng.snap.backend ≤ s₀.eng.snap.nd.toNat) :
    ∃ t, core.run 2 s = .next t ∧
      Reached k s₀ .full (pos + 16 * width nl s₀.eng.snap.backend) (nl - width nl s₀.eng.snap.backend) t := by
  have hnleft : s.eng.cur.nleft = nl := by simp [h.cur, cursorsAt]
  rcases widthKind_width nl s₀.eng.snap.backend with ⟨w, hk, hw⟩ | ⟨hk, hw⟩
  · have hstep : step s = issueBatch w s := by
      simp [h.step_apply h₀, execApply, h.phase, h.pend, microFull, hnleft, hnl, h.snap, hk]
    rw [← hw] at hpos ⊢
    have hanswer (ov : Bool) : step (issue (batchRequest w k s₀.eng.snap pos s.mem) ov s) =
        .next (batchDone w k s₀.eng.snap pos nl ov s) := by
      rw [h.step_issued h₀ ov (decodeKind_batchRequest w k s₀.eng.snap pos s.mem), exec_widthInstr, h.batch_answer h₀ ov hpos]
    exact ⟨_, run_two (hstep.trans (h.batch_issue h₀ hpos)) (hanswer _), h.batch h₀ haligned hpos⟩
  · have hissue : execApply s = issueBlock (s.eng.cur.p / 16) s := by
      simp [execApply, h.phase, h.pend, microFull, hnleft, hnl, h.snap, hk]
    rw [hw] at hpos ⊢
    exact h.block_run h₀ (by simp) hissue (by omega) hpos (by omega) _ fun ov => h.batchOne_answer h₀ ov haligned hpos

/-- FULL: all its batches (R149, R171, R285). -/
theorem Reached.full_run (h₀ : applyReady k s₀) (fuel : Nat) {nl pos : Nat} {s : State} (h : Reached k s₀ .full pos nl s)
    (hfuel : nl ≤ fuel) (haligned : nl ≠ 0 → (s₀.eng.snap.off.toNat + pos) % 16 = 0)
    (hpos : pos + 16 * nl ≤ s₀.eng.snap.nd.toNat) :
    ∃ t, core.run (2 * (batchWidths s₀.eng.snap.backend fuel nl).length) s = .next t ∧
      Reached k s₀ .full (pos + 16 * nl) 0 t := by
  induction fuel generalizing nl pos s with
  | zero =>
    obtain rfl : nl = 0 := by omega
    exact ⟨s, rfl, h⟩
  | succ fuel ih =>
    by_cases hnl : nl = 0
    · subst hnl
      exact ⟨s, rfl, h⟩
    · have hle := width_le s₀.eng.snap.backend hnl
      have hgt := width_pos nl s₀.eng.snap.backend
      have ha := haligned hnl
      obtain ⟨t, ht, hreach⟩ := h.batch_run h₀ hnl ha (by omega)
      obtain ⟨u, hu, hlast⟩ := ih hreach (by omega) (fun _ => by omega) (by omega)
      refine ⟨u, ?_, ?_⟩
      · rw [batchWidths, if_neg hnl, List.length_cons, Nat.mul_succ, Nat.add_comm, run_add ht, hu]
      · have hend : pos + 16 * width nl s₀.eng.snap.backend + 16 * (nl - width nl s₀.eng.snap.backend) = pos + 16 * nl := by
          omega
        rwa [hend] at hlast

/-- FINISH completes the command (R152). -/
theorem Reached.finish_run (h : Reached k s₀ .finish pos nl s) (h₀ : applyReady k s₀) :
    core.run 1 s = .next (complete 0 s) :=
  run_one (by simp [h.step_apply h₀, execApply, h.phase, h.pend, microFinish])

/-- A ready APPLY runs through its micro-steps to FINISH with the whole range combined, and completes with ERR = 0 (R141, R285). -/
theorem apply_run (h₀ : applyReady k s₀) (hm : s₀.mem.wf) :
    ∃ t, core.run (applySteps s₀.eng.snap) s₀ = .next (complete 0 t) ∧ Reached k s₀ .finish s₀.eng.snap.nd.toNat 0 t := by
  have hsum := s₀.eng.snap.split_sum
  have haligned : s₀.eng.snap.split.lead < s₀.eng.snap.nd.toNat →
      (s₀.eng.snap.off.toNat + s₀.eng.snap.split.lead) % 16 = 0 := split_lead_aligned _ _
  obtain ⟨a, hcheck, ha⟩ := check_run h₀ hm
  obtain ⟨b, hlead, hb⟩ := ha.lead_run h₀
  obtain ⟨c, hfull, hc⟩ := hb.full_run h₀ s₀.eng.snap.split.nfull le_rfl (fun _ => haligned (by omega)) (by omega)
  obtain ⟨d, htrail, hd⟩ := hc.trail_run h₀ (by omega) fun _ => by
    have := haligned (by omega)
    omega
  have hsteps : applySteps s₀.eng.snap =
      1 + ((1 + if s₀.eng.snap.split.lead = 0 then 0 else 1) +
        (2 * (batchWidths s₀.eng.snap.backend s₀.eng.snap.split.nfull s₀.eng.snap.split.nfull).length +
          ((1 + if s₀.eng.snap.split.trail = 0 then 0 else 1) + 1))) := by
    rw [applySteps]
    omega
  refine ⟨d, ?_, hd⟩
  rw [hsteps, run_add hcheck, run_add hlead, run_add hfull, run_add htrail, hd.finish_run h₀]

/-- A ready APPLY leaves R141's result in memory, in its canonical form. -/
theorem apply_run_appliedTo (h₀ : applyReady k s₀) (hm : s₀.mem.wf) :
    ∃ t, core.run (applySteps s₀.eng.snap) s₀ = .next t ∧ t.mem.wf ∧ appliedTo s₀.plat k s₀.eng.snap s₀.mem t.mem := by
  obtain ⟨t, hrun, hreach⟩ := apply_run h₀ hm
  exact ⟨complete 0 t, hrun, hreach.wf, hreach.applied⟩

end
end Sys2Proof.Machine
end

section
/-! SUPPORT. An APPLY of a range in two pieces (R153). -/

namespace Sys2Proof.Machine

section
variable {p : Plat} {k : Sched} {su sv sw : Snap} {m₀ m m' : Memory}

/-- Where no counter's result is open, memory after an APPLY is fixed by memory before it. -/
theorem appliedTo_unique (h : appliedTo p k sw m₀ m) (h' : appliedTo p k sw m₀ m')
    (hclosed : ∀ i, i < sw.nd.toNat → counterOpen p sw.ivH sw.ivL ((sw.off.toNat + i) / 16) = false) (a : Nat) :
    m.read a = m'.read a := by
  obtain ⟨hin, hout⟩ := h
  obtain ⟨hin', hout'⟩ := h'
  by_cases ha : a < sw.d.toNat ∨ sw.d.toNat + sw.nd.toNat ≤ a
  · rw [hout a ha, hout' a ha]
  · obtain ⟨i, rfl⟩ := Nat.exists_eq_add_of_le (show sw.d.toNat ≤ a by omega)
    have hi : i < sw.nd.toNat := by omega
    rw [hin i hi (hclosed i hi), hin' i hi (hclosed i hi)]

/-- An APPLY of the first bytes of a range is the first part of an APPLY of the whole. -/
theorem appliedFirst_of_first (h : appliedTo p k su m₀ m) (hoff : su.off = sw.off) (hs : su.s = sw.s) (hd : su.d = sw.d)
    (hivH : su.ivH = sw.ivH) (hivL : su.ivL = sw.ivL) : appliedFirst p k sw su.nd.toNat m₀ m := by
  rw [appliedTo, hoff, hs, hd, hivH, hivL] at h
  exact h

/-- An APPLY of the rest of a range, over what the first part has left, completes an APPLY of the whole. -/
theorem appliedTo_of_rest {pos : Nat} (h : appliedFirst p k sw pos m₀ m) (hv : appliedTo p k sv m m')
    (hr : rangesApart sw.d.toNat sw.s.toNat sw.nd.toNat) (hpos : pos ≤ sw.nd.toNat) (hnd : sv.nd.toNat = sw.nd.toNat - pos)
    (hoff : sv.off.toNat = sw.off.toNat + pos) (hs : sv.s.toNat = sw.s.toNat + pos) (hd : sv.d.toNat = sw.d.toNat + pos)
    (hivH : sv.ivH = sw.ivH) (hivL : sv.ivL = sw.ivL) : appliedTo p k sw m₀ m' := by
  have hend : pos + sv.nd.toNat = sw.nd.toNat := by omega
  rw [appliedTo, hoff, hs, hd, hivH, hivL] at hv
  obtain ⟨hin, hout⟩ := hv
  have hwhole := appliedFirst_extend h hr (by omega) hin hout
  rw [hend] at hwhole
  exact hwhole

end

/-- Settles O59: a whole APPLY leaves R141's result, that of the two pieces one after the other is R141's result of the whole, and
this result is unique where no counter's result is open. -/
theorem applyIsPartitionInvariant : Obligations.ApplyIsPartitionInvariant := by
  unfold Obligations.ApplyIsPartitionInvariant
  intro u w k n hwf hu hw hmem su sw hn hnd hoff hs hd hivH hivL hplat hclosed
  obtain ⟨u', hrunU, hwfU, happU⟩ := apply_run_appliedTo hu hwf
  refine ⟨u', hrunU, ?_⟩
  intro v hmemV hv hplatV sv hndV hoffV hsV hdV hivHV hivLV
  obtain ⟨v', hrunV, -, happV⟩ := apply_run_appliedTo hv (hmemV ▸ hwfU)
  obtain ⟨w', hrunW, -, happW⟩ := apply_run_appliedTo hw (hmem ▸ hwf)
  refine ⟨v', w', hrunV, hrunW, appliedTo_unique ?_ happW hclosed⟩
  rw [hplat] at happU
  rw [hplatV, hmemV] at happV
  have hfirst := appliedFirst_of_first happU hoff hs hd hivH hivL
  rw [hnd, ← hmem] at hfirst
  exact appliedTo_of_rest hfirst happV hw.apart hn hndV hoffV hsV hdV hivHV hivLV

end Sys2Proof.Machine
end

section
/-! SUPPORT. What an instruction can do when it answers a next state, said once (R145 to R152, R175 to R179, R222 to R226). -/

namespace Sys2Proof.Machine

/-- One micro-step of an APPLY in PHASE and the cursors, from engine `e`'s: the PHASE and the cursors it leaves (R147 to R151). -/
inductive CursorStep (p : Plat) (e : Engine) : Phase → Cursors → Prop
  /-- CHECK passes (R147). -/
  | check (hph : e.phase = .check) (hc : applyCheck p e.status.keyValid e.snap = none) :
      CursorStep p e .lead { n := e.snap.nd.toNat, pos := 0, p := e.snap.off.toNat, nleft := e.cur.nleft }
  /-- The leading segment is done (R148). -/
  | lead (hph : e.phase = .lead) :
      CursorStep p e .full { (e.cur.advance e.snap.split.lead) with nleft := e.snap.split.nfull }
  /-- A batch of `m` blocks is done; a request an engine issues is for no more blocks than are left (R175 to R179). -/
  | batch (m : Nat) (hph : e.phase = .full) (hm : e.pendLegal → m ≤ e.cur.nleft) :
      CursorStep p e e.phase { (e.cur.advance (16 * m)) with nleft := e.cur.nleft - m }
  /-- FULL has nothing left (R149). -/
  | full (hph : e.phase = .full) (hn : e.cur.nleft = 0) : CursorStep p e .trail e.cur
  /-- FULL has nothing left, and TRAIL is empty (R149, R151; log entry 8). -/
  | fullTrail (hph : e.phase = .full) (hn : e.cur.nleft = 0) (ht : e.snap.split.trail = 0) : CursorStep p e .finish e.cur
  /-- The trailing segment is done (R151). -/
  | trail (hph : e.phase = .trail) : CursorStep p e .finish (e.cur.advance e.snap.split.trail)

/-- The state in which the bytes of an answer move: the request is no longer pending, SCRATCH holds `x`, and the next free value is
number `q`. -/
def afterAnswer (x : Block) (q : Nat) (s : State) : State :=
  (s.withEng { s.eng with pend := none, scratch := x }).withDraws q

/-- What instruction `i` does in state `s` when it answers the next state `t`: one constructor a kind of effect. -/
inductive Effect (s : State) : Instr → State → Prop
  /-- A micro-step waits for the response to its request (R41). -/
  | waits {i : Instr} (hi : i = .construct ∨ i = .apply) (hph : s.eng.phase ≠ .idle) : Effect s i s
  /-- A command completes with a code (R246). -/
  | completes {i : Instr} (c : BitVec 4) (hi : i.isCommand = true) (hph : s.eng.phase ≠ .idle)
      (hp : s.eng.phase = .exec ∧ i ≠ .construct ∨ s.eng.pend = none) : Effect s i (complete c s)
  /-- CONSTRUCT issues EXPAND (R222). -/
  | issuesExpand {nr : BitVec 8} (hph : s.eng.phase = .exec) (hnr : roundCount s.eng.snap.keyLen.toNat = some nr) :
      Effect s .construct
        (issue (.expand nr (BitVec.ofNat 8 s.eng.snap.keyLen.toNat) (constructKey s.eng.snap)) false s)
  /-- The response to EXPAND is bound, and CONSTRUCT completes (R222). -/
  | binds {nr keylen : BitVec 8} {key : List Byte} (hph : s.eng.phase = .exec)
      (hp : s.eng.pend = some (.expand nr keylen key)) :
      Effect s .expand (complete 0 (bindInstance nr keylen (Config.expandKey nr keylen key) (answered s)))
  /-- COUNTER writes its result registers and completes (R128). -/
  | counts (hi lo : Word) (wraps : Bool) (q : Nat) (hph : s.eng.phase = .exec) :
      Effect s .counter (complete 0 (setCounterOut hi lo
        ((s.withEng { s.eng with status := s.eng.status.flagWrap wraps }).withDraws q)))
  /-- PLAN writes its result registers and completes (R155). -/
  | plans (hph : s.eng.phase = .exec) :
      Effect s .plan (complete 0 (s.withEng { s.eng with results := planResults s.eng.snap s.eng.results }))
  /-- A micro-step of APPLY that needs no request (R147 to R151). -/
  | moves {ph : Phase} {c : Cursors} (hp : s.eng.pend = none) (hc : CursorStep s.plat s.eng ph c) :
      Effect s .apply (goto ph (setCur c s))
  /-- LEAD, BATCH1 or TRAIL issues an ENC1; TRAIL may do so in the transition that leaves FULL (R148, R151, R179; log entry 8). -/
  | issuesBlock {ph : Phase} (k : Sched) (x : Block) (ov : Bool) (hph : ph = s.eng.phase ∨ CursorStep s.plat s.eng ph s.eng.cur)
      (hl : ph = .lead ∨ ph = .full ∧ 0 < s.eng.cur.nleft ∨ ph = .trail) :
      Effect s .apply (issue (.enc1 k x) ov (goto ph s))
  /-- BATCH2, BATCH4 or BATCH8 issues an ENCB of the bytes it read (R176 to R178). -/
  | issuesBatch (w : Width) (k : Sched) (iv : Block) (start : Word) (data : List Byte) (ov : Bool) (hph : s.eng.phase = .full)
      (hw : w.blocks ≤ s.eng.cur.nleft) (hd : data.length = 16 * w.blocks) :
      Effect s .apply (issue (.encb w k iv start data) ov s)
  /-- An ENC1 or ENCB is answered: bytes go to the destination, and the waiting micro-step completes (R106, R107). -/
  | stores {i : Instr} {dst n : Nat} {ph : Phase} {c : Cursors} (get : Memory → Nat → Byte) (out : Nat → Byte → Byte) (x : Block)
      (q : Nat) (hi : storesData i = true) (hdst : dst = (storeSpan i s).1) (hn : n ≤ (storeSpan i s).2)
      (hx : i ≠ .enc1 → x = s.eng.scratch) (hc : CursorStep s.plat s.eng ph c) :
      Effect s i (segmentDone get out dst n ph c (afterAnswer x q s))

/-! The commands. -/

theorem execNop_effect {s t : State} (h : execNop s = .next t) : Effect s .nop t := by
  unfold execNop at h
  split at h
  · next hph =>
    cases h
    exact .completes 0 rfl (by simp [hph]) (.inl ⟨hph, by simp⟩)
  · cases h

theorem execPlan_effect {s t : State} (h : execPlan s = .next t) : Effect s .plan t := by
  unfold execPlan at h
  split at h
  · next hph =>
    cases h
    exact .plans hph
  · cases h

theorem execConstruct_effect {s t : State} (h : execConstruct s = .next t) : Effect s .construct t := by
  unfold execConstruct at h
  split at h
  · cases h
  · next hph =>
    have hph : s.eng.phase = .exec := not_not.1 hph
    split at h
    · cases h
      exact .waits (.inl rfl) (by simp [hph])
    · next hp =>
      split at h
      · cases h
        exact .completes _ rfl (by simp [hph]) (.inr (by simpa using hp))
      · next nr hnr =>
        cases h
        exact .issuesExpand hph hnr

theorem execCounter_effect {s t : State} (h : execCounter s = .next t) : Effect s .counter t := by
  simp only [execCounter] at h
  split at h
  · cases h
  · next hph =>
    have hph : s.eng.phase = .exec := not_not.1 hph
    split at h
    · cases h
      exact .completes _ rfl (by simp [hph]) (.inl ⟨hph, by simp⟩)
    · split at h
      · cases h
        exact .counts _ _ _ (s.draws + 2) hph
      · cases h
        exact .counts _ _ _ s.draws hph

theorem execExpand_effect {s t : State} (h : execExpand s = .next t) : Effect s .expand t := by
  unfold execExpand at h
  split at h
  · next nr keylen key hp =>
    split at h
    · next hph =>
      cases h
      exact .binds hph hp
    · cases h
  · cases h

/-! The micro-steps of APPLY. -/

/-- The issue of an ENC1, in the PHASE it is in or after the move to TRAIL. -/
theorem issueBlock_effect {s t : State} {b : Nat} {ph : Phase} (h : issueBlock b (goto ph s) = .next t)
    (hph : ph = s.eng.phase ∨ CursorStep s.plat s.eng ph s.eng.cur)
    (hl : ph = .lead ∨ ph = .full ∧ 0 < s.eng.cur.nleft ∨ ph = .trail) : Effect s .apply t := by
  obtain ⟨k, -, rfl⟩ := issueBlock_next.1 h
  exact .issuesBlock k _ _ hph hl

/-- Going to the PHASE an engine is in changes nothing. -/
theorem goto_self {s : State} {ph : Phase} (h : s.eng.phase = ph) : goto ph s = s := by
  subst h
  rfl

theorem microCheck_effect {s t : State} (hph : s.eng.phase = .check) (hp : s.eng.pend = none) (h : microCheck s = .next t) :
    Effect s .apply t := by
  unfold microCheck at h
  split at h
  · cases h
    exact .completes _ rfl (by simp [hph]) (.inr hp)
  · next hc =>
    cases h
    exact .moves hp (.check hph hc)

theorem microLead_effect {s t : State} (hph : s.eng.phase = .lead) (hp : s.eng.pend = none) (h : microLead s = .next t) :
    Effect s .apply t := by
  unfold microLead at h
  split at h
  · next hl =>
    cases h
    have hc := CursorStep.lead (p := s.plat) hph
    rw [hl] at hc
    exact .moves hp hc
  · rw [← goto_self hph] at h
    exact issueBlock_effect h (.inl hph.symm) (.inl rfl)

theorem microTrail_effect {s t : State} (hph : s.eng.phase = .trail) (hp : s.eng.pend = none) (h : microTrail s = .next t) :
    Effect s .apply t := by
  unfold microTrail at h
  split at h
  · next ht =>
    cases h
    have hc := CursorStep.trail (p := s.plat) hph
    rw [ht] at hc
    exact .moves hp hc
  · rw [← goto_self hph] at h
    exact issueBlock_effect h (.inl hph.symm) (.inr (.inr rfl))

/-- The issue of a batch reads its source bytes (R176 to R178). -/
theorem issueBatch_effect {s t : State} {w : Width} (hph : s.eng.phase = .full) (hw : w.blocks ≤ s.eng.cur.nleft)
    (h : issueBatch w s = .next t) : Effect s .apply t := by
  unfold issueBatch at h
  split at h
  · cases h
  · obtain ⟨-, h⟩ := withPort_next.1 h
    cases h
    exact .issuesBatch w _ _ _ _ _ hph hw (by simp)

/-- A batch's width is no more than the blocks left (R172). -/
theorem blocks_le_of_widthKind {n : Nat} {b : Backend} {w : Width} (hn : n ≠ 0) (h : widthKind (width n b) = some w) :
    w.blocks ≤ n := by
  obtain ⟨w', hw', hle⟩ := (widthKind_width n b).resolve_right (by simp [h])
  obtain rfl : w' = w := by simpa [hw'] using h
  exact hle ▸ width_le b hn

theorem microFull_effect {s t : State} (hph : s.eng.phase = .full) (hp : s.eng.pend = none) (h : microFull s = .next t) :
    Effect s .apply t := by
  unfold microFull at h
  split at h
  · next hn =>
    unfold microTrail at h
    split at h
    · next ht =>
      cases h
      exact .moves hp (.fullTrail hph hn ht)
    · exact issueBlock_effect h (.inr (.full hph hn)) (.inr (.inr rfl))
  · next hn =>
    split at h
    · next w hw => exact issueBatch_effect hph (blocks_le_of_widthKind hn hw) h
    · rw [← goto_self hph] at h
      exact issueBlock_effect h (.inl hph.symm) (.inr (.inl ⟨rfl, Nat.pos_of_ne_zero hn⟩))

theorem microFinish_effect {s t : State} (hph : s.eng.phase = .finish) (hp : s.eng.pend = none) (h : microFinish s = .next t) :
    Effect s .apply t := by
  cases h
  exact .completes 0 rfl (by simp [hph]) (.inr hp)

/-- A micro-step of APPLY waits for its response, or has no request pending. -/
theorem microStep_effect {s t : State} {micro : Result} (hph : s.eng.phase ≠ .idle)
    (h : (if s.eng.pend.isSome = true then .next s else micro) = .next t)
    (hm : s.eng.pend = none → micro = .next t → Effect s .apply t) : Effect s .apply t := by
  split at h
  · cases h
    exact .waits (.inr rfl) hph
  · next hp => exact hm (by simpa using hp) h

theorem execApply_effect {s t : State} (h : execApply s = .next t) : Effect s .apply t := by
  unfold execApply at h
  split at h
  · cases h
  · cases h
  · next hph => exact microStep_effect (by simp [hph]) h (microCheck_effect hph)
  · next hph => exact microStep_effect (by simp [hph]) h (microLead_effect hph)
  · next hph => exact microStep_effect (by simp [hph]) h (microFull_effect hph)
  · next hph => exact microStep_effect (by simp [hph]) h (microTrail_effect hph)
  · next hph => exact microStep_effect (by simp [hph]) h (microFinish_effect hph)

/-! The answers of the collaborator. -/

theorem xornCount_le (n m : Nat) : xornCount n n m ≤ n := Nat.min_le_left _ _

/-- The answer to an ENC1 moves bytes and completes the micro-step. -/
theorem transfer_effect {s t : State} {src dst n : Nat} {ks : List Byte} {x : Block} {q : Nat} {ph : Phase} {c : Cursors}
    {go : State → Result} (hspan : storeSpan .enc1 s = (dst, n)) (hc : CursorStep s.plat s.eng ph c)
    (hgo : ∀ get out m, go (events get out dst m (afterAnswer x q s)) = .next (segmentDone get out dst m ph c (afterAnswer x q s)))
    (h : transfer src dst n ks (afterAnswer x q s) go = .next t) : Effect s .enc1 t := by
  obtain ⟨-, -, h⟩ := transfer_next.1 h
  rw [hgo] at h
  cases h
  exact .stores _ _ x q rfl (by rw [hspan]) (by rw [hspan]; exact xornCount_le n ks.length) (by simp) hc

theorem leadDone_effect {s t : State} {y : Block} {q : Nat} (hph : s.eng.phase = .lead)
    (h : leadDone y ((answered s).withDraws q) = .next t) : Effect s .enc1 t := by
  unfold leadDone at h
  exact transfer_effect (x := y) (q := q) (by simp [storeSpan, hph]) (.lead hph) (fun _ _ _ => rfl) h

theorem batchOneDone_effect {s t : State} {k : Sched} {x y : Block} {q : Nat} (hph : s.eng.phase = .full)
    (hp : s.eng.pend = some (.enc1 k x)) (h : batchOneDone y ((answered s).withDraws q) = .next t) : Effect s .enc1 t := by
  have hleft : s.eng.pendLegal → 1 ≤ s.eng.cur.nleft := by
    simp only [Engine.pendLegal, hp, hph]
    simp
    omega
  unfold batchOneDone at h
  exact transfer_effect (x := s.eng.scratch) (q := q) (by simp [storeSpan, hph]) (.batch 1 hph hleft) (fun _ _ _ => rfl) h

theorem trailDone_effect {s t : State} {y : Block} {q : Nat} (hph : s.eng.phase = .trail)
    (h : trailDone y ((answered s).withDraws q) = .next t) : Effect s .enc1 t := by
  unfold trailDone at h
  exact transfer_effect (x := y) (q := q) (by simp [storeSpan, hph]) (.trail hph) (fun _ _ _ => rfl) h

theorem execEnc1_effect {s t : State} (h : execEnc1 s = .next t) : Effect s .enc1 t := by
  unfold execEnc1 at h
  split at h
  · next k x hp =>
    split at h
    · next hph => exact leadDone_effect hph (withSchedule_next.1 h).2
    · next hph => exact batchOneDone_effect hph hp (withSchedule_next.1 h).2
    · next hph => exact trailDone_effect hph (withSchedule_next.1 h).2
    all_goals cases h
  · cases h

theorem storeSpan_batch (w : Width) (s : State) :
    storeSpan (Width.instr w) s = (s.eng.snap.d.toNat + s.eng.cur.pos, 16 * w.blocks) := by cases w <;> rfl

theorem answerBatch_effect {s t : State} {w : Width} (h : answerBatch w s = .next t) : Effect s (Width.instr w) t := by
  unfold answerBatch at h
  split at h
  · next w' k iv start data hp =>
    split at h
    · next hw =>
      obtain ⟨rfl, hph⟩ := hw
      obtain ⟨-, h⟩ := withPort_next.1 (withSchedule_next.1 h).2
      cases h
      have hleft : s.eng.pendLegal → w'.blocks ≤ s.eng.cur.nleft := by
        simp only [Engine.pendLegal, hp]
        exact fun hl => hl.2.1
      have hspan := storeSpan_batch w' s
      exact .stores _ _ s.eng.scratch (s.draws + w'.blocks) (by cases w' <;> rfl) (by rw [hspan])
        (by rw [hspan]; exact batchOut_length_le ..) (fun _ => rfl) (.batch w'.blocks hph hleft)
    · cases h
  · cases h

/-- What an instruction can do. -/
theorem exec_effect {i : Instr} {s t : State} (h : exec i s = .next t) : Effect s i t := by
  cases i with
  | nop => exact execNop_effect h
  | construct => exact execConstruct_effect h
  | apply => exact execApply_effect h
  | counter => exact execCounter_effect h
  | plan => exact execPlan_effect h
  | expand => exact execExpand_effect h
  | enc1 => exact execEnc1_effect h
  | encb2 => exact answerBatch_effect (w := .w2) h
  | encb4 => exact answerBatch_effect (w := .w4) h
  | encb8 => exact answerBatch_effect (w := .w8) h

end Sys2Proof.Machine
end

section
/-! SUPPORT. What an instruction leaves unchanged, read off its effect (R24, R29 to R31, R34, R39, R40, R44). -/

namespace Sys2Proof.Machine

/-- A micro-step of APPLY leaves the engine in a PHASE of APPLY past CHECK. -/
theorem CursorStep.past_check {p : Plat} {e : Engine} {ph : Phase} {c : Cursors} (h : CursorStep p e ph c) :
    pastCheck ph = true := by
  cases h with
  | batch m hph hm => rw [hph]; rfl
  | _ => rfl

/-- An ENC1 is issued in a PHASE of APPLY past CHECK. -/
theorem pastCheck_of_issuesBlock {ph : Phase} {n : Nat} (h : ph = .lead ∨ ph = .full ∧ 0 < n ∨ ph = .trail) :
    pastCheck ph = true := by
  rcases h with rfl | ⟨rfl, -⟩ | rfl <;> rfl

theorem ne_idle_of_pastCheck {ph : Phase} (h : pastCheck ph = true) : ph ≠ .idle := by
  rintro rfl
  cases h

/-- A command stores nothing; the answers to its requests do. -/
theorem storesData_of_isCommand {i : Instr} (h : i.isCommand = true) : storesData i = false := by
  cases i <;> simp_all [Instr.isCommand, storesData]

/-- PLAN leaves the result registers of COUNTER. -/
theorem planResults_counter (sn : Snap) (r : Results) :
    (planResults sn r).ctrOutHi = r.ctrOutHi ∧ (planResults sn r).ctrOutLo = r.ctrOutLo := by
  unfold planResults
  cases sn.backend <;> exact ⟨rfl, rfl⟩

/-! The fields that the remaining operations leave or replace. -/

@[simp] theorem flagWrap_false (st : Status) : st.flagWrap false = st := by simp [Status.flagWrap]
@[simp] theorem flagWrap_ctrWrap (st : Status) (c : Bool) : (st.flagWrap c).ctrWrap = (st.ctrWrap || c) := rfl
@[simp] theorem flagWrap_ovr (st : Status) (c : Bool) : (st.flagWrap c).ovr = st.ovr := rfl
@[simp] theorem flagWrap_busy (st : Status) (c : Bool) : (st.flagWrap c).busy = st.busy := rfl
@[simp] theorem flagWrap_done (st : Status) (c : Bool) : (st.flagWrap c).done = st.done := rfl
@[simp] theorem flagWrap_err (st : Status) (c : Bool) : (st.flagWrap c).err = st.err := rfl
@[simp] theorem flagWrap_keyValid (st : Status) (c : Bool) : (st.flagWrap c).keyValid = st.keyValid := rfl
@[simp] theorem flagWrap_backend (st : Status) (c : Bool) : (st.flagWrap c).backend = st.backend := rfl
@[simp] theorem flagWrap_nr (st : Status) (c : Bool) : (st.flagWrap c).nr = st.nr := rfl
@[simp] theorem flagWrap_keylenActive (st : Status) (c : Bool) : (st.flagWrap c).keylenActive = st.keylenActive := rfl

@[simp] theorem setCounterOut_eng (hi lo : Word) (s : State) : (setCounterOut hi lo s).eng =
    { s.eng with results := { s.eng.results with ctrOutHi := hi, ctrOutLo := lo } } := rfl

@[simp] theorem bindInstance_eng (nr keylen : BitVec 8) (k : Sched) (s : State) : (bindInstance nr keylen k s).eng =
    { s.eng with
      sched := some k
      status := { s.eng.status with
        keyValid := true, backend := s.eng.snap.backendSel, nr := nr, keylenActive := keylen } } := rfl

@[simp] theorem segmentDone_afterAnswer_eng (get : Memory → Nat → Byte) (out : Nat → Byte → Byte) (dst n : Nat) (ph : Phase)
    (c : Cursors) (x : Block) (q : Nat) (s : State) : (segmentDone get out dst n ph c (afterAnswer x q s)).eng =
    { s.eng with pend := none, scratch := x, phase := ph, cur := c } := rfl

/-- Settles O42: only the answers to ENC1 and ENCB move bytes, and their byte events lie in the span. -/
theorem storesStayInTheirSpan : Obligations.StoresStayInTheirSpan := by
  unfold Obligations.StoresStayInTheirSpan
  intro i s t h
  cases exec_effect h with
  | stores get out x q hi hdst hn hx hc =>
    refine ⟨fun hi' => by simp [hi] at hi', fun a ha => ?_⟩
    exact events_read_outside _ _ _ _ _ a (by omega)
  | _ => exact ⟨fun _ => rfl, fun _ _ => rfl⟩

/-- Settles O43: every effect replaces fields of the engine, memory, the windows, the draws or the held schedules, and nothing else. -/
theorem instructionsLeaveOperandsAndOthers : Obligations.InstructionsLeaveOperandsAndOthers := by
  unfold Obligations.InstructionsLeaveOperandsAndOthers
  intro i s t h
  cases exec_effect h with
  | stores get out x q hi hdst hn hx hc =>
    subst hdst
    exact ⟨rfl, rfl, rfl, rfl, rfl, rfl, rfl, rfl, rfl, rfl, rfl, fun hi' => by simp [hi] at hi', fun _ => ⟨_, hn, rfl⟩,
      fun _ => rfl⟩
  | binds hph hp => simp [complete, bindInstance, answered, storesData]
  | waits hi hph => rcases hi with rfl | rfl <;> simp [storesData]
  | completes c hi hph hp => simp [complete, storesData_of_isCommand hi]
  | _ => simp [complete, issue, goto, setCur, setCounterOut, storesData]

/-- Settles O44: each effect that writes results, SCRATCH or the cursors belongs to the instruction named. -/
theorem resultsAreWrittenByTheirCommand : Obligations.ResultsAreWrittenByTheirCommand := by
  unfold Obligations.ResultsAreWrittenByTheirCommand
  intro i s t h
  cases exec_effect h with
  | stores get out x q hi hdst hn hx hc => exact ⟨fun _ => ⟨rfl, rfl⟩, fun _ => rfl, hx, fun _ hi' => by simp [hi] at hi'⟩
  | plans hph => simp [planResults_counter]
  | _ => simp

/-- Settles O45: an effect that completes leaves PHASE IDLE; one that does not leaves a PHASE other than IDLE and touches no flag but
CTR_WRAP. -/
theorem statusFlagsOnlyMoveAsSpecified : Obligations.StatusFlagsOnlyMoveAsSpecified := by
  unfold Obligations.StatusFlagsOnlyMoveAsSpecified
  intro i s t h
  cases exec_effect h with
  | waits hi hph => simp [hph]
  | issuesExpand hph hnr => simp [hph]
  | moves hp hc => simp [ne_idle_of_pastCheck hc.past_check]
  | issuesBlock k x ov hph hl => simp +contextual [ne_idle_of_pastCheck (pastCheck_of_issuesBlock hl)]
  | issuesBatch w k iv start data ov hph hw hd => simp +contextual [hph]
  | stores get out x q hi hdst hn hx hc => simp [ne_idle_of_pastCheck hc.past_check]
  | _ => simp +contextual

/-- No instruction but EXPAND writes SCHED or the fields of STATUS that describe it (R31). -/
theorem exec_keeps_instance {i : Instr} {s t : State} (h : exec i s = .next t) (hi : i ≠ .expand) :
    t.eng.sched = s.eng.sched ∧ t.eng.status.keyValid = s.eng.status.keyValid ∧
      t.eng.status.backend = s.eng.status.backend ∧ t.eng.status.nr = s.eng.status.nr ∧
      t.eng.status.keylenActive = s.eng.status.keylenActive := by
  cases exec_effect h with
  | binds hph hp => exact absurd rfl hi
  | _ => simp

/-! Register writes. -/

/-- What a register write can do: nothing (R46), set OVR while busy (R47), or, while idle, start a command, set CONFIG or set an
operand register (R24, R32, R38). -/
theorem writeReg_cases (r : Reg) (v : Word) (s : State) :
    writeReg r v s = s ∨
    (s.eng.status.busy = true ∧ writeReg r v s = s.withEng { s.eng with status := { s.eng.status with ovr := true } }) ∨
    (s.eng.status.busy = false ∧ r = .cmd ∧ writeReg r v s = accept v s) ∨
    (s.eng.status.busy = false ∧ writeReg r v s = s.withEng { s.eng with backendSel := legalBackend s.plat v }) ∨
    (s.eng.status.busy = false ∧ writeReg r v s = s.withEng { s.eng with regs := setOperand v s.eng.regs r }) := by
  unfold writeReg
  split
  · exact .inl rfl
  · split
    · next hb => exact .inr (.inl ⟨hb, rfl⟩)
    · next hb =>
      have hb : s.eng.status.busy = false := by simpa using hb
      unfold writeIdle
      split
      · exact .inr (.inr (.inl ⟨hb, rfl, rfl⟩))
      · exact .inr (.inr (.inr (.inl ⟨hb, rfl⟩)))
      · exact .inr (.inr (.inr (.inr ⟨hb, rfl⟩)))

/-- A write at an offset does nothing or writes a register. -/
theorem writeOffset_cases (off : BitVec 12) (v : Word) (s : State) :
    writeOffset off v s = s ∨ ∃ r, writeOffset off v s = writeReg r v s := by
  unfold writeOffset
  split
  · exact .inr ⟨_, rfl⟩
  · exact .inl rfl

/-- No register write writes SCHED or the fields of STATUS that describe it (R31). -/
theorem writeReg_keeps_instance (r : Reg) (v : Word) (s : State) :
    (writeReg r v s).eng.sched = s.eng.sched ∧ (writeReg r v s).eng.status.keyValid = s.eng.status.keyValid ∧
      (writeReg r v s).eng.status.backend = s.eng.status.backend ∧ (writeReg r v s).eng.status.nr = s.eng.status.nr ∧
      (writeReg r v s).eng.status.keylenActive = s.eng.status.keylenActive := by
  rcases writeReg_cases r v s with h | ⟨-, h⟩ | ⟨-, -, h⟩ | ⟨-, h⟩ | ⟨-, h⟩ <;> simp [h, acceptEngine]

/-- Settles O46: neither the effect of another instruction nor a register write touches SCHED and the fields that describe it. -/
theorem instanceChangesOnlyByConstruct : Obligations.InstanceChangesOnlyByConstruct := by
  unfold Obligations.InstanceChangesOnlyByConstruct
  intro s
  refine ⟨fun i t h hi => exec_keeps_instance h hi, fun off v => ?_⟩
  rcases writeOffset_cases off v s with h | ⟨r, h⟩
  · simp [h]
  · rw [h]
    exact writeReg_keeps_instance r v s

end Sys2Proof.Machine
end

section
/-! SUPPORT. Every instruction keeps the invariant of its engine, one part after the other (R30 to R41, R91). -/

namespace Sys2Proof.Machine

/-! Command words. -/

theorem cmdRsvd_toNat (v : Word) : (cmdRsvd v).toNat = v.toNat / 256 := by
  simp only [cmdRsvd, BitVec.extractLsb'_toNat, Nat.shiftRight_eq_div_pow]
  omega

theorem cmdOp_toNat (v : Word) : (cmdOp v).toNat = v.toNat % 256 := by
  simp [cmdOp, BitVec.extractLsb'_toNat]

/-- CONSTRUCT has one command word (R94). -/
theorem decodeCmd_construct {v : Word} (h : decodeCmd v = .instr .construct) : v = 1 := by
  obtain ⟨hr, ho⟩ : cmdRsvd v = 0 ∧ cmdOp v = 1 := by
    unfold decodeCmd at h
    split_ifs at h <;> simp_all
  have hrsvd := cmdRsvd_toNat v
  have hop := cmdOp_toNat v
  rw [hr] at hrsvd
  rw [ho] at hop
  apply BitVec.eq_of_toNat_eq
  simp at hrsvd hop ⊢
  omega

/-- A request is answered by an instruction that is no command (R104). -/
theorem isCommand_of_decodeKind {k : BitVec 3} {i : Instr} (h : decodeKind k = .instr i) : i.isCommand = false := by
  unfold decodeKind at h
  split_ifs at h <;> cases h <;> rfl

/-! What the parts of the invariant say of a PHASE. -/

theorem CursorStep.from_apply {p : Plat} {e : Engine} {ph : Phase} {c : Cursors} (h : CursorStep p e ph c) :
    e.phase = .check ∨ pastCheck e.phase = true := by
  cases h with
  | check hph hc => exact .inl hph
  | lead hph | batch m hph hm | full hph hn | fullTrail hph hn ht | trail hph => exact .inr (by rw [hph]; rfl)

theorem op_of_apply_phase {e : Engine} (h : e.phaseLegal) (hph : e.phase = .check ∨ pastCheck e.phase = true) :
    e.snap.op = 2 := by
  unfold Engine.phaseLegal at h
  cases hp : e.phase <;> simp_all [pastCheck]

theorem phaseLegal_of_past_check {e : Engine} (hop : e.snap.op = 2) (hph : pastCheck e.phase = true) : e.phaseLegal := by
  unfold Engine.phaseLegal
  cases hp : e.phase <;> simp_all [pastCheck]

/-- In EXEC only a CONSTRUCT waits for a request (R41). -/
theorem pend_none_of_exec {e : Engine} (h : e.pendLegal) (hph : e.phase = .exec) (hop : e.snap.op ≠ 1) : e.pend = none := by
  unfold Engine.pendLegal at h
  split at h <;> simp_all

/-- In EXEC of a command other than CONSTRUCT no request is pending. -/
theorem pend_none_of_command {e : Engine} {i : Instr} (h : e.pendLegal) (hph : e.phase = .exec)
    (hrun : decodeCmd e.snap.op = .instr i) (hi : i ≠ .construct) : e.pend = none := by
  refine pend_none_of_exec h hph fun hop => hi ?_
  rw [hop] at hrun
  exact (Decoded.instr.inj hrun).symm

/-! The handshake, the bound schedule, the backend, the results. -/

/-- An instruction answers only where its engine is not idle. -/
theorem exec_not_idle {i : Instr} {s t : State} (h : exec i s = .next t) : s.eng.phase ≠ .idle := by
  have apply_phase {ph : Phase} {c : Cursors} (hc : CursorStep s.plat s.eng ph c) : s.eng.phase ≠ .idle := by
    rcases hc.from_apply with hph | hph
    · simp [hph]
    · exact ne_idle_of_pastCheck hph
  cases exec_effect h with
  | waits hi hph => exact hph
  | completes c hi hph hp => exact hph
  | issuesExpand hph | binds hph | counts hi lo wraps q hph | plans hph => simp [hph]
  | moves hp hc => exact apply_phase hc
  | issuesBlock k x ov hph hl =>
    rcases hph with rfl | hc
    · exact ne_idle_of_pastCheck (pastCheck_of_issuesBlock hl)
    · exact apply_phase hc
  | issuesBatch w k iv start data ov hph => simp [hph]
  | stores get out x q hi hdst hn hx hc => exact apply_phase hc

theorem exec_keeps_handshake {i : Instr} {s t : State} (h : exec i s = .next t) (hs : s.eng.handshake) : t.eng.handshake := by
  obtain ⟨-, -, -, hrun, hend⟩ := statusFlagsOnlyMoveAsSpecified i s t h
  obtain ⟨hidle, hbusy⟩ := hs
  unfold Engine.handshake
  by_cases hph : t.eng.phase = .idle
  · simp [hph, (hend hph).1]
  · obtain ⟨herr, hdone, hb⟩ := hrun hph
    rw [herr, hdone, hb]
    exact ⟨by simp [hph, hidle.2 (exec_not_idle h)], hbusy⟩

/-- A pending EXPAND has a legal key length with its round count (R105, R221). -/
theorem roundCount_of_pend {e : Engine} {nr keylen : BitVec 8} {key : List Byte} (h : e.pendLegal)
    (hp : e.pend = some (.expand nr keylen key)) : roundCount keylen.toNat = some nr := by
  unfold Engine.pendLegal at h
  rw [hp] at h
  simp [Request.wellFormed] at h
  exact h.2.2.1

theorem exec_keeps_instanceLegal {i : Instr} {s t : State} (h : exec i s = .next t) (hp : s.eng.pendLegal)
    (hs : s.eng.instanceLegal) : t.eng.instanceLegal := by
  by_cases hi : i = .expand
  · subst hi
    cases exec_effect h with
    | binds hph hpend => simp [Engine.instanceLegal, roundCount_of_pend hp hpend]
    | waits hi => simp at hi
    | completes c hi => simp [Instr.isCommand] at hi
    | stores get out x q hi => simp [storesData] at hi
  · obtain ⟨h1, h2, h3, h4, h5⟩ := exec_keeps_instance h hi
    unfold Engine.instanceLegal
    rwa [h1, h2, h3, h4, h5]

theorem exec_keeps_backendLegal {i : Instr} {s t : State} (h : exec i s = .next t) (hs : s.eng.backendLegal s.plat) :
    t.eng.backendLegal s.plat := by
  obtain ⟨-, hsel, hsnap, -⟩ := instructionsLeaveOperandsAndOthers i s t h
  intro ha
  obtain ⟨h1, h2, h3⟩ := hs ha
  rw [hsel, hsnap]
  refine ⟨h1, h2, ?_⟩
  cases exec_effect h with
  | binds hph hp => simpa using h2
  | _ => simpa using h3

/-- PLAN reports segments and widths within R91's bounds. -/
theorem planResults_bounded (sn : Snap) (r : Results) :
    (planResults sn r).planLead.toNat ≤ 15 ∧ (planResults sn r).planTrail.toNat ≤ 15 ∧
      (planResults sn r).planN4.toNat ≤ 1 ∧ (planResults sn r).planN2.toNat ≤ 1 := by
  have hlead : sn.split.lead ≤ 15 := by
    simp only [Snap.split, split]
    omega
  have htrail : sn.split.trail < 16 := split_trail_lt _ _
  unfold planResults
  cases sn.backend <;> simp <;> omega

theorem exec_keeps_resultsBounded {i : Instr} {s t : State} (h : exec i s = .next t) (hs : s.eng.resultsBounded) :
    t.eng.resultsBounded := by
  by_cases hi : i = .plan
  · subst hi
    cases exec_effect h with
    | plans hph => exact planResults_bounded _ _
    | waits hi => exact hs
    | completes c hi => exact hs
    | stores get out x q hi => exact hs
  · obtain ⟨-, hr, -⟩ := resultsAreWrittenByTheirCommand i s t h
    unfold Engine.resultsBounded
    rw [hr hi]
    exact hs

/-! PHASE, the pending request and the cursors. -/

theorem exec_keeps_phaseLegal {i : Instr} {s t : State} (h : exec i s = .next t) (hs : s.eng.phaseLegal) : t.eng.phaseLegal := by
  have hop := op_of_apply_phase hs
  cases exec_effect h with
  | waits | issuesExpand | issuesBatch => exact hs
  | completes | binds | counts | plans => trivial
  | moves hp hc => exact phaseLegal_of_past_check (hop hc.from_apply) hc.past_check
  | stores get out x q hi hdst hn hx hc => exact phaseLegal_of_past_check (hop hc.from_apply) hc.past_check
  | issuesBlock k x ov hph hl =>
    rcases hph with rfl | hc
    · exact hs
    · exact phaseLegal_of_past_check (hop hc.from_apply) hc.past_check

/-- With no request pending there is nothing to check about one. -/
theorem pendLegal_of_none {e : Engine} (h : e.pend = none) : e.pendLegal := by
  unfold Engine.pendLegal
  rw [h]
  trivial

/-- The request CONSTRUCT issues has the sizes R105 gives it. -/
theorem constructRequest_wellFormed {sn : Snap} {nr : BitVec 8} (h : roundCount sn.keyLen.toNat = some nr) :
    Request.wellFormed (.expand nr (BitVec.ofNat 8 sn.keyLen.toNat) (constructKey sn)) = true := by
  have hlen : sn.keyLen.toNat ≤ 32 := by
    unfold roundCount at h
    split at h <;> simp_all
  have hmod : sn.keyLen.toNat % 256 = sn.keyLen.toNat := by omega
  have hkey : (keyBytes sn).length = 32 := rfl
  simp [Request.wellFormed, constructKey, hkey, hmod, h, hlen]

theorem exec_keeps_pendLegal {i : Instr} {s t : State} (h : exec i s = .next t) (hs : s.eng.pendLegal)
    (hrun : i.isCommand = true → decodeCmd s.eng.snap.op = .instr i) : t.eng.pendLegal := by
  have hnone (hph : s.eng.phase = .exec) (hi : i.isCommand = true) := pend_none_of_command hs hph (hrun hi)
  cases exec_effect h with
  | waits => exact hs
  | completes c hi hph hp => exact pendLegal_of_none (hp.elim (fun ⟨hph, hi'⟩ => hnone hph hi hi') id)
  | issuesExpand hph hnr => exact ⟨hph, decodeCmd_construct (hrun rfl), constructRequest_wellFormed hnr⟩
  | counts hi lo wraps q hph => exact pendLegal_of_none (hnone hph rfl (by simp))
  | plans hph => exact pendLegal_of_none (hnone hph rfl (by simp))
  | moves hp hc => exact pendLegal_of_none hp
  | issuesBlock k x ov hph hl => exact hl
  | issuesBatch w k iv start data ov hph hw hd => exact ⟨hph, hw, by simpa [Request.wellFormed] using hd⟩
  | binds | stores => exact pendLegal_of_none rfl

/-- The cursors' invariant reads PHASE, KEY_VALID, the snapshot and the cursors. -/
theorem cursorsLegal_congr {p : Plat} {e e' : Engine} (h : e.cursorsLegal p) (hph : e'.phase = e.phase) (hs : e'.snap = e.snap)
    (hk : e'.status.keyValid = e.status.keyValid) (hc : e'.cur = e.cur) : e'.cursorsLegal p := by
  unfold Engine.cursorsLegal
  rwa [hph, hs, hk, hc]

@[simp] theorem advance_n (c : Cursors) (n : Nat) : (c.advance n).n = c.n := rfl
@[simp] theorem advance_pos (c : Cursors) (n : Nat) : (c.advance n).pos = c.pos + n := rfl
@[simp] theorem advance_p (c : Cursors) (n : Nat) : (c.advance n).p = c.p + n := rfl

/-- A micro-step of APPLY keeps the cursors' sum: the bytes done, the blocks left and the trailing segment make up the range. -/
theorem CursorStep.keeps_cursorsLegal {p : Plat} {e : Engine} {ph : Phase} {c : Cursors} (hc : CursorStep p e ph c)
    (hpend : e.pendLegal) (h : e.cursorsLegal p) : Engine.cursorsLegal p { e with phase := ph, cur := c } := by
  have hsum := e.snap.split_sum
  intro _
  cases hc with
  | check hph hcheck => exact ⟨hcheck, rfl, rfl, rfl⟩
  | lead hph =>
    obtain ⟨hcheck, hn, hp, hcur⟩ := h (by rw [hph]; rfl)
    simp only [hph] at hcur
    exact ⟨hcheck, hn, by simp; omega, by simp; omega⟩
  | batch m hph hm =>
    obtain ⟨hcheck, hn, hp, hcur⟩ := h (by rw [hph]; rfl)
    have hleft := hm hpend
    simp only [hph] at hcur
    exact ⟨hcheck, hn, by simp; omega, by simp [hph]; omega⟩
  | full hph hleft =>
    obtain ⟨hcheck, hn, hp, hcur⟩ := h (by rw [hph]; rfl)
    simp only [hph] at hcur
    exact ⟨hcheck, hn, hp, by simp only; omega⟩
  | fullTrail hph hleft ht =>
    obtain ⟨hcheck, hn, hp, hcur⟩ := h (by rw [hph]; rfl)
    simp only [hph] at hcur
    exact ⟨hcheck, hn, hp, by simp only; omega⟩
  | trail hph =>
    obtain ⟨hcheck, hn, hp, hcur⟩ := h (by rw [hph]; rfl)
    simp only [hph] at hcur
    exact ⟨hcheck, hn, by simp; omega, by simp; omega⟩

theorem exec_keeps_cursorsLegal {i : Instr} {s t : State} (h : exec i s = .next t) (hp : s.eng.pendLegal)
    (hs : s.eng.cursorsLegal s.plat) : t.eng.cursorsLegal s.plat := by
  cases exec_effect h with
  | waits | issuesBatch => exact hs
  | completes | binds | counts | plans => intro hpast; cases hpast
  | issuesExpand hph hnr => exact hs
  | moves hpend hc => exact hc.keeps_cursorsLegal hp hs
  | stores get out x q hi hdst hn hx hc => exact hc.keeps_cursorsLegal hp hs
  | issuesBlock k x ov hph hl =>
    rcases hph with rfl | hc
    · exact hs
    · exact hc.keeps_cursorsLegal hp hs

end Sys2Proof.Machine
end

section
/-! SUPPORT. A step acts on one engine and leaves the others (R5, R256), and keeps the invariant of that engine and the canonical
form of memory. -/

namespace Sys2Proof.Machine

/-- `t` comes from `s` by a change of the engine at `eng` that keeps its invariant, and of memory that keeps its canonical form: the
other engines and the parameters stay. -/
structure Keeps (s t : State) : Prop where
  others : t.others = s.others
  plat : t.plat = s.plat
  wf : s.mem.wf → t.mem.wf
  inv : s.eng.Inv s.plat → t.eng.Inv t.plat

/-- `t` is `s` with another of its engines at `eng` (R256), or with fewer turns or statements to come. -/
structure Refocused (s t : State) : Prop where
  plat : t.plat = s.plat
  mem : t.mem = s.mem
  engines : ∀ q : Engine → Prop, everyEngine q s → everyEngine q t

theorem Keeps.refl (s : State) : Keeps s s := ⟨rfl, rfl, id, id⟩

theorem Keeps.trans {s t u : State} (h : Keeps s t) (h' : Keeps t u) : Keeps s u :=
  ⟨h'.others.trans h.others, h'.plat.trans h.plat, h'.wf ∘ h.wf, h'.inv ∘ h.inv⟩

/-- A change that touches no engine keeps every engine's invariant. -/
theorem Keeps.of_eng {s t : State} (he : t.eng = s.eng) (ho : t.others = s.others) (hp : t.plat = s.plat)
    (hm : s.mem.wf → t.mem.wf) : Keeps s t :=
  ⟨ho, hp, hm, fun h => by rwa [he, hp]⟩

/-- A change of the engine alone. -/
theorem Keeps.withEng {s : State} {e : Engine} (h : s.eng.Inv s.plat → e.Inv s.plat) : Keeps s (s.withEng e) := ⟨rfl, rfl, id, h⟩

theorem Refocused.refl (s : State) : Refocused s s := ⟨rfl, rfl, fun _ => id⟩

theorem Refocused.trans {s t u : State} (h : Refocused s t) (h' : Refocused t u) : Refocused s u :=
  ⟨h'.plat.trans h.plat, h'.mem.trans h.mem, fun q => h'.engines q ∘ h.engines q⟩

theorem Refocused.withTurns (s : State) (ts : List Agent) : Refocused s (s.withTurns ts) := ⟨rfl, rfl, fun _ => id⟩

theorem Refocused.withProg (s : State) (ops : List HostOp) : Refocused s (s.withProg ops) := ⟨rfl, rfl, fun _ => id⟩

/-- Taking an engine out of a list loses none. -/
theorem mem_of_pick {q : Engine → Bool} {es rest : List Engine} {e f : Engine} (h : pick q es = some (e, rest)) :
    f ∈ es ↔ f = e ∨ f ∈ rest := by
  induction es generalizing rest with
  | nil => cases h
  | cons g es ih =>
    simp only [pick] at h
    split at h
    · cases h
      simp
    · split at h
      · next e' rest' hp =>
        cases h
        simp [ih hp, or_left_comm]
      · cases h

/-- Bringing an engine to `eng` keeps every engine's state. -/
theorem focus_refocused {q : Engine → Bool} {s t : State} (h : focus q s = some t) : Refocused s t := by
  unfold focus at h
  split at h
  · cases h
    exact .refl s
  · split at h
    · next e rest hp =>
      cases h
      refine ⟨rfl, rfl, fun q ⟨hs, ho⟩ => ⟨ho e ((mem_of_pick hp).2 (.inl rfl)), fun f hf => ?_⟩⟩
      rcases List.mem_cons.1 hf with rfl | hf
      · exact hs
      · exact ho f ((mem_of_pick hp).2 (.inr hf))
    · cases h

/-! The engine and the collaborator. -/

theorem exec_keeps_wf {i : Instr} {s t : State} (h : exec i s = .next t) (hm : s.mem.wf) : t.mem.wf := by
  cases exec_effect h with
  | stores => exact events_wf _ _ _ _ _ hm
  | _ => exact hm

/-- An instruction that its engine's command word or request names keeps the engine's invariant. -/
theorem exec_keeps {i : Instr} {s t : State} (h : exec i s = .next t)
    (hrun : i.isCommand = true → decodeCmd s.eng.snap.op = .instr i) : Keeps s t := by
  obtain ⟨-, -, -, -, -, -, hothers, hplat, -⟩ := instructionsLeaveOperandsAndOthers i s t h
  refine ⟨hothers, hplat, exec_keeps_wf h, ?_⟩
  rintro ⟨hhand, hinst, hback, hres, hphase, hpend, hcur⟩
  rw [hplat]
  exact ⟨exec_keeps_handshake h hhand, exec_keeps_instanceLegal h hpend hinst, exec_keeps_backendLegal h hback,
    exec_keeps_resultsBounded h hres, exec_keeps_phaseLegal h hphase, exec_keeps_pendLegal h hpend hrun,
    exec_keeps_cursorsLegal h hpend hcur⟩

/-- A command word that is no command runs in EXEC, and not as a CONSTRUCT. -/
theorem illegal_phase {e : Engine} {why : Reject} (hp : e.phaseLegal) (hph : e.phase ≠ .idle)
    (h : decodeCmd e.snap.op = .reject why) : e.phase = .exec ∧ e.snap.op ≠ 1 := by
  have hop : e.snap.op ≠ 2 := fun h2 => by rw [h2] at h; cases h
  refine ⟨?_, fun h1 => by rw [h1] at h; cases h⟩
  unfold Engine.phaseLegal at hp
  cases hphase : e.phase <;> simp_all

/-- The end of an illegal command keeps the engine's invariant. -/
theorem illegalCommand_keeps {s t : State} {why : Reject} (hph : s.eng.phase ≠ .idle)
    (hop : decodeCmd s.eng.snap.op = .reject why) (h : illegalCommand s = .next t) : Keeps s t := by
  cases h
  refine .withEng ?_
  rintro ⟨-, hinst, hback, hres, hphase, hpend, -⟩
  obtain ⟨hexec, hop1⟩ := illegal_phase hphase hph hop
  have hnone := pend_none_of_exec hpend hexec hop1
  exact ⟨by simp [Engine.handshake], hinst, hback, hres, trivial, pendLegal_of_none hnone, nofun⟩

theorem engineStep_keeps {s t : State} (h : engineStep s = .next t) : Keeps s t := by
  unfold engineStep at h
  split at h
  · cases h
    exact .refl s
  · next hph =>
    split at h
    · next i hi => exact exec_keeps h fun _ => hi
    · next why hop => exact illegalCommand_keeps hph hop h

theorem cipherStep_keeps {s t : State} (h : cipherStep s = .next t) : Keeps s t := by
  unfold cipherStep at h
  split at h
  · cases h
    exact .refl s
  · split at h
    · next i hi => exact exec_keeps h fun hc => by simp [isCommand_of_decodeKind hi] at hc
    · cases h

/-! The register port. -/

/-- An idle engine has no request pending. -/
theorem pend_none_of_idle {e : Engine} (h : e.pendLegal) (hph : e.phase = .idle) : e.pend = none := by
  unfold Engine.pendLegal at h
  split at h <;> simp_all

/-- BUSY = 0 is PHASE IDLE (R35). -/
theorem idle_of_not_busy {e : Engine} (h : e.handshake) (hb : e.status.busy = false) : e.phase = .idle := by
  simpa [hb] using h.1

/-- An accepted command starts in CHECK if it is an APPLY, else in EXEC (R38). -/
theorem acceptEngine_phase (v : Word) (e : Engine) :
    (v = 2 ∧ (acceptEngine v e).phase = .check) ∨ (v ≠ 2 ∧ (acceptEngine v e).phase = .exec) := by
  by_cases hv : v = 2
  · exact .inl ⟨hv, if_pos hv⟩
  · exact .inr ⟨hv, if_neg hv⟩

/-- An accepted command meets the invariant (R38). -/
theorem acceptEngine_inv {p : Plat} {e : Engine} (v : Word) (hb : e.status.busy = false) (h : e.Inv p) :
    (acceptEngine v e).Inv p := by
  obtain ⟨hhand, hinst, hback, hres, -, hpend, -⟩ := h
  have hnone := pend_none_of_idle hpend (idle_of_not_busy hhand hb)
  have hback' : (acceptEngine v e).backendLegal p := fun ha =>
    ⟨(hback ha).1, (hback ha).1, (hback ha).2.2⟩
  have hphase := acceptEngine_phase v e
  refine ⟨⟨?_, fun _ => ⟨rfl, rfl⟩⟩, hinst, hback', hres, ?_, pendLegal_of_none hnone, ?_⟩
  · have hbusy : (acceptEngine v e).status.busy = true := rfl
    rcases hphase with ⟨-, hph⟩ | ⟨-, hph⟩ <;> simp [hph, hbusy]
  · rcases hphase with ⟨hv, hph⟩ | ⟨hv, hph⟩ <;> simp only [Engine.phaseLegal, hph] <;> exact hv
  · rcases hphase with ⟨-, hph⟩ | ⟨-, hph⟩ <;> simp [Engine.cursorsLegal, hph, pastCheck]

theorem accept_keeps {s : State} (v : Word) (hb : s.eng.status.busy = false) : Keeps s (accept v s) := by
  refine ⟨by simp, by simp, accept_wf v s, ?_⟩
  simpa using acceptEngine_inv v hb

theorem writeReg_keeps (r : Reg) (v : Word) (s : State) : Keeps s (writeReg r v s) := by
  rcases writeReg_cases r v s with h | ⟨hb, h⟩ | ⟨hb, -, h⟩ | ⟨hb, h⟩ | ⟨hb, h⟩ <;> rw [h]
  · exact .refl s
  · exact .withEng id
  · exact accept_keeps v hb
  · refine .withEng ?_
    rintro ⟨hhand, hinst, hback, hrest⟩
    refine ⟨hhand, hinst, fun ha => ?_, hrest⟩
    obtain ⟨-, hsel, hbk⟩ := hback ha
    exact ⟨by simp [legalBackend, ha], hsel, hbk⟩
  · exact .withEng id

theorem writeOffset_keeps (off : BitVec 12) (v : Word) (s : State) : Keeps s (writeOffset off v s) := by
  rcases writeOffset_cases off v s with h | ⟨r, h⟩ <;> rw [h]
  · exact .refl s
  · exact writeReg_keeps r v s

theorem statusSeen_keeps (s : State) : Keeps s (statusSeen s) := by
  unfold statusSeen
  split
  · exact .of_eng rfl rfl rfl id
  · exact .refl s

theorem observed_keeps (s : State) (o : Obs) : Keeps s (s.observed o) := .of_eng rfl rfl rfl id

theorem readOffset_keeps (off : BitVec 12) (s : State) : Keeps s (readOffset off s) := by
  unfold readOffset
  split
  · exact (observed_keeps s _).trans (statusSeen_keeps _)
  · exact observed_keeps s _

/-! The host's other transactions. -/

theorem drawAt_keeps (as : List Nat) (s : State) : Keeps s (drawAt as s) := .of_eng (by simp) (by simp) (by simp) (drawAt_wf as s)

theorem raceHits_keeps (direct : Window → List Nat) (s : State) : Keeps s (raceHits direct s) :=
  .of_eng (by simp) (by simp) (by simp) (raceHits_wf direct s)

theorem hostWriteByte_keeps (a : Nat) (v : Byte) (s : State) : Keeps s (hostWriteByte a v s) := by
  unfold hostWriteByte
  split
  · exact (raceHits_keeps _ s).trans (drawAt_keeps _ _)
  · exact .of_eng rfl rfl rfl fun hm => Memory.write_wf _ hm a v

theorem hostWrite_keeps (a : Nat) (bs : List Byte) (s : State) : Keeps s (hostWrite a bs s) := by
  induction bs generalizing a s with
  | nil => exact .refl s
  | cons b bs ih => exact (hostWriteByte_keeps a b s).trans (ih _ _)

theorem hostReadByte_keeps (a : Nat) (s : State) : Keeps s (hostReadByte a s).2 := by
  unfold hostReadByte
  split
  · exact (Keeps.of_eng (s := s) (t := s.withDraws (s.draws + 1)) rfl rfl rfl id).trans (raceHits_keeps _ _)
  · exact .refl s

theorem hostRead_keeps (a n : Nat) (s : State) : Keeps s (hostRead a n s).2 := by
  induction n generalizing a s with
  | zero => exact .refl s
  | succ n ih => exact (hostReadByte_keeps a s).trans (ih _ _)

/-- An engine after reset meets the invariant (R45). -/
theorem fresh_inv (p : Plat) (id base cipher : Nat) : (Engine.fresh id base cipher).Inv p := by
  refine ⟨by simp [Engine.handshake, Engine.fresh, Status.zero], ?_, fun _ => ⟨rfl, rfl, rfl⟩, ?_, trivial, trivial, nofun⟩
  · simp [Engine.instanceLegal, Engine.fresh, Status.zero]
  · simp [Engine.resultsBounded, Engine.fresh, Results.zero]

theorem resetEngine_keeps (s : State) : Keeps s (resetEngine s) :=
  ⟨by simp, by simp, resetEngine_wf s, fun _ => by simpa using fresh_inv s.plat s.eng.id s.eng.base s.eng.cipher⟩

/-- A register transaction acts on the engine whose window it is in. -/
theorem atRegister_next {addr bits : Nat} {s t : State} {go : BitVec 12 → State → Result} (h : atRegister addr bits s go = .next t) :
    ∃ u off, Refocused s u ∧ go off u = .next t := by
  unfold atRegister at h
  split at h
  · cases h
  · next u hu =>
    split at h
    · exact ⟨u, _, focus_refocused hu, h⟩
    · cases h

/-- A transaction of the host acts on one engine. -/
theorem runHostOp_next {op : HostOp} {s t : State} (h : runHostOp op s = .next t) : ∃ u, Refocused s u ∧ Keeps u t := by
  cases op with
  | write addr bits v =>
    simp only [runHostOp] at h
    obtain ⟨u, off, hu, h⟩ := atRegister_next h
    cases h
    exact ⟨u, hu, writeOffset_keeps off v u⟩
  | read addr bits =>
    simp only [runHostOp] at h
    obtain ⟨u, off, hu, h⟩ := atRegister_next h
    cases h
    exact ⟨u, hu, readOffset_keeps off u⟩
  | wait base =>
    simp only [runHostOp] at h
    split at h
    · cases h
    · next u hu =>
      cases h
      refine ⟨u, focus_refocused hu, ?_⟩
      split
      · exact statusSeen_keeps u
      · exact .of_eng rfl rfl rfl id
  | memWrite a bs =>
    simp only [runHostOp] at h
    split at h
    · cases h
      exact ⟨s, .refl s, hostWrite_keeps a bs s⟩
    · cases h
  | memRead a n =>
    simp only [runHostOp] at h
    split at h
    · cases h
      exact ⟨s, .refl s, (hostRead_keeps a n s).trans (observed_keeps _ _)⟩
    · cases h
  | reset base =>
    simp only [runHostOp] at h
    split at h
    · cases h
    · next u hu =>
      cases h
      exact ⟨u, focus_refocused hu, resetEngine_keeps u⟩
  | cipherReset base =>
    simp only [runHostOp] at h
    split at h
    · cases h
    · next u hu =>
      cases h
      exact ⟨u, focus_refocused hu, .of_eng rfl rfl rfl id⟩

/-! A step of the machine. -/

theorem hostStep_next {s t : State} (h : hostStep s = .next t) : ∃ u, Refocused s u ∧ Keeps u t := by
  unfold hostStep at h
  split at h
  · cases h
    exact ⟨s, .refl s, .refl s⟩
  · next op ops hp =>
    obtain ⟨u, hu, hk⟩ := runHostOp_next h
    exact ⟨u, (Refocused.withProg s ops).trans hu, hk⟩

theorem agentStep_next {a : Agent} {s t : State} (h : agentStep a s = .next t) : ∃ u, Refocused s u ∧ Keeps u t := by
  cases a with
  | host => exact hostStep_next h
  | engine k =>
    simp only [agentStep] at h
    split at h
    · next u hu => exact ⟨u, focus_refocused hu, engineStep_keeps h⟩
    · cases h
  | cipher k =>
    simp only [agentStep] at h
    split at h
    · next u hu => exact ⟨u, focus_refocused hu, cipherStep_keeps h⟩
    · cases h

/-- A step of the machine acts on one engine. -/
theorem step_next {s t : State} (h : step s = .next t) : ∃ u, Refocused s u ∧ Keeps u t := by
  unfold step advance at h
  split at h
  · exact agentStep_next h
  · next a rest hturns =>
    obtain ⟨u, hu, hk⟩ := agentStep_next h
    exact ⟨u, (Refocused.withTurns s rest).trans hu, hk⟩

/-- No step changes the parameters (R42). -/
theorem step_plat {s t : State} (h : step s = .next t) : t.plat = s.plat := by
  obtain ⟨u, hu, hk⟩ := step_next h
  exact hk.plat.trans hu.plat

/-- Settles O56: each operation that writes memory keeps its canonical form. -/
theorem everyStepKeepsMemoryCanonical : Obligations.EveryStepKeepsMemoryCanonical := by
  unfold Obligations.EveryStepKeepsMemoryCanonical
  intro s t hm h
  obtain ⟨u, hu, hk⟩ := step_next h
  exact hk.wf (hu.mem ▸ hm)

/-- Settles O55: the engine the step acts on keeps its invariant, and the others keep their state. -/
theorem everyStepKeepsInvariant : Obligations.EveryStepKeepsInvariant := by
  unfold Obligations.EveryStepKeepsInvariant
  rintro s t ⟨hengines, hm⟩ h
  obtain ⟨u, hu, hk⟩ := step_next h
  obtain ⟨heng, hothers⟩ := hu.engines _ hengines
  rw [← hu.plat] at heng hothers
  refine ⟨⟨hk.inv heng, fun e he => ?_⟩, hk.wf (hu.mem ▸ hm)⟩
  rw [hk.plat]
  exact hothers e (hk.others ▸ he)

/-- Settles O54: the one engine is as after its reset input, and memory lists nothing. -/
theorem resetMeetsInvariant : Obligations.ResetMeetsInvariant := by
  unfold Obligations.ResetMeetsInvariant
  have heng := fresh_inv Plat.default 0 Config.regBase 0
  exact ⟨⟨heng, by simp [State.reset]⟩, .nil, nofun⟩

end Sys2Proof.Machine
end

section
/-! SUPPORT. The register port: offsets, kinds of access, and what reads and writes do (R21, R24, R30 to R33, R46, R47, R91). -/

namespace Sys2Proof.Machine

/-! Offsets. -/

/-- A register is found at its offset (R91). -/
@[simp] theorem atOffset_offsetIn (r : Reg) : Reg.atOffset r.offsetIn = some r := by cases r <;> rfl

/-- Every register stands at an 8-byte-aligned offset (R91). -/
theorem offsetIn_aligned (r : Reg) : r.offsetIn.toNat % 8 = 0 := by cases r <;> rfl

/-- An offset at which a register is found is that register's. -/
theorem offsetIn_of_atOffset {off : BitVec 12} {r : Reg} (h : Reg.atOffset off = some r) : off = r.offsetIn := by
  have := List.find?_some h
  exact (by simpa using this : r.offsetIn = off).symm

/-- At a reserved offset no register is found (R92). -/
theorem atOffset_reserved {off : BitVec 12} (h : ∀ r : Reg, off ≠ r.offsetIn) : Reg.atOffset off = none := by
  cases hr : Reg.atOffset off with
  | none => rfl
  | some r => exact absurd (offsetIn_of_atOffset hr) (h r)

@[simp] theorem offsetValue_offsetIn (p : Plat) (e : Engine) (r : Reg) : offsetValue p e r.offsetIn = regValue p e r := by
  simp [offsetValue]

@[simp] theorem writeOffset_offsetIn (r : Reg) (v : Word) (s : State) : writeOffset r.offsetIn v s = writeReg r v s := by
  simp [writeOffset]

theorem writeOffset_reserved {off : BitVec 12} (h : ∀ r : Reg, off ≠ r.offsetIn) (v : Word) (s : State) :
    writeOffset off v s = s := by
  simp [writeOffset, atOffset_reserved h]

theorem offsetValue_reserved {off : BitVec 12} (h : ∀ r : Reg, off ≠ r.offsetIn) (p : Plat) (e : Engine) :
    offsetValue p e off = 0 := by
  simp [offsetValue, atOffset_reserved h]

/-! Writes by the kind of access. -/

/-- A read-only register ignores writes (R46). -/
theorem writeReg_readOnly {r : Reg} (h : r.access = .readOnly) (v : Word) (s : State) : writeReg r v s = s := by
  simp [writeReg, h]

/-- While BUSY = 1 a write is dropped and sets OVR (R47). -/
theorem writeReg_busy {r : Reg} {s : State} (h : r.access ≠ .readOnly) (hb : s.eng.status.busy = true) (v : Word) :
    writeReg r v s = s.withEng { s.eng with status := { s.eng.status with ovr := true } } := by
  simp [writeReg, h, hb]

/-- While BUSY = 0 a write takes effect. -/
theorem writeReg_idle {r : Reg} {s : State} (h : r.access ≠ .readOnly) (hb : s.eng.status.busy = false) (v : Word) :
    writeReg r v s = writeIdle r v s := by
  simp [writeReg, h, hb]

/-! STATUS. -/

theorem bit_le (b : Bool) : bit b ≤ 1 := by cases b <;> decide

theorem backendBit_le (b : Backend) : backendBit b ≤ 1 := by cases b <;> decide

theorem backendBit_eq_bit (b : Backend) : backendBit b = bit (decide (b = .accelerated)) := by cases b <;> rfl

/-- A bit of a word is a binary digit of its number. -/
theorem getLsbD_of_div {w : Word} {i : Nat} {b : Bool} (h : w.toNat / 2 ^ i % 2 = bit b) : w.getLsbD i = b := by
  rw [← BitVec.testBit_toNat, Nat.testBit_eq_decide_div_mod_eq, h]
  cases b <;> rfl

/-- A field of a word is a run of binary digits of its number. -/
theorem extractLsb'_of_div {n : Nat} {w : Word} {i : Nat} {f : BitVec n} (h : w.toNat / 2 ^ i % 2 ^ n = f.toNat) :
    w.extractLsb' i n = f := by
  apply BitVec.eq_of_toNat_eq
  rw [BitVec.extractLsb'_toNat, Nat.shiftRight_eq_div_pow, h]

theorem extractLsb'_zero_of_div {w : Word} {i n : Nat} (h : w.toNat / 2 ^ i % 2 ^ n = 0) : w.extractLsb' i n = 0 :=
  extractLsb'_of_div (h.trans BitVec.toNat_zero.symm)

/-- Settles O14: the word is a sum of fields at multiples of powers of two, so each field is a quotient and remainder of it. -/
theorem statusFieldsStandAtTheirBits : Obligations.StatusFieldsStandAtTheirBits := by
  unfold Obligations.StatusFieldsStandAtTheirBits
  intro st w
  have hbusy := bit_le st.busy
  have hdone := bit_le st.done
  have hovr := bit_le st.ovr
  have hwrap := bit_le st.ctrWrap
  have hkey := bit_le st.keyValid
  have hback := backendBit_le st.backend
  have herr := st.err.isLt
  have hnr := st.nr.isLt
  have hlen := st.keylenActive.isLt
  have hw : w.toNat = bit st.busy + 2 * bit st.done + 4 * bit st.ovr + 8 * bit st.ctrWrap + 16 * st.err.toNat +
      256 * bit st.keyValid + 512 * backendBit st.backend + 65536 * st.nr.toNat + 16777216 * st.keylenActive.toNat :=
    Nat.mod_eq_of_lt (by omega)
  have hb9 : w.getLsbD 9 = decide (st.backend = .accelerated) := getLsbD_of_div (by rw [← backendBit_eq_bit]; omega)
  exact ⟨getLsbD_of_div (by omega), getLsbD_of_div (by omega), getLsbD_of_div (by omega), getLsbD_of_div (by omega),
    extractLsb'_of_div (by omega), getLsbD_of_div (by omega), by rw [hb9, decide_eq_true_iff], extractLsb'_zero_of_div (by omega),
    extractLsb'_of_div (by omega), extractLsb'_of_div (by omega), extractLsb'_zero_of_div (by omega)⟩

/-! What reads and writes do. -/

/-- A read answers the value at its offset and closes the engine's windows if it is one of STATUS that shows DONE = 1 (R46, R76). -/
theorem readOffset_eq (off : BitVec 12) (s : State) :
    readOffset off s = (s.observed (.reg (offsetValue s.plat s.eng off))).withWindows
      (if Reg.atOffset off = some .status ∧ s.eng.status.done = true then s.windows.filter (fun w => w.engine != s.eng.id)
        else s.windows) := by
  by_cases hr : Reg.atOffset off = some .status <;> by_cases hd : s.eng.status.done = true <;>
    simp [readOffset, statusSeen, closeWindows, hr, hd] <;> rfl

/-- A written operand register reads as the value written, if it can be read; no other register's value changes (R24). -/
theorem regValue_setOperand (p : Plat) (e : Engine) (v : Word) {r : Reg} (hr : r ≠ .config) (r' : Reg) :
    regValue p { e with regs := setOperand v e.regs r } r' = if r' = r ∧ r.access = .readWrite then v else regValue p e r' := by
  cases r with
  | config => exact absurd rfl hr
  | _ => cases r' <;> rfl

/-- CONFIG takes bit 0 of a write alone (R32, R46). -/
theorem legalBackend_and_one (p : Plat) (v : Word) : legalBackend p (v &&& 1) = legalBackend p v := by
  simp [legalBackend]

/-- Settles O9: a write to an operand register replaces it in the registers, and reads find it there. -/
theorem idleOperandWriteStores : Obligations.IdleOperandWriteStores := by
  unfold Obligations.IdleOperandWriteStores
  intro s v hb put
  have write (r : Reg) (h : r.access ≠ .readOnly) : writeReg r v s = writeIdle r v s := writeReg_idle h hb v
  refine ⟨write .keyLen (by decide), write .key0 (by decide), write .key1 (by decide), write .key2 (by decide),
    write .key3 (by decide), write .ivHi (by decide), write .ivLo (by decide), write .ivLen (by decide),
    write .offset (by decide), write .srcAddr (by decide), write .srcLen (by decide), write .dstAddr (by decide),
    write .dstLen (by decide), write .blockIndex (by decide), fun r r' hcmd hconfig => ?_⟩
  by_cases hr : r.access = .readOnly
  · simp [writeReg_readOnly hr, hr]
  · rw [write r hr, ← regValue_setOperand _ _ _ hconfig]
    unfold writeIdle
    split
    · exact absurd rfl hcmd
    · exact absurd rfl hconfig
    · rfl

/-- Settles O10, by the kinds of access; bit 0 of STATUS is BUSY (O14). -/
theorem busyWritesAreDropped : Obligations.BusyWritesAreDropped := by
  unfold Obligations.BusyWritesAreDropped
  intro s v hb
  refine ⟨fun r hr => writeReg_busy hr hb v, fun r hr => writeReg_readOnly hr v s, fun off h => writeOffset_reserved h v s, ?_⟩
  obtain ⟨hbit, -⟩ := statusFieldsStandAtTheirBits s.eng.status
  exact hbit.trans hb

/-- Settles O11, by the kinds of access; OP stands below the reserved bits of CMD, so that a word with one has a nonzero RSVD. -/
theorem accessKindsOfRegisters : Obligations.AccessKindsOfRegisters := by
  unfold Obligations.AccessKindsOfRegisters
  intro s v
  refine ⟨fun r hr => writeReg_readOnly hr v s, fun off h => ⟨writeOffset_reserved h v s, offsetValue_reserved h _ _⟩, ?_, ?_, ?_,
    ?_, fun off => by simp [readOffset_eq]⟩
  · intro r hr
    cases r <;> simp [Reg.access] at hr <;> rfl
  · cases hsel : s.eng.backendSel <;> simp [regValue, hsel, backendBit]
  · simp only [writeReg, writeIdle, legalBackend_and_one]
  · intro hv
    have hrsvd : cmdRsvd v ≠ 0 := fun h => hv (by simpa [h] using (cmdRsvd_toNat v).symm)
    exact if_pos hrsvd

/-- Settles O12: an idle write of CONFIG replaces BACKEND_SEL alone, by the legal backend. -/
theorem configTakesLegalBackend : Obligations.ConfigTakesLegalBackend := by
  unfold Obligations.ConfigTakesLegalBackend
  intro s v hb t
  have ht : t = s.withEng { s.eng with backendSel := legalBackend s.plat v } := writeReg_idle (by decide) hb v
  rw [ht]
  refine ⟨?_, rfl, rfl⟩
  simp only [State.withEng_eng, regValue, legalBackend, Bool.and_eq_true]
  split_ifs <;> rfl

/-- PARAMS holds MAX_BATCH, ADDR_W and HAS_ACCEL at their bits (R33). -/
theorem paramsWord_toNat (p : Plat) : (paramsWord p).toNat = 65536 * 8 + 256 * p.addrW + bit p.hasAccel ∧ p.addrW ≤ 64 := by
  have hw : p.addrW ≤ 64 := p.addrBits.isLt
  have hb := bit_le p.hasAccel
  exact ⟨Nat.mod_eq_of_lt (by omega), hw⟩

/-- Settles O13: what the two offsets read depends on the parameters alone, which no step changes. -/
theorem identificationIsConstant : Obligations.IdentificationIsConstant := by
  unfold Obligations.IdentificationIsConstant
  intro s t v
  obtain ⟨hw, haddr⟩ := paramsWord_toNat s.plat
  have hb := bit_le s.plat.hasAccel
  have hparams : offsetValue s.plat s.eng 0x0D8 = paramsWord s.plat := offsetValue_offsetIn _ _ .params
  refine ⟨offsetValue_offsetIn _ _ .id, ?_, ?_, ?_, fun h e => ?_⟩
  · rw [hparams]
    simp only [BitVec.extractLsb'_toNat, Nat.shiftRight_eq_div_pow]
    exact ⟨extractLsb'_zero_of_div (by omega), by omega, by omega, extractLsb'_zero_of_div (by omega), getLsbD_of_div (by omega)⟩
  · exact (writeOffset_offsetIn .id v s).trans (writeReg_readOnly rfl v s)
  · exact (writeOffset_offsetIn .params v s).trans (writeReg_readOnly rfl v s)
  · rw [step_plat h]
    exact ⟨rfl, rfl⟩

end Sys2Proof.Machine
end

section
/-! SUPPORT. The host's transactions with an engine: register access, reset and acceptance (R36, R38, R45, R61, R90, R270, R273). -/

namespace Sys2Proof.Machine

/-! Register transactions. -/

/-- The first engine is found where it satisfies the test. -/
theorem focus_self {q : Engine → Bool} {s : State} (h : q s.eng = true) : focus q s = some s := by simp [focus, h]

/-- A 64-bit transaction at a register's offset reaches the engine at `eng` at that offset (R21, R90). -/
theorem atRegister_offsetIn (r : Reg) (s : State) (go : BitVec 12 → State → Result) :
    atRegister (s.eng.base + r.offsetIn.toNat) 64 s go = go r.offsetIn s := by
  have hlt := r.offsetIn.isLt
  have hwin : inWindow s.eng.base (s.eng.base + r.offsetIn.toNat) = true := by
    simp only [inWindow, Bool.and_eq_true, decide_eq_true_eq]
    omega
  have hwhole : wholeAccess s.eng.base (s.eng.base + r.offsetIn.toNat) 64 = true := by
    simp [wholeAccess, offsetIn_aligned]
  simp [atRegister, focus_self (q := fun e => inWindow e.base (s.eng.base + r.offsetIn.toNat)) hwin, hwhole]

/-- A register transaction in the window of one of the others is that of the state with this engine at `eng` (R61, R256). -/
theorem atRegister_other {s : State} {before after : List Engine} {e : Engine} {addr : Nat} (bits : Nat)
    (go : BitVec 12 → State → Result) (ho : s.others = before ++ e :: after)
    (hb : ∀ f ∈ s.eng :: before, addr < f.base ∨ f.base + 4096 ≤ addr) (hlo : e.base ≤ addr) (hhi : addr < e.base + 4096) :
    atRegister addr bits s go = atRegister addr bits { s with eng := e, others := s.eng :: (before ++ after) } go := by
  have hout : ∀ f ∈ s.eng :: before, inWindow f.base addr = false := fun f hf => by
    have := hb f hf
    simp only [inWindow, Bool.and_eq_false_iff, decide_eq_false_iff_not]
    omega
  have hin : inWindow e.base addr = true := by
    simp only [inWindow, Bool.and_eq_true, decide_eq_true_eq]
    omega
  obtain ⟨hs, hbefore⟩ := List.forall_mem_cons.1 hout
  unfold atRegister
  rw [focus_other (q := fun f => inWindow f.base addr) ho hs hbefore hin, focus_self (q := fun f => inWindow f.base addr) hin]

/-- Settles O7: the offset is found again in the address, and the window's engine is brought to `eng`. -/
theorem transactionsReachRegisters : Obligations.TransactionsReachRegisters := by
  unfold Obligations.TransactionsReachRegisters
  refine ⟨fun s r v => ⟨?_, ?_⟩, ?_⟩
  · simp [runHostOp, atRegister_offsetIn]
  · simp [runHostOp, atRegister_offsetIn, readOffset_eq]
  · intro s before after e addr bits v ho hb hlo hhi t
    exact ⟨atRegister_other bits (fun off t => .next (writeOffset off v t)) ho hb hlo hhi,
      atRegister_other bits (fun off t => .next (readOffset off t)) ho hb hlo hhi⟩

/-! Reset. -/

/-- Every register of an engine after reset reads 0, but for the constants (R45). -/
theorem regValue_fresh (p : Plat) (id base cipher : Nat) {r : Reg} (hid : r ≠ .id) (hp : r ≠ .params) :
    regValue p (Engine.fresh id base cipher) r = 0 := by
  cases r with
  | id => exact absurd rfl hid
  | params => exact absurd rfl hp
  | _ => rfl

/-- The collaborator's reset takes away the schedules of the engines it serves (R273). -/
theorem mem_afterCipherReset (s : State) (id : Nat) (k : Sched) :
    (id, k) ∈ afterCipherReset s ↔ (id, k) ∈ s.held ∧ ¬ ∃ e ∈ s.eng :: s.others, e.id = id ∧ e.cipher = s.eng.cipher := by
  simp [afterCipherReset, sharesCipher]

/-- Settles O50: the reset transaction answers `resetEngine`, the collaborator's takes away what `afterCipherReset` does. -/
theorem resetInputResetsEngine : Obligations.ResetInputResetsEngine := by
  unfold Obligations.ResetInputResetsEngine
  refine ⟨fun s => ?_, ?_⟩
  · have hfocus : focus (fun e => e.base == s.eng.base) s = some s := focus_self (by simp)
    refine ⟨resetEngine s, by simp [runHostOp, hfocus], rfl, rfl, rfl, rfl, rfl, rfl, rfl, rfl,
      fun r hid hp => regValue_fresh _ _ _ _ hid hp, rfl, rfl, rfl, rfl, by simp, by simp, by simp, by simp,
      afterCipherReset s, by simp [runHostOp, hfocus], mem_afterCipherReset s⟩
  · intro s before after e ho hb t
    obtain ⟨hs, hbefore⟩ := List.forall_mem_cons.1 hb
    have hother : focus (fun f => f.base == e.base) s = some t :=
      focus_other ho (by simpa using hs) (by simpa using hbefore) (by simp)
    have hself : focus (fun f => f.base == e.base) t = some t := focus_self (by simp [t])
    simp [runHostOp, hother, hself]

/-- Settles O53: the one engine is as after its reset input. -/
theorem resetStateIsAsListed : Obligations.ResetStateIsAsListed := by
  unfold Obligations.ResetStateIsAsListed
  exact ⟨fun r hid hp => regValue_fresh _ _ _ _ hid hp, rfl, rfl, rfl, rfl, rfl, rfl, rfl, rfl, rfl, rfl⟩

/-! Acceptance. -/

/-- The overlap test finds a shared byte (R212). -/
theorem overlap_iff_shared_byte (d s n : Nat) : overlap d s n = true ↔ ∃ a, d ≤ a ∧ a < d + n ∧ s ≤ a ∧ a < s + n := by
  simp only [overlap, Bool.and_eq_true, decide_eq_true_eq]
  constructor
  · rintro ⟨⟨hn, hd⟩, hs⟩
    exact ⟨max d s, by omega, by omega, by omega, by omega⟩
  · rintro ⟨a, h1, h2, h3, h4⟩
    omega

/-- When the five checks of APPLY pass (R146). -/
theorem applyCheck_eq_none (p : Plat) (keyValid : Bool) (sn : Snap) :
    applyCheck p keyValid sn = none ↔ keyValid = true ∧ sn.ivLen = 16 ∧ sn.nd = sn.ns ∧
      sn.s.toNat + sn.nd.toNat ≤ 2 ^ p.addrW ∧ sn.d.toNat + sn.nd.toNat ≤ 2 ^ p.addrW ∧
      (sn.d = sn.s ∨ ¬ ∃ a, sn.d.toNat ≤ a ∧ a < sn.d.toNat + sn.nd.toNat ∧
        sn.s.toNat ≤ a ∧ a < sn.s.toNat + sn.nd.toNat) := by
  rw [← overlap_iff_shared_byte]
  unfold applyCheck
  split_ifs with hkey hiv hlen hfit hover
  · simp [hkey]
  · exact iff_of_false nofun fun ⟨_, h, _⟩ => hiv h
  · exact iff_of_false nofun fun ⟨_, _, h, _⟩ => hlen h
  · exact iff_of_false nofun fun ⟨_, _, _, hs, hd, _⟩ => by omega
  · exact iff_of_false nofun fun ⟨_, _, _, _, _, h⟩ => h.elim hover.2 (· hover.1)
  · refine iff_of_true rfl ⟨by simpa using hkey, not_not.1 hiv, not_not.1 hlen, by omega, by omega, ?_⟩
    by_contra! h
    exact hover ⟨h.2, h.1⟩

/-- Settles O15: the window opens exactly when the checks pass on the ranges just taken. -/
theorem commandWriteIsAccepted : Obligations.CommandWriteIsAccepted := by
  unfold Obligations.CommandWriteIsAccepted
  intro s v
  refine ⟨fun hb => ?_, fun hb => ?_, fun r hr => ?_⟩
  · have hw : writeReg .cmd v s = accept v s := writeReg_idle (by decide) hb v
    rw [hw]
    refine ⟨accept_eng v s, ?_⟩
    have hiff := applyCheck_eq_none s.plat (acceptEngine v s.eng).status.keyValid (acceptEngine v s.eng).snap
    intro t g top opens
    have hopens : opens ↔ v = 2 ∧ applyCheck s.plat (acceptEngine v s.eng).status.keyValid (acceptEngine v s.eng).snap = none :=
      and_congr_right fun _ => hiff.symm
    have heng : t.eng = acceptEngine v s.eng := accept_eng v s
    rw [heng]
    exact ⟨fun h => if_pos (hopens.1 h), fun h => if_neg (mt hopens.2 h)⟩
  · simp [writeReg_busy (r := .cmd) (by decide) hb v]
  · rcases writeReg_cases r v s with h | ⟨-, h⟩ | ⟨-, hcmd, -⟩ | ⟨-, h⟩ | ⟨-, h⟩
    · simp [h]
    · simp [h]
    · exact absurd hcmd hr
    · simp [h]
    · simp [h]

end Sys2Proof.Machine
end

section
/-! SUPPORT. COUNTER's error, a waiting micro-step, and the bytes of keys and IVs (R26, R27, R41, R128). -/

namespace Sys2Proof.Machine

/-- Settles O24: `exec` of COUNTER raises InvalidIvLength before it computes. -/
theorem counterRejectsIvLength : Obligations.CounterRejectsIvLength := by
  unfold Obligations.CounterRejectsIvLength
  intro s hph hiv
  simp only [exec, execCounter, hph]
  exact if_pos hiv

/-- Settles O37, by the PHASEs. -/
theorem pendingRequestHoldsMicroStep : Obligations.PendingRequestHoldsMicroStep := by
  unfold Obligations.PendingRequestHoldsMicroStep
  intro s r hp
  refine ⟨fun hph => by simp [exec, execConstruct, hph, hp], fun hidle hexec => ?_⟩
  cases hph : s.eng.phase <;> simp_all [exec, execApply]

/-- Byte `i` of a word's bytes (R11). -/
theorem bytes64_getElem? (v : Word) {i : Nat} (h : i < 8) : (bytes64 v)[i]? = some (v.extractLsb' (56 - 8 * i) 8) := by
  interval_cases i <;> rfl

@[simp] theorem bytes64_length (v : Word) : (bytes64 v).length = 8 := rfl

/-- `be64` and `bytes64` are inverse (R11). -/
theorem be64_bytes64 (v : Word) : be64 (bytes64 v) = v := by
  apply BitVec.eq_of_toNat_eq
  have hv := v.isLt
  simp [be64, bytes64, BitVec.extractLsb'_toNat, Nat.shiftRight_eq_div_pow]
  omega

/-- Byte `i` of the IV's block is a byte of its high half or of its low half (R26). -/
theorem blockByte_ivBlock (h l : Word) {i : Nat} (hi : i < 16) : blockByte (ivBlock h l) i =
    if i < 8 then h.extractLsb' (56 - 8 * i) 8 else l.extractLsb' (56 - 8 * (i - 8)) 8 := by
  unfold blockByte ivBlock
  split
  · rw [BitVec.extractLsb'_append_eq_of_le (by omega), show 120 - 8 * i - 64 = 56 - 8 * i by omega]
  · rw [BitVec.extractLsb'_append_eq_of_add_le (by omega), show 120 - 8 * i = 56 - 8 * (i - 8) by omega]

/-- The bytes of the IV's block are those of its halves, the high half first (R26). -/
theorem blockBytes_ivBlock (h l : Word) : blockBytes (ivBlock h l) = bytes64 h ++ bytes64 l := by
  apply List.ext_getElem?
  intro i
  by_cases hi : i < 16
  · rw [blockBytes_getElem? _ _ hi, blockByte_ivBlock h l hi, List.getElem?_append, bytes64_length]
    split
    · next hlo => rw [bytes64_getElem? h hlo]
    · next hlo => rw [bytes64_getElem? l (by omega)]
  · rw [List.getElem?_eq_none (by simp; omega), List.getElem?_eq_none (by simp; omega)]

/-- The key bytes are those of the four key registers in order (R27). -/
theorem keyBytes_getElem? (sn : Snap) {i : Nat} (hi : i < 32) : (keyBytes sn)[i]? =
    some ((if i < 8 then sn.key0 else if i < 16 then sn.key1 else if i < 24 then sn.key2 else sn.key3).extractLsb'
      (56 - 8 * (i % 8)) 8) := by
  interval_cases i <;> rfl

/-- Settles O21: the block's bytes are those of the IV's halves, and `be64` puts eight bytes together again. -/
theorem keyAndIvBytesArePackedMostSignificantFirst : Obligations.KeyAndIvBytesArePackedMostSignificantFirst := by
  unfold Obligations.KeyAndIvBytesArePackedMostSignificantFirst
  refine ⟨fun sn i hi => keyBytes_getElem? sn hi, fun h l => ⟨fun i hi => blockByte_ivBlock h l hi, ivHigh_ivBlock h l,
    ivLow_ivBlock h l, ?_, ?_⟩⟩
  · rw [blockBytes_ivBlock, List.take_left' (bytes64_length h), be64_bytes64]
  · rw [blockBytes_ivBlock, List.drop_left' (bytes64_length h), be64_bytes64]

end Sys2Proof.Machine
end

section
/-! SUPPORT. The host's refused register accesses, its WAIT, and its memory accesses that race with no command (R71, R75, R76, R99). -/

namespace Sys2Proof.Machine

/-! Register accesses and WAIT. -/

/-- A transaction in the engine's window that is not 64 bits wide at an 8-byte-aligned offset is refused (R71). -/
theorem atRegister_narrow {s : State} {addr bits : Nat} (hlo : s.eng.base ≤ addr) (hhi : addr < s.eng.base + 4096)
    (h : bits ≠ 64 ∨ (addr - s.eng.base) % 8 ≠ 0) (go : BitVec 12 → State → Result) :
    atRegister addr bits s go = .refused .narrowAccess := by
  have hwin : inWindow s.eng.base addr = true := by simp [inWindow, hlo, hhi]
  have hwhole : wholeAccess s.eng.base addr bits = false := by
    simpa [wholeAccess, imp_iff_not_or] using h
  simp [atRegister, focus_self (q := fun e => inWindow e.base addr) hwin, hwhole]

/-- Settles O8: a write and a read are refused before they reach a register. -/
theorem narrowAccessIsRefused : Obligations.NarrowAccessIsRefused := by
  unfold Obligations.NarrowAccessIsRefused
  intro s addr bits v hlo hhi h
  simp only [runHostOp, atRegister_narrow hlo hhi h, and_self]

/-- What a poll of STATUS by the host's WAIT of the engine at `eng` leaves (R99). -/
theorem runHostOp_wait_self (s : State) : runHostOp (.wait s.eng.base) s =
    .next (if s.eng.status.done then statusSeen s else s.withProg (.wait s.eng.base :: s.prog)) := by
  simp [runHostOp, focus_self (q := fun e => e.base == s.eng.base)]

/-- A WAIT of one of the other engines is that of the state with this engine at `eng` (R256). -/
theorem runHostOp_wait_other {s : State} {before after : List Engine} {e : Engine} (ho : s.others = before ++ e :: after)
    (hb : ∀ f ∈ s.eng :: before, f.base ≠ e.base) :
    runHostOp (.wait e.base) s = runHostOp (.wait e.base) { s with eng := e, others := s.eng :: (before ++ after) } := by
  obtain ⟨hs, hbefore⟩ := List.forall_mem_cons.1 hb
  simp only [runHostOp]
  rw [focus_other (q := fun f => f.base == e.base) ho (by simpa using hs) (by simpa using hbefore) (by simp),
    focus_self (q := fun f => f.base == e.base) (by simp)]

/-- Settles O47, by the two values of DONE. -/
theorem waitEndsAtDone : Obligations.WaitEndsAtDone := by
  unfold Obligations.WaitEndsAtDone
  refine ⟨fun s rest hp => ?_, fun s before after e rest ho hb hp => ?_⟩
  · have hstep : hostStep s = .next (if s.eng.status.done then statusSeen (s.withProg rest)
        else (s.withProg rest).withProg (.wait s.eng.base :: rest)) := by
      rw [hostStep, hp]
      exact runHostOp_wait_self (s.withProg rest)
    rw [hstep]
    refine ⟨fun hd => ?_, fun hd => ?_⟩
    · simp [hd, statusSeen, closeWindows]
    · simp [hd, State.withProg, ← hp]
  · simp only [hostStep, hp]
    exact runHostOp_wait_other (s := s.withProg rest) ho hb

/-! Memory accesses that race with no command. -/

theorem hostReaches_iff (p : Plat) (a n : Nat) : hostReaches p a n = true ↔ portStop p a n = none := by
  simp [hostReaches]

/-- A range read back is the list of its bytes (R12). -/
theorem Memory.readN_eq_map (m : Memory) (a n : Nat) : m.readN a n = (List.range n).map fun i => m.read (a + i) := by
  refine List.ext_getElem (by simp) fun i hi _ => ?_
  have hget := m.readN_getElem? a n i (by simpa using hi)
  rw [List.getElem?_eq_getElem hi] at hget
  simpa using hget

/-- A range just written reads back as written (R12). -/
theorem Memory.readN_writeN (m : Memory) (hm : m.wf) (a : Nat) (bs : List Byte) : (m.writeN a bs).readN a bs.length = bs := by
  rw [Memory.readN_eq_map]
  refine List.ext_getElem (by simp) fun i _ hi => ?_
  simpa using m.read_writeN_inside hm a bs i hi

/-- The host's write of bytes that no open window reads or writes is a plain write (R75). -/
theorem hostWrite_ordered {a : Nat} {bs : List Byte} {s : State}
    (h : ∀ x, a ≤ x → x < a + bs.length → ∀ w ∈ s.windows, w.inSrc x = false ∧ w.inDst x = false) :
    hostWrite a bs s = s.withMem (s.mem.writeN a bs) := by
  induction bs generalizing a s with
  | nil => rfl
  | cons b bs ih =>
    rw [List.length_cons] at h
    have hfree : s.windows.any (fun w => w.inSrc a || w.inDst a) = false := by
      simpa using h a le_rfl (by omega)
    have hbyte : hostWriteByte a b s = s.withMem (s.mem.write a b) := if_neg (by simp [hfree])
    rw [hostWrite, hbyte, ih (s := s.withMem (s.mem.write a b)) fun x hlo hhi => h x (by omega) (by omega)]
    rfl

/-- The host's read of bytes that no open window writes is a plain read (R76). -/
theorem hostRead_ordered {a n : Nat} {s : State} (h : ∀ x, a ≤ x → x < a + n → ∀ w ∈ s.windows, w.inDst x = false) :
    hostRead a n s = (s.mem.readN a n, s) := by
  induction n generalizing a with
  | zero => rfl
  | succ n ih =>
    have hfree : s.windows.any (fun w => w.inDst a) = false := by
      simpa using h a le_rfl (by omega)
    have hbyte : hostReadByte a s = (s.mem.read a, s) := if_neg (by simp [hfree])
    have hrest : hostRead (a + 1) n s = (s.mem.readN (a + 1) n, s) := ih fun x hlo hhi => h x (by omega) (by omega)
    simp only [hostRead, hbyte, hrest, Memory.readN]

/-- What holds of each index into the `n` bytes at `a` holds of each of their addresses. -/
theorem forall_address_of_index {q : Nat → Prop} {a n : Nat} (h : ∀ i, i < n → q (a + i)) (x : Nat) (hlo : a ≤ x)
    (hhi : x < a + n) : q x := by
  obtain ⟨i, rfl⟩ := Nat.exists_eq_add_of_le hlo
  exact h i (by omega)

/-- A read transaction of plain memory that no open window writes returns the bytes memory holds and changes nothing else. -/
theorem runHostOp_memRead_ordered {a n : Nat} {s : State} (h : ∀ i, i < n → ∀ w ∈ s.windows, w.inDst (a + i) = false)
    (hport : portStop s.plat a n = none) :
    runHostOp (.memRead a n) s = .next (s.observed (.mem (s.mem.readN a n))) := by
  simp only [runHostOp, (hostReaches_iff _ _ _).2 hport, if_true, hostRead_ordered (forall_address_of_index h)]

/-- Settles O48: unraced accesses are range reads and writes of memory. -/
theorem orderedHostAccessesArePlain : Obligations.OrderedHostAccessesArePlain := by
  unfold Obligations.OrderedHostAccessesArePlain
  intro s a
  refine ⟨fun bs hm h hport => ?_, fun n h hport => ?_⟩
  · have hwrite : runHostOp (.memWrite a bs) s = .next (s.withMem (s.mem.writeN a bs)) := by
      simp only [runHostOp, (hostReaches_iff _ _ _).2 hport, if_true, hostWrite_ordered (forall_address_of_index h)]
    refine ⟨_, hwrite, rfl, rfl, fun i hi => ?_, fun x hx => Memory.read_writeN_outside _ _ _ _ hx, ?_⟩
    · rw [State.withMem_mem, Memory.read_writeN_inside _ hm _ _ _ hi, List.getElem?_eq_getElem hi]
    · have hread := runHostOp_memRead_ordered (s := s.withMem (s.mem.writeN a bs)) (fun i hi w hw => (h i hi w hw).2) hport
      rwa [State.withMem_mem, Memory.readN_writeN _ hm] at hread
  · rw [runHostOp_memRead_ordered h hport, Memory.readN_eq_map]

end Sys2Proof.Machine
end

section
/-! SUPPORT. Races in the open windows (R77 to R80, log entries 6 and 11). -/

namespace Sys2Proof.Machine

/-! What a race records. -/

/-- The bytes that a race which starts from `direct` records in window `i`: its own and those carried from earlier commands of its
engine. -/
def recorded (direct : Window → List Nat) (ws : List Window) (i : Nat) : List Nat :=
  match ws[i]? with
  | some w => direct w ++ w.carried (spread direct (ws.drop (i + 1))).2
  | none => []

section
variable {direct : Window → List Nat} {ws : List Window} {i : Nat} {w : Window}

theorem recorded_of_getElem? (h : ws[i]? = some w) :
    recorded direct ws i = direct w ++ w.carried (spread direct (ws.drop (i + 1))).2 := by
  simp only [recorded, h]

/-- Windows counted from a later one on record the same bytes: a race spreads from the earlier ones only. -/
theorem recorded_drop (direct : Window → List Nat) (ws : List Window) (k i : Nat) :
    recorded direct (ws.drop k) i = recorded direct ws (k + i) := by
  simp only [recorded, List.getElem?_drop, List.drop_drop, Nat.add_assoc]

/-- A race adds the recorded bytes to each window. -/
theorem spread_windows (direct : Window → List Nat) (ws : List Window) (i : Nat) :
    (spread direct ws).1[i]? = (ws[i]?).map fun w : Window => { w with raced := recorded direct ws i ++ w.raced } := by
  cases h : ws[i]? with
  | none => simpa using h
  | some w => rw [spread_getElem? direct ws i w h, recorded_of_getElem? h, Option.map_some, Window.addRaced]

/-- The bytes a race leaves at any value are the recorded ones that no later command of the engine has rewritten. -/
theorem mem_spread_iff_recorded (direct : Window → List Nat) (ws : List Window) (e x : Nat) :
    (e, x) ∈ (spread direct ws).2 ↔
      ∃ (i : Nat) (w : Window), ws[i]? = some w ∧ w.engine = e ∧ x ∈ recorded direct ws i ∧ ¬ rewritten ws e x 0 i := by
  rw [mem_spread]
  refine exists_congr fun i => exists_congr fun w => and_congr_right fun h => ?_
  rw [recorded_of_getElem? h]

/-- A recorded byte is direct, or computed from a byte recorded in an earlier window of the engine and not rewritten between. -/
theorem mem_recorded (h : ws[i]? = some w) (x : Nat) :
    x ∈ recorded direct ws i ↔ x ∈ direct w ∨ ∃ j u y, i < j ∧ ws[j]? = some u ∧ u.engine = w.engine ∧
      y ∈ recorded direct ws j ∧ ¬ rewritten ws w.engine y (i + 1) j ∧ w.inSrc y = true ∧ x = w.dst + (y - w.src) := by
  rw [recorded_of_getElem? h, List.mem_append, Window.mem_carried]
  refine or_congr_right ?_
  simp only [mem_spread_iff_recorded, rewritten_drop, recorded_drop, List.getElem?_drop]
  constructor
  · rintro ⟨y, ⟨n, u, hu, he, hy, hn⟩, hsrc, hx⟩
    exact ⟨i + 1 + n, u, y, by omega, hu, he, hy, hn, hsrc, hx⟩
  · rintro ⟨j, u, y, hij, hu, he, hy, hn, hsrc, hx⟩
    obtain ⟨n, rfl⟩ := Nat.exists_eq_add_of_le (show i + 1 ≤ j from hij)
    exact ⟨y, ⟨n, u, hu, he, hy, hn⟩, hsrc, hx⟩

end

/-! What a race leaves. -/

/-- A race leaves what R79 says: any value in the recorded bytes that are not rewritten, and every other byte as it was. -/
theorem raceHits_leaves {direct : Window → List Nat} {hit : Window → Nat → Prop} {s : State} (hm : s.mem.wf)
    (hd : ∀ w x, x ∈ direct w ↔ hit w x) :
    raceLeaves hit (fun _ => False) s (raceHits direct s).windows (raceHits direct s).mem := by
  refine ⟨recorded direct s.windows, fun i => ?_, fun i w x hw => ?_, fun i w x hw hx hn => ?_, fun x hx => hx.elim,
    fun x _ hx => ?_⟩
  · rw [raceHits_windows, spread_windows]
  · rw [mem_recorded hw, hd]
  · have hleft : (w.engine, x) ∈ (spread direct s.windows).2 := (mem_spread_iff_recorded _ _ _ _).2 ⟨i, w, hw, rfl, hx, hn⟩
    exact raceHits_read_mem direct s hm x (List.mem_map.2 ⟨_, hleft, rfl⟩)
  · refine raceHits_read_ne direct s x fun hmem => ?_
    obtain ⟨⟨e, y⟩, hleft, rfl⟩ := List.mem_map.1 hmem
    obtain ⟨i, w, hw, rfl, hy, hn⟩ := (mem_spread_iff_recorded _ _ _ _).1 hleft
    exact hn (hx i w hw hy)

/-- A free value drawn after a race for byte `a` is one more byte left at any value. -/
theorem raceLeaves_drawAt {hit : Window → Nat → Prop} {s t : State} (a : Nat) (hm : t.mem.wf)
    (h : raceLeaves hit (fun _ => False) s t.windows t.mem) :
    raceLeaves hit (fun x => x = a) s (drawAt [a] t).windows (drawAt [a] t).mem := by
  obtain ⟨new, hwin, hnew, hfree, -, hrest⟩ := h
  have hown : ∃ q, (drawAt [a] t).mem.read a = Config.freeByte q := drawAt_read_mem [a] t hm a (by simp)
  have hother : ∀ x, x ≠ a → (drawAt [a] t).mem.read x = t.mem.read x := fun x hx => drawAt_read_ne [a] t x (by simpa using hx)
  refine ⟨new, by simpa using hwin, hnew, fun i w x hw hx hn => ?_, fun x hx => hx ▸ hown, fun x hxa hx => ?_⟩
  · by_cases hxa : x = a
    · exact hxa ▸ hown
    · rw [hother x hxa]
      exact hfree i w x hw hx hn
  · rw [hother x hxa]
    exact hrest x id hx

/-! The bytes a race starts from. -/

/-- A host write hits the byte itself in a destination and the byte computed from it (R79). -/
theorem Window.mem_hitByWrite (a : Nat) (w : Window) (x : Nat) :
    x ∈ w.hitByWrite a ↔ (w.inDst a = true ∧ x = a) ∨ (w.inSrc a = true ∧ x = w.dst + (a - w.src)) := by
  simp [Window.hitByWrite, List.mem_ite_nil_right]

/-- A host read hits the byte itself in a destination (R79). -/
theorem Window.mem_hitByRead (a : Nat) (w : Window) (x : Nat) : x ∈ w.hitByRead a ↔ w.inDst a = true ∧ x = a := by
  simp [Window.hitByRead, List.mem_ite_nil_right]

/-- Another engine's command hits the destination bytes it reads or writes and those whose source byte it writes (R79). -/
theorem Window.mem_conflicts (v w : Window) (x : Nat) :
    x ∈ v.conflicts w ↔ ∃ i, i < v.len ∧ x = v.dst + i ∧
      (w.inSrc x = true ∨ w.inDst x = true ∨ w.inDst (v.src + i) = true) := by
  simp only [Window.conflicts, List.mem_filterMap, List.mem_range, Option.ite_none_right_eq_some, Option.some.injEq,
    Bool.or_eq_true, or_assoc]
  constructor
  · rintro ⟨i, hi, hc, rfl⟩
    exact ⟨i, hi, rfl, hc⟩
  · rintro ⟨i, hi, rfl, hc⟩
    exact ⟨i, hi, hc, rfl⟩

/-! The three races. -/

/-- The host's write of a byte in an open window is a race, and leaves any value in the byte. -/
theorem hostWriteByte_raced {a : Nat} {s : State} (h : ∃ w ∈ s.windows, w.inSrc a = true ∨ w.inDst a = true) (v : Byte) :
    hostWriteByte a v s = drawAt [a] (raceHits (Window.hitByWrite a) s) :=
  if_pos (by simpa using h)

/-- The host's read of a byte in an open window's destination is a race, and returns any value. -/
theorem hostReadByte_raced {a : Nat} {s : State} (h : ∃ w ∈ s.windows, w.inDst a = true) :
    hostReadByte a s = (Config.freeByte s.draws, raceHits (Window.hitByRead a) (s.withDraws (s.draws + 1))) :=
  if_pos (by simpa using h)

/-- Settles O49: each of the three races starts from the bytes R79 names, and `raceHits_leaves` says what it leaves. -/
theorem racedHostWriteLeavesAnyValue : Obligations.RacedHostWriteLeavesAnyValue := by
  unfold Obligations.RacedHostWriteLeavesAnyValue
  intro s hm
  refine ⟨fun a v h => ?_, fun a h => ?_, fun v => ?_⟩
  · rw [hostWriteByte_raced h]
    exact ⟨raceLeaves_drawAt a (raceHits_wf _ s hm) (raceHits_leaves hm fun w x => w.mem_hitByWrite a x), by simp, by simp⟩
  · rw [hostReadByte_raced h]
    exact ⟨⟨_, rfl⟩, raceHits_leaves (s := s.withDraws (s.draws + 1)) hm fun w x => w.mem_hitByRead a x, by simp, by simp⟩
  · refine ⟨(s.windows.filter fun w => w.engine != v.engine).flatMap v.conflicts,
      (raceHits (fun w => if w.engine = v.engine then [] else w.conflicts v) s).windows, rfl, fun x => ?_,
      raceHits_leaves hm fun w x => ?_, openWindow_eng v s, openWindow_others v s⟩
    · simp only [List.mem_flatMap, List.mem_filter, bne_iff_ne, Window.mem_conflicts, and_assoc]
    · by_cases he : w.engine = v.engine <;> simp [he, Window.mem_conflicts]

end Sys2Proof.Machine
end

section
/-! SUPPORT. The answers of the collaborator to ENC1 and ENCB (R106, R107), and where an engine is stuck (R72, R273). -/

namespace Sys2Proof.Machine

/-! The schedule and the port. -/

theorem withSchedule_of_held {k : Sched} {s : State} (h : (s.eng.id, k) ∈ s.held) (go : Result) : withSchedule k s go = go :=
  if_pos h

theorem withSchedule_of_not_held {k : Sched} {s : State} (h : (s.eng.id, k) ∉ s.held) (go : Result) :
    withSchedule k s go = .fault .cipherPortStuck := if_neg h

theorem withPort_of_clear {p : Plat} {a n : Nat} (h : portStop p a n = none) (go : Result) : withPort p a n go = go := by
  rw [withPort, h]

/-- Where the platform lacks memory the first region an access touches has none, and the engine is stuck (R72). -/
theorem withPort_of_lacks {p : Plat} {a n : Nat} (h : p.lacks a n) (go : Result) :
    withPort p a n go = .fault .dataPortStuck := by
  obtain ⟨hn, hfit, habsent, r, hr, hlo, hhi⟩ := h
  have htouch : r.touches a n = true := by simp [Region.touches, hlo, hhi]
  obtain ⟨r', hfind⟩ := Option.isSome_iff_exists.1 (List.find?_isSome.2 ⟨r, hr, htouch⟩)
  have hkind : r'.kind = .absent := habsent r' (List.mem_of_find?_eq_some hfind)
  have hstop : portStop p a n = some (.fault .dataPortStuck) := by
    rw [portStop, if_neg (by omega), if_neg (by omega)]
    simp only [hfind, hkind]
  rw [withPort, hstop]

/-! The answer to an ENC1 as a transfer. -/

section
variable {s : State} {k : Sched} {x : Block}

/-- LEAD's answer is a transfer at the start of both ranges (R148, R194). -/
theorem execEnc1_lead (hph : s.eng.phase = .lead) (hp : s.eng.pend = some (.enc1 k x)) :
    execEnc1 s = withSchedule k s (transfer s.eng.snap.s.toNat s.eng.snap.d.toNat s.eng.snap.split.lead
      ((blockBytes (responseBlock k x s)).drop (s.eng.cur.p % 16)) (afterAnswer (responseBlock k x s) (s.draws + 1) s)
      fun u => .next (goto .full
        (setCur { (u.eng.cur.advance s.eng.snap.split.lead) with nleft := s.eng.snap.split.nfull } u))) := by
  simp only [execEnc1, hp, hph]
  rfl

/-- BATCH1's answer is a transfer of a whole block at the cursor (R179, R193). -/
theorem execEnc1_full (hph : s.eng.phase = .full) (hp : s.eng.pend = some (.enc1 k x)) :
    execEnc1 s = withSchedule k s (transfer (s.eng.snap.s.toNat + s.eng.cur.pos) (s.eng.snap.d.toNat + s.eng.cur.pos) 16
      (blockBytes (responseBlock k x s)) (afterAnswer s.eng.scratch (s.draws + 1) s)
      fun u => .next (setCur { (u.eng.cur.advance 16) with nleft := u.eng.cur.nleft - 1 } u)) := by
  simp only [execEnc1, hp, hph]
  rfl

/-- TRAIL's answer is a transfer at the cursor (R151, R195). -/
theorem execEnc1_trail (hph : s.eng.phase = .trail) (hp : s.eng.pend = some (.enc1 k x)) :
    execEnc1 s = withSchedule k s (transfer (s.eng.snap.s.toNat + s.eng.cur.pos) (s.eng.snap.d.toNat + s.eng.cur.pos)
      s.eng.snap.split.trail (blockBytes (responseBlock k x s)) (afterAnswer (responseBlock k x s) (s.draws + 1) s)
      fun u => .next (goto .finish (setCur (u.eng.cur.advance s.eng.snap.split.trail) u))) := by
  simp only [execEnc1, hp, hph]
  rfl

/-- In each of its three micro-steps an ENC1 is answered by a transfer to its span. -/
theorem execEnc1_transfer (hp : s.eng.pend = some (.enc1 k x))
    (hph : s.eng.phase = .lead ∨ s.eng.phase = .full ∨ s.eng.phase = .trail) :
    ∃ ks y q go, execEnc1 s = withSchedule k s (transfer
      (if s.eng.phase = .lead then s.eng.snap.s.toNat else s.eng.snap.s.toNat + s.eng.cur.pos)
      (storeSpan .enc1 s).1 (storeSpan .enc1 s).2 ks (afterAnswer y q s) go) := by
  rcases hph with h | h | h
  · exact ⟨_, _, _, _, by simpa only [storeSpan, h, if_true] using execEnc1_lead h hp⟩
  · exact ⟨_, _, _, _, by simpa only [storeSpan, h, reduceCtorEq, if_false] using execEnc1_full h hp⟩
  · exact ⟨_, _, _, _, by simpa only [storeSpan, h, reduceCtorEq, if_false] using execEnc1_trail h hp⟩

/-- The block an ENC1 is answered with is the cipher's where the counter's result is not open (R106). -/
theorem responseBlock_of_closed (h : counterOpen s.plat s.eng.snap.ivH s.eng.snap.ivL (s.eng.cur.p / 16) = false) :
    responseBlock k x s = Config.cipherE k x := by
  simp [responseBlock, h]

/-- The block an ENC1 is answered with is any value where the counter's result is open (R125). -/
theorem responseBlock_of_open (h : counterOpen s.plat s.eng.snap.ivH s.eng.snap.ivL (s.eng.cur.p / 16) = true) :
    ∃ q, responseBlock k x s = Config.freeBlock q := by
  simp [responseBlock, h]

end

/-- What a transfer of `n` bytes leaves in memory: the source bytes XOR the keystream where no race hit, any value where one did,
and every other byte as it was (R79, R190). -/
theorem transfer_bytes {s : State} {src d n : Nat} {ks : List Byte} {f : Nat → Byte} (y : Block) (q : Nat) (hm : s.mem.wf)
    (ho : d = src ∨ overlap d src n = false) (hks : ∀ i, i < n → ks.getD i 0 = f i) :
    let t := events (fun m k => m.read (src + k)) (fun k b => xornByte b (ks.getD k 0)) d n (afterAnswer y q s)
    (∀ i, i < n → d + i ∉ racedNow s → t.mem.read (d + i) = s.mem.read (src + i) ^^^ f i) ∧
    (∀ i, i < n → d + i ∈ racedNow s → ∃ r, t.mem.read (d + i) = Config.freeByte r) ∧
    (∀ a, a < d ∨ d + n ≤ a → t.mem.read a = s.mem.read a) := by
  refine ⟨fun i hi hr => ?_, fun i hi hr => ⟨q + i, ?_⟩, fun a ha => ?_⟩
  · rw [← hks i hi]
    exact transfer_read ks (afterAnswer y q s) hm ho i hi hr
  · exact events_read_raced _ _ _ _ (afterAnswer y q s) hm (getsOwn_source _ _ _ _ ho) i hi hr
  · exact events_read_outside _ _ _ _ (afterAnswer y q s) a ha

/-- Byte `i` of a block's bytes from `j` on. -/
theorem blockBytes_drop_getD (y : Block) {i j : Nat} (h : j + i < 16) : ((blockBytes y).drop j).getD i 0 = blockByte y (j + i) := by
  simp [List.getD, blockBytes_getElem? y _ h]

/-- Settles O38: LEAD's answer is a transfer of `lead` bytes with the block from position `P mod 16` on. -/
theorem leadResponseTransformsLeadingBytes : Obligations.LeadResponseTransformsLeadingBytes := by
  unfold Obligations.LeadResponseTransformsLeadingBytes
  intro s k x hph hp hk hm sn n src d c ho hfit hsrc hdst
  change n ≤ 16 - s.eng.cur.p % 16 at hfit
  have hexec := (execEnc1_lead hph hp).trans ((withSchedule_of_held hk _).trans
    (transfer_ready (by simpa using hfit) hsrc hdst))
  refine ⟨_, responseBlock k x s, hexec, responseBlock_of_closed, responseBlock_of_open, rfl, rfl,
    transfer_bytes (responseBlock k x s) (s.draws + 1) hm ho fun i hi => blockBytes_drop_getD _ (by omega)⟩

/-- Settles O39: BATCH1's answer is a transfer of 16 bytes with the whole block, and SCRATCH stays. -/
theorem batchOneResponseTransformsBlock : Obligations.BatchOneResponseTransformsBlock := by
  unfold Obligations.BatchOneResponseTransformsBlock
  intro s k x hph hp hk hm sn c src d ho hsrc hdst
  have hexec := (execEnc1_full hph hp).trans ((withSchedule_of_held hk _).trans
    (transfer_ready (by simp) hsrc hdst))
  refine ⟨_, responseBlock k x s, hexec, responseBlock_of_closed, responseBlock_of_open, rfl, rfl,
    transfer_bytes s.eng.scratch (s.draws + 1) hm ho fun i hi => blockBytes_getD _ hi⟩

/-- Settles O40: TRAIL's answer is a transfer of `trail` bytes, fewer than a block has. -/
theorem trailResponseTransformsTrailingBytes : Obligations.TrailResponseTransformsTrailingBytes := by
  unfold Obligations.TrailResponseTransformsTrailingBytes
  intro s k x hph hp hk hm sn n c src d ho hsrc hdst
  have hn : n < 16 := split_trail_lt _ _
  have hexec := (execEnc1_trail hph hp).trans ((withSchedule_of_held hk _).trans
    (transfer_ready (by simpa using hn.le) hsrc hdst))
  refine ⟨_, responseBlock k x s, hexec, responseBlock_of_closed, responseBlock_of_open, rfl, rfl,
    transfer_bytes (responseBlock k x s) (s.draws + 1) hm ho fun i hi => blockBytes_getD _ (by omega)⟩

/-! The answer to an ENCB. -/

/-- The answer to the batch that FULL waits for stores its output, if the schedule is held and the port lets it through (R107). -/
theorem answerBatch_pending {s : State} {w : Width} {k : Sched} {iv : Block} {start : Word} {data : List Byte}
    (hph : s.eng.phase = .full) (hp : s.eng.pend = some (.encb w k iv start data)) :
    answerBatch w s = withSchedule k s (withPort s.plat (s.eng.snap.d.toNat + s.eng.cur.pos) (16 * w.blocks)
      (.next (setCur { (s.eng.cur.advance (16 * w.blocks)) with nleft := s.eng.cur.nleft - w.blocks }
        (store (s.eng.snap.d.toNat + s.eng.cur.pos) (batchOut s.plat s.draws k iv start w.blocks data)
          ((answered s).withDraws (s.draws + w.blocks)))))) := by
  rw [answerBatch, hp]
  exact if_pos ⟨rfl, hph⟩

/-- Byte `16l + j` of a batch's output is that byte of DATA XOR byte `j` of lane `l`'s block (R107). -/
theorem batchOut_lane (p : Plat) (q : Nat) (k : Sched) (iv : Block) (start : Word) {w l j : Nat} {data : List Byte}
    (hd : data.length = 16 * w) (hl : l < w) (hj : j < 16) :
    some ((batchOut p q k iv start w data).getD (16 * l + j) 0) = (data[16 * l + j]?).map fun b =>
      b ^^^ blockByte (keyBlock p (q + l) k (ivHigh iv) (ivLow iv) (start.toNat + l)) j := by
  have hi : 16 * l + j < 16 * w := by omega
  have hlane := laneStream_getD p q k iv start hl hj
  rw [List.getD_eq_getElem _ _ (by simpa using hi)] at hlane
  rw [List.getElem?_eq_getElem (by omega), Option.map_some, ← hlane, List.getD_eq_getElem _ _ (by simpa [batchOut, hd] using hi)]
  simp only [batchOut, List.getElem_zipWith, xornByte]

/-- A lane's block is the cipher's where the counter's result is not open (R107). -/
theorem keyBlock_of_closed {p : Plat} {ivH ivL : Word} {b : Nat} (q : Nat) (k : Sched) (h : counterOpen p ivH ivL b = false) :
    keyBlock p q k ivH ivL b = Config.cipherE k (ctr ivH ivL (BitVec.ofNat 64 b)) := by
  simp [keyBlock, h]

/-- A lane's block is any value where the counter's result is open (R125). -/
theorem keyBlock_of_open {p : Plat} {ivH ivL : Word} {b : Nat} (q : Nat) (k : Sched) (h : counterOpen p ivH ivL b = true) :
    keyBlock p q k ivH ivL b = Config.freeBlock q := by
  simp [keyBlock, h]

/-- Settles O41: the answer stores the batch's output, which is DATA XOR the keystream lane by lane. -/
theorem batchResponseStoresOutput : Obligations.BatchResponseStoresOutput := by
  unfold Obligations.BatchResponseStoresOutput
  intro s w k ivH ivL start data hph hp hk hm hd c d hdst
  let out := batchOut s.plat s.draws k (ivBlock ivH ivL) start w.blocks data
  let u := (answered s).withDraws (s.draws + w.blocks)
  have hlen : out.length = 16 * w.blocks := batchOut_length _ _ _ _ _ hd
  have hexec : exec (Width.instr w) s =
      .next (setCur { (c.advance (16 * w.blocks)) with nleft := c.nleft - w.blocks } (store d out u)) := by
    rw [exec_widthInstr, answerBatch_pending hph hp, withSchedule_of_held hk, withPort_of_clear hdst]
  refine ⟨_, hexec, rfl, ?_, fun i hi => ?_, fun i hi hr => ?_, fun a ha => ?_⟩
  · rw [← hlen]
    rfl
  · refine ⟨keyBlock s.plat (s.draws + i) k ivH ivL (start.toNat + i), keyBlock_of_closed _ k,
      fun h => ⟨_, keyBlock_of_open _ k h⟩, fun j hj hr => ?_⟩
    have hlane := batchOut_lane s.plat s.draws k (ivBlock ivH ivL) start hd hi hj
    rw [ivHigh_ivBlock, ivLow_ivBlock] at hlane
    rw [← hlane]
    exact congrArg some (store_read_inside d u out hm (16 * i + j) (by omega) hr)
  · exact ⟨_, store_read_raced d u out hm i (by omega) hr⟩
  · exact store_read_outside d u out a (by omega)

/-! Where an engine is stuck. -/

/-- The width of an Accelerated FULL step with two or more blocks left is the widest that fits (R172). -/
theorem widthKind_of_widest {n : Nat} {w : Width} (hle : w.blocks ≤ n) (h8 : 8 ≤ n → w = .w8)
    (h4 : 4 ≤ n → n < 8 → w = .w4) : widthKind (width n .accelerated) = some w := by
  simp only [width]
  split_ifs with hn8 hn4 hn2
  · rw [h8 hn8]
    rfl
  · rw [h4 hn4 (by omega)]
    rfl
  · cases w with
    | w2 => rfl
    | w4 | w8 => simp only [Width.blocks] at hle; omega
  · cases w <;> simp only [Width.blocks] at hle <;> omega

/-- The issue of a batch is stuck where the platform lacks memory for its source bytes (R72). -/
theorem issueBatch_of_lacks {s : State} {w : Width} {k : Sched} (hk : s.eng.sched = some k)
    (h : s.plat.lacks (s.eng.snap.s.toNat + s.eng.cur.pos) (16 * w.blocks)) : issueBatch w s = .fault .dataPortStuck := by
  simp only [issueBatch, hk]
  exact withPort_of_lacks h _

/-- Settles O52: the schedule is asked for first, then memory for the source bytes, then memory for the destination bytes. -/
theorem stuckWithoutMemoryOrSchedule : Obligations.StuckWithoutMemoryOrSchedule := by
  unfold Obligations.StuckWithoutMemoryOrSchedule
  intro s k sn
  refine ⟨fun x hp hph => ?_, fun w iv start data hp hph => ?_, fun w hp hk hph hback hle h8 h4 hsrc => ?_⟩
  · obtain ⟨ks, y, q, go, hexec⟩ := execEnc1_transfer hp hph
    intro d n src
    rw [exec, hexec]
    refine ⟨fun hk => withSchedule_of_not_held hk _, fun hk hsrc => ?_, fun hk hsrc hdst => ?_⟩
    · rw [withSchedule_of_held hk, transfer]
      exact withPort_of_lacks hsrc _
    · rw [withSchedule_of_held hk, transfer]
      exact (withPort_of_clear hsrc _).trans (withPort_of_lacks hdst _)
  · rw [exec_widthInstr, answerBatch_pending hph hp]
    exact ⟨fun hk => withSchedule_of_not_held hk _, fun hk hdst => by rw [withSchedule_of_held hk, withPort_of_lacks hdst]⟩
  · have hleft : s.eng.cur.nleft ≠ 0 := by
      have hw : 0 < w.blocks := by cases w <;> decide
      omega
    have hexec : exec .apply s = issueBatch w s := by
      have hwidth : widthKind (width s.eng.cur.nleft s.eng.snap.backend) = some w :=
        hback ▸ widthKind_of_widest hle h8 h4
      simp [exec, execApply, hph, hp, microFull, hleft, hwidth]
    exact hexec.trans (issueBatch_of_lacks hk hsrc)

end Sys2Proof.Machine
end

section
/-! SUPPORT. The decoders and encoders of the two formats (R93, R94, R97, R104), and the register map (R90, R91). -/

namespace Sys2Proof.Machine

/-! Command words. -/

/-- A word with RSVD = 0 is its OP (R93). -/
theorem eq_ofNat_of_fields {v : Word} {n : Nat} (hn : n < 256) (hr : cmdRsvd v = 0) (ho : cmdOp v = BitVec.ofNat 8 n) :
    v = BitVec.ofNat 64 n := by
  have hrsvd : v.toNat / 256 = 0 := by rw [← cmdRsvd_toNat, hr]; rfl
  have hop : v.toNat % 256 = n := by rw [← cmdOp_toNat, ho, BitVec.toNat_ofNat, Nat.mod_eq_of_lt hn]
  apply BitVec.eq_of_toNat_eq
  rw [BitVec.toNat_ofNat]
  omega

/-- A command is decoded from its command word (R94). -/
theorem decodeCmd_encodeCmd {i : Instr} (h : i.isCommand = true) : decodeCmd (encodeCmd i) = .instr i := by
  cases i with
  | nop | construct | apply | counter | plan => rfl
  | expand | enc1 | encb2 | encb4 | encb8 => cases h

/-- What a command word decodes to is a command, and the word is the command's (R94). -/
theorem eq_encodeCmd_of_decodeCmd {v : Word} {i : Instr} (h : decodeCmd v = .instr i) :
    i.isCommand = true ∧ v = encodeCmd i := by
  unfold decodeCmd at h
  split_ifs at h with hr <;> cases h <;>
    exact ⟨rfl, eq_ofNat_of_fields (by decide) (not_not.1 hr) ‹_›⟩

/-- Decoding a command word undoes encoding, and nothing else does. -/
theorem decodeCmd_iff {v : Word} {i : Instr} : decodeCmd v = .instr i ↔ i.isCommand = true ∧ v = encodeCmd i :=
  ⟨eq_encodeCmd_of_decodeCmd, fun ⟨hi, hv⟩ => hv ▸ decodeCmd_encodeCmd hi⟩

/-- A command is decoded from its command word alone. -/
theorem decodeCmd_iff_of_isCommand {i : Instr} (hi : i.isCommand = true) (v : Word) :
    decodeCmd v = .instr i ↔ v = encodeCmd i := by
  rw [decodeCmd_iff, and_iff_right hi]

/-- The command words are the numbers 0 to 4 (R94). -/
theorem exists_encodeCmd_iff (v : Word) : (∃ i : Instr, i.isCommand = true ∧ v = encodeCmd i) ↔ v.toNat < 5 := by
  constructor
  · rintro ⟨i, hi, rfl⟩
    cases i with
    | nop | construct | apply | counter | plan => decide
    | expand | enc1 | encb2 | encb4 | encb8 => cases hi
  · intro hv
    interval_cases hn : v.toNat
    · exact ⟨.nop, rfl, BitVec.eq_of_toNat_eq hn⟩
    · exact ⟨.construct, rfl, BitVec.eq_of_toNat_eq hn⟩
    · exact ⟨.apply, rfl, BitVec.eq_of_toNat_eq hn⟩
    · exact ⟨.counter, rfl, BitVec.eq_of_toNat_eq hn⟩
    · exact ⟨.plan, rfl, BitVec.eq_of_toNat_eq hn⟩

/-- A word is rejected exactly when it is no command's. -/
theorem decodeCmd_reject_iff (v : Word) : (∃ why, decodeCmd v = .reject why) ↔ ¬ v.toNat < 5 := by
  rw [← exists_encodeCmd_iff]
  cases h : decodeCmd v with
  | instr i => simpa using ⟨i, decodeCmd_iff.1 h⟩
  | reject why =>
    have hnone : ¬ ∃ i : Instr, i.isCommand = true ∧ v = encodeCmd i := fun ⟨i, hi⟩ => by
      rw [decodeCmd_iff.2 hi] at h
      cases h
    simp [hnone]

/-! Request kinds. -/

/-- What a KIND decodes to is a request, and the KIND is the request's (R104). -/
theorem eq_encodeKind_of_decodeKind {k : BitVec 3} {i : Instr} (h : decodeKind k = .instr i) : k = encodeKind i := by
  unfold decodeKind at h
  split_ifs at h <;> cases h <;> assumption

/-- A request kind is decoded from its KIND alone (R104). -/
theorem decodeKind_iff_of_isRequest {i : Instr} (hi : i.isCommand = false) (k : BitVec 3) :
    decodeKind k = .instr i ↔ k = encodeKind i := by
  refine ⟨eq_encodeKind_of_decodeKind, ?_⟩
  rintro rfl
  cases i with
  | nop | construct | apply | counter | plan => cases hi
  | expand | enc1 | encb2 | encb4 | encb8 => rfl

/-! The statements. -/

/-- Settles O2: each decoder undoes its encoder, and a word it takes to an instruction is the one the encoder gives. -/
theorem decodeAndEncodeAgree : Obligations.DecodeAndEncodeAgree := by
  unfold Obligations.DecodeAndEncodeAgree
  exact fun i => ⟨decodeCmd_iff_of_isCommand, decodeKind_iff_of_isRequest⟩

/-- Settles O1: the rows of R94 are the five command words, and the rejected words are the others. -/
theorem commandWordsDecodeTotally : Obligations.CommandWordsDecodeTotally := by
  unfold Obligations.CommandWordsDecodeTotally
  intro v
  have hrow (i : Instr) (hi : i.isCommand = true) := decodeCmd_iff_of_isCommand hi v
  refine ⟨hrow .nop rfl, hrow .construct rfl, hrow .apply rfl, hrow .counter rfl, hrow .plan rfl, ?_,
    fun i h => (decodeCmd_iff.1 h).1⟩
  rw [decodeCmd_reject_iff]
  omega

/-- Settles O3, by evaluating the decoders. -/
theorem writtenWordsDecode : Obligations.WrittenWordsDecode := by
  unfold Obligations.WrittenWordsDecode
  decide

/-- Settles O4: looking an offset up undoes the map. -/
theorem registerMapIsOneToOne : Obligations.RegisterMapIsOneToOne := by
  unfold Obligations.RegisterMapIsOneToOne
  refine ⟨fun r off => ⟨offsetIn_of_atOffset, ?_⟩, by decide⟩
  rintro rfl
  exact atOffset_offsetIn r

end Sys2Proof.Machine
end

section
/-! SUPPORT. The step of an engine (R37, R95, R226, R271), also of one among the others (R256; log entries 1 and 23). -/

namespace Sys2Proof.Machine

/-! The step of the engine at `eng`. -/

/-- An idle engine has no step (R271). -/
theorem engineStep_idle {s : State} (hph : s.eng.phase = .idle) : engineStep s = .next s := by
  simp [engineStep, hph]

/-- An engine that is not idle runs the command its snapshot decodes to (R95). -/
theorem engineStep_command {s : State} {i : Instr} (hph : s.eng.phase ≠ .idle) (hi : decodeCmd s.eng.snap.op = .instr i) :
    engineStep s = exec i s := by
  simp [engineStep, hph, hi]

/-- An engine that is not idle completes an illegal command word with code 7 (R226). -/
theorem engineStep_illegal {s : State} {why : Reject} (hph : s.eng.phase ≠ .idle)
    (hop : decodeCmd s.eng.snap.op = .reject why) :
    engineStep s = .next (complete 7 s) := by
  simp only [engineStep, hph, hop]
  rfl

/-! The step of another engine. -/

/-- The state with the engine `e`, which stands between `before` and `after` in the others, at `eng` (log entry 23). -/
def State.refocus (s : State) (before : List Engine) (e : Engine) (after : List Engine) : State :=
  { s with eng := e, others := s.eng :: (before ++ after) }

section
variable {s : State} {before after : List Engine} {e : Engine} (ho : s.others = before ++ e :: after)
include ho

/-- A turn of another engine or of its collaborator is that of the state with this engine at `eng`. -/
theorem agentStep_refocus {a : Agent} (ha : a = .engine e.id ∨ a = .cipher e.id) (hne : s.eng.id ≠ e.id)
    (hb : ∀ f ∈ before, f.id ≠ e.id) : agentStep a s = agentStep a (s.refocus before e after) := by
  have hfocus : focus (fun f => f.id == e.id) s = some (s.refocus before e after) :=
    focus_other ho (by simpa using hne) (by simpa using hb) (by simp)
  have hself : focus (fun f => f.id == e.id) (s.refocus before e after) = some (s.refocus before e after) := focus_eng_id _
  rcases ha with rfl | rfl <;> simp only [agentStep, hfocus, hself]

/-- The default schedule chooses the first busy engine, or the collaborator it waits for (log entry 1). -/
theorem nextAgent_of_other_busy (hs : s.eng.status.busy = false) (hb : ∀ f ∈ before, f.status.busy = false)
    (he : e.status.busy = true) : nextAgent s = mover e := by
  have hbefore : before.find? (fun f => f.status.busy) = none := by simpa using hb
  simp [nextAgent, hs, ho, List.find?_append, hbefore, he]

end

/-- The agent that moves for an engine is the engine or its collaborator. -/
theorem mover_eq (e : Engine) : mover e = .engine e.id ∨ mover e = .cipher e.id := by
  unfold mover
  split
  · exact .inr rfl
  · exact .inl rfl

/-- Settles O5: the step is traced from the schedule to the engine found, and that engine's step to its three outcomes. -/
theorem stepRunsDecodedCommand : Obligations.StepRunsDecodedCommand := by
  unfold Obligations.StepRunsDecodedCommand
  refine ⟨fun s rest h => ?_, fun s before after e ho hne hb h => ?_⟩
  · have hstep : step s = engineStep (s.withTurns rest) :=
      (step_of_scheduled (h.imp_right fun ⟨ht, hrest, hbusy, hp⟩ =>
        ⟨ht, hrest, by simp [nextAgent_of_busy hbusy, mover, hp]⟩)).trans (agentStep_engine_self (s.withTurns rest))
    rw [hstep]
    exact ⟨fun hph i => engineStep_command (s := s.withTurns rest) hph,
      fun hph why => engineStep_illegal (s := s.withTurns rest) hph,
      fun hph => engineStep_idle (s := s.withTurns rest) hph⟩
  · change step s = step (s.refocus before e after)
    rcases h with ⟨rest, ht⟩ | ⟨ht, hs, hbefore, he⟩
    · calc step s = agentStep (.engine e.id) (s.withTurns rest) := step_of_scheduled (.inl ht)
        _ = agentStep (.engine e.id) ((s.refocus before e after).withTurns rest) :=
          agentStep_refocus (s := s.withTurns rest) ho (.inl rfl) hne hb
        _ = step (s.refocus before e after) := (step_of_scheduled (s := s.refocus before e after) (.inl ht)).symm
    · have hmover := nextAgent_of_other_busy ho hs hbefore he
      calc step s = agentStep (mover e) (s.withTurns []) := step_of_scheduled (.inr ⟨ht, rfl, hmover⟩)
        _ = agentStep (mover e) ((s.refocus before e after).withTurns []) :=
          agentStep_refocus (s := s.withTurns []) ho (mover_eq e) hne hb
        _ = step (s.refocus before e after) :=
          (step_of_scheduled (s := s.refocus before e after) (.inr ⟨ht, rfl, nextAgent_of_busy he⟩)).symm

end Sys2Proof.Machine
end

section
/-! SUPPORT. The requests an engine issues (R105 to R107), and the answer that completes CONSTRUCT (R222). -/

namespace Sys2Proof.Machine

/-! CONSTRUCT. -/

/-- CONSTRUCT with a legal key length issues EXPAND (R222). -/
theorem exec_construct_issues {s : State} {nr : BitVec 8} (hph : s.eng.phase = .exec) (hp : s.eng.pend = none)
    (hnr : roundCount s.eng.snap.keyLen.toNat = some nr) :
    exec .construct s =
      .next (issue (.expand nr (BitVec.ofNat 8 s.eng.snap.keyLen.toNat) (constructKey s.eng.snap)) false s) := by
  simp [exec, execConstruct, hph, hp, hnr]

/-- Settles O19: each legal length has its round count (R221), and the request flags no overflow. -/
theorem constructIssuesExpand : Obligations.ConstructIssuesExpand := by
  unfold Obligations.ConstructIssuesExpand
  intro s nr hph hp hlen
  have hnr : roundCount s.eng.snap.keyLen.toNat = some nr := by
    rcases hlen with ⟨h, rfl⟩ | ⟨h, rfl⟩ | ⟨h, rfl⟩ <;> rw [h] <;> rfl
  rw [exec_construct_issues hph hp hnr, issue, flagWrap_false]
  rfl

/-- Settles O20: the answer binds the schedule and completes with code 0. -/
theorem expandResponseBindsInstance : Obligations.ExpandResponseBindsInstance := by
  unfold Obligations.ExpandResponseBindsInstance
  intro s nr keylen key hph hp k
  rw [exec, execExpand, hp]
  exact if_pos hph

/-! The issue of a block. -/

/-- When a counter overflows, as R123 writes it. -/
theorem ctrOverflows_eq (ivH ivL : Word) (b : Nat) :
    ctrOverflows ivH ivL b = decide (ivH.toNat = 2 ^ 64 - 1 ∧ 2 ^ 64 ≤ ivL.toNat + b) := by
  have hones : ivH = BitVec.allOnes 64 ↔ ivH.toNat = 2 ^ 64 - 1 := by rw [← BitVec.toNat_inj, BitVec.toNat_allOnes]
  rw [ctrOverflows, Bool.decide_and, ← decide_eq_decide.2 hones, Bool.beq_eq_decide_eq]

/-- With a bound schedule a block step issues its ENC1 (R106). -/
theorem issueBlock_of_sched {s : State} {k : Sched} (hk : s.eng.sched = some k) (b : Nat) :
    issueBlock b s = .next (issue (.enc1 k (ctr s.eng.snap.ivH s.eng.snap.ivL (BitVec.ofNat 64 b)))
      (ctrOverflows s.eng.snap.ivH s.eng.snap.ivL b) s) :=
  issueBlock_next.2 ⟨k, hk, rfl⟩

/-- With no request pending APPLY in LEAD takes LEAD's step (R145). -/
theorem exec_apply_lead {s : State} (hph : s.eng.phase = .lead) (hp : s.eng.pend = none) : exec .apply s = microLead s := by
  simp [exec, execApply, hph, hp]

/-- With no request pending APPLY in FULL takes FULL's step (R145). -/
theorem exec_apply_full {s : State} (hph : s.eng.phase = .full) (hp : s.eng.pend = none) : exec .apply s = microFull s := by
  simp [exec, execApply, hph, hp]

/-- With no request pending APPLY in TRAIL takes TRAIL's step (R145). -/
theorem exec_apply_trail {s : State} (hph : s.eng.phase = .trail) (hp : s.eng.pend = none) : exec .apply s = microTrail s := by
  simp [exec, execApply, hph, hp]

/-- The Portable backend and a last block alone have width 1, which is no batch (R172, R179). -/
theorem widthKind_of_single {n : Nat} {b : Backend} (h : b = .portable ∨ n = 1) : widthKind (width n b) = none := by
  rcases h with rfl | rfl
  · rfl
  · cases b <;> rfl

/-- A FULL step with blocks left whose width is a batch's issues that batch (R175). -/
theorem microFull_batch {s : State} {w : Width} (hn : 0 < s.eng.cur.nleft)
    (hw : widthKind (width s.eng.cur.nleft s.eng.snap.backend) = some w) : microFull s = issueBatch w s := by
  simp [microFull, hn.ne', hw]

/-- A FULL step with blocks left and width 1 issues an ENC1 (R179). -/
theorem microFull_block {s : State} (hn : 0 < s.eng.cur.nleft)
    (hw : widthKind (width s.eng.cur.nleft s.eng.snap.backend) = none) : microFull s = issueBlock (s.eng.cur.p / 16) s := by
  simp [microFull, hn.ne', hw]

/-- Settles O35: each of the four steps is the issue of the block at `P div 16`, in the PHASE it is in or has moved to. -/
theorem blockStepsIssueOneEnc1 : Obligations.BlockStepsIssueOneEnc1 := by
  unfold Obligations.BlockStepsIssueOneEnc1
  intro s k hp hk sn b waits
  have hwaits {ph : Phase} (hexec : exec .apply s = issueBlock b (goto ph s)) : waits ph := by
    rw [issueBlock_of_sched (s := goto ph s) hk, ctrOverflows_eq] at hexec
    exact hexec
  refine ⟨fun hph hl => hwaits ?_, fun hph hn hwidth => hwaits ?_, fun hph hn ht => hwaits ?_, fun hph ht => hwaits ?_⟩
  · rw [goto_self hph, exec_apply_lead hph hp]
    exact if_neg hl.ne'
  · rw [goto_self hph, exec_apply_full hph hp]
    exact microFull_block hn (widthKind_of_single hwidth)
  · rw [exec_apply_full hph hp, microFull, if_pos hn]
    exact if_neg ht.ne'
  · rw [goto_self hph, exec_apply_trail hph hp]
    exact if_neg ht.ne'

/-! The issue of a batch. -/

/-- A batch has a block. -/
theorem blocks_pos (w : Width) : 0 < w.blocks := by cases w <;> decide

/-- With a bound schedule and memory for the source bytes a batch step issues its ENCB (R107). -/
theorem issueBatch_of_clear {s : State} {w : Width} {k : Sched} (hk : s.eng.sched = some k)
    (h : portStop s.plat (s.eng.snap.s.toNat + s.eng.cur.pos) (16 * w.blocks) = none) :
    issueBatch w s = .next (issue
      (.encb w k (ivBlock s.eng.snap.ivH s.eng.snap.ivL) (BitVec.ofNat 64 (s.eng.cur.p / 16))
        (s.mem.readN (s.eng.snap.s.toNat + s.eng.cur.pos) (16 * w.blocks)))
      (ctrOverflows s.eng.snap.ivH s.eng.snap.ivL (s.eng.cur.p / 16 + w.blocks - 1)) s) := by
  simp only [issueBatch, hk]
  exact withPort_of_clear h _

/-- Settles O36: the widest batch that fits is the one FULL issues, and its last lane is block `P div 16 + w - 1`. -/
theorem batchStepsIssueOneEncb : Obligations.BatchStepsIssueOneEncb := by
  unfold Obligations.BatchStepsIssueOneEncb
  intro s k w hp hk hph sn b src hback hle h8 h4 hsrc
  have hwidth : widthKind (width s.eng.cur.nleft s.eng.snap.backend) = some w := hback ▸ widthKind_of_widest hle h8 h4
  have hlast : sn.ivL.toNat + (b + w.blocks - 1) = sn.ivL.toNat + b + w.blocks - 1 := by
    have := blocks_pos w
    omega
  rw [exec_apply_full hph hp, microFull_batch ((blocks_pos w).trans_le hle) hwidth, issueBatch_of_clear hk hsrc,
    ctrOverflows_eq, hlast]
  rfl

end Sys2Proof.Machine
end

section
/-! SUPPORT. The counter block (R120 to R122) and COUNTER (R123, R128). -/

namespace Sys2Proof.Machine

/-! The carry. -/

/-- The low half has wrapped below `ivLow` exactly when the sum reaches `2^64` (R121). -/
theorem ctrLow_lt_iff (ivL b : Word) : ctrLow ivL b < ivL ↔ 2 ^ 64 ≤ ivL.toNat + b.toNat := by
  rw [ctrLow, BitVec.lt_def, BitVec.toNat_add]
  omega

theorem ctrCarry_eq (ivL b : Word) : ctrCarry ivL b = decide (2 ^ 64 ≤ ivL.toNat + b.toNat) :=
  decide_eq_decide.2 (ctrLow_lt_iff ivL b)

/-- The carry as a number is the quotient of the sum (R121). -/
theorem ctrCarry_eq_div (ivL b : Word) :
    (if ctrCarry ivL b = true then 1 else 0) = (ivL.toNat + b.toNat) / 2 ^ 64 := by
  rw [ctrCarry_eq]
  simp only [decide_eq_true_eq]
  split <;> omega

/-- Settles O25: both halves of the sum are below `2^64`, so it wraps at most once. -/
theorem carryIsTheSumsQuotient : Obligations.CarryIsTheSumsQuotient := by
  unfold Obligations.CarryIsTheSumsQuotient
  exact fun ivL b => ⟨ctrLow_lt_iff ivL b, ctrCarry_eq_div ivL b, by omega⟩

/-! The counter block as a number. -/

/-- The high half is IVH and the carry, modulo `2^64` (R120). -/
theorem ctrHigh_eq (ivH ivL b : Word) :
    ctrHigh ivH ivL b = BitVec.ofNat 64 (ivH.toNat + if ctrCarry ivL b = true then 1 else 0) := by
  rw [ctrHigh]
  split <;> simp [BitVec.ofNat_add]

/-- The low half is the sum modulo `2^64` (R120). -/
theorem ctrLow_eq (ivL b : Word) : ctrLow ivL b = BitVec.ofNat 64 (ivL.toNat + b.toNat) := by
  simp [ctrLow, BitVec.ofNat_add]

/-- The IV as a number is its high half times `2^64` and its low half (R26). -/
theorem ivBlock_toNat (h l : Word) : (ivBlock h l).toNat = 2 ^ 64 * h.toNat + l.toNat := by
  rw [ivBlock, BitVec.toNat_append, ← Nat.shiftLeft_add_eq_or_of_lt l.isLt, Nat.shiftLeft_eq, Nat.mul_comm]

/-- The counter block is the IV plus the block index, modulo `2^128` (R122, R123). -/
theorem ctr_toNat (ivH ivL b : Word) : (ctr ivH ivL b).toNat = ((ivBlock ivH ivL).toNat + b.toNat) % 2 ^ 128 := by
  rw [ctr, ctrHigh_eq, ctrLow_eq, ctrCarry_eq_div, ivBlock_toNat, ivBlock_toNat, BitVec.toNat_ofNat, BitVec.toNat_ofNat]
  omega

/-- Settles O26: without a carry out of the high half the sum is below `2^128`. -/
theorem counterBlockIsThe128BitSum : Obligations.CounterBlockIsThe128BitSum := by
  unfold Obligations.CounterBlockIsThe128BitSum
  refine fun ivH ivL b => ⟨fun hfits => ?_, ctr_toNat ivH ivL b⟩
  have hlt : (ivBlock ivH ivL).toNat + b.toNat < 2 ^ 128 := by
    rw [ctrCarry_eq_div] at hfits
    rw [ivBlock_toNat]
    omega
  rw [ctr_toNat, Nat.mod_eq_of_lt hlt]

/-! COUNTER. -/

/-- COUNTER's test of an overflow is that of the counter of block `b` (R123). -/
theorem counterWraps_eq (ivH ivL b : Word) :
    (decide (ivH = BitVec.allOnes 64) && ctrCarry ivL b) = ctrOverflows ivH ivL b.toNat := by
  rw [ctrCarry_eq, ctrOverflows, Bool.beq_eq_decide_eq]

/-- COUNTER flags an overflow and gives the counter block, or free values where the counter is left open (R123, R128). -/
theorem exec_counter {s : State} (hph : s.eng.phase = .exec) (hiv : s.eng.snap.ivLen = 16) :
    let sn := s.eng.snap
    let flagged := s.withEng { s.eng with status := s.eng.status.flagWrap (ctrOverflows sn.ivH sn.ivL sn.bi.toNat) }
    exec .counter s = .next (complete 0 (if counterOpen s.plat sn.ivH sn.ivL sn.bi.toNat = true then
      setCounterOut (Config.freeWord s.draws) (Config.freeWord (s.draws + 1)) (flagged.withDraws (s.draws + 2))
      else setCounterOut (ctrHigh sn.ivH sn.ivL sn.bi) (ctrLow sn.ivL sn.bi) flagged)) := by
  simp only [exec, execCounter, hph, hiv, ne_eq, not_true_eq_false, if_false, counterWraps_eq, counterOpen, Bool.and_comm]
  split <;> rfl

/-- Settles O22: no overflow, or the choice of WRAP, leaves no counter open. -/
theorem counterGivesCounterBlock : Obligations.CounterGivesCounterBlock := by
  unfold Obligations.CounterGivesCounterBlock
  intro s hph hiv sn carry wraps hdefined
  have hcarry : ctrCarry sn.ivL sn.bi = carry := ctrCarry_eq _ _
  have hwraps : ctrOverflows sn.ivH sn.ivL sn.bi.toNat = wraps := by
    rw [ctrOverflows_eq, Bool.decide_and]
  have hclosed : ¬ counterOpen s.plat sn.ivH sn.ivL sn.bi.toNat = true := by
    rcases hdefined with h | h <;> simp [counterOpen, hwraps, h]
  rw [exec_counter hph hiv, if_neg hclosed, ctrHigh_eq, ctrLow_eq, hcarry, hwraps]
  rfl

/-- Settles O23: an overflowing counter that the parameter leaves open draws both result registers. -/
theorem counterOverflowIsAnyValue : Obligations.CounterOverflowIsAnyValue := by
  unfold Obligations.CounterOverflowIsAnyValue
  intro s hph hiv hovf hones hcarry
  have hwraps : ctrOverflows s.eng.snap.ivH s.eng.snap.ivL s.eng.snap.bi.toNat = true := by
    rw [ctrOverflows_eq]
    exact decide_eq_true ⟨hones, hcarry⟩
  have hopen : counterOpen s.plat s.eng.snap.ivH s.eng.snap.ivL s.eng.snap.bi.toNat = true := by
    simp [counterOpen, hovf, hwraps]
  rw [exec_counter hph hiv, if_pos hopen, hwraps, Status.flagWrap, Bool.or_true]
  rfl

end Sys2Proof.Machine
end

section
/-! SUPPORT. What a whole APPLY leaves beside the bytes it combines (R130, R141). -/

namespace Sys2Proof.Machine

section
variable {k : Sched} {s₀ s : State} {ph : Phase} {pos nl : Nat}

/-- A running APPLY has changed no field of STATUS but CTR_WRAP, which a counter that overflowed has set (R130). -/
theorem Reached.status (h : Reached k s₀ ph pos nl s) : s.eng.status = s₀.eng.status.flagWrap (wrapsAt s₀.eng.snap pos) := by
  have hrest : { s.eng.status with ctrWrap := false } = { s₀.eng.status with ctrWrap := false } :=
    congrArg (·.eng.status) h.frame
  calc s.eng.status = { ({ s.eng.status with ctrWrap := false } : Status) with ctrWrap := s.eng.status.ctrWrap } := rfl
    _ = s₀.eng.status.flagWrap (wrapsAt s₀.eng.snap pos) := by rw [hrest, h.wrap]; rfl

theorem Reached.regs (h : Reached k s₀ ph pos nl s) : s.eng.regs = s₀.eng.regs := congrArg (·.eng.regs) h.frame
theorem Reached.backendSel (h : Reached k s₀ ph pos nl s) : s.eng.backendSel = s₀.eng.backendSel :=
  congrArg (·.eng.backendSel) h.frame
theorem Reached.results (h : Reached k s₀ ph pos nl s) : s.eng.results = s₀.eng.results := congrArg (·.eng.results) h.frame
theorem Reached.others (h : Reached k s₀ ph pos nl s) : s.others = s₀.others := congrArg (·.others) h.frame

end

/-- Settles O57: the run ends with the completion of a state that has combined the whole range, whose frame `Reached` keeps. -/
theorem applyTransformsItsRange : Obligations.ApplyTransformsItsRange := by
  unfold Obligations.ApplyTransformsItsRange
  intro s k hm h₀
  obtain ⟨t, hrun, hreach⟩ := apply_run h₀ hm
  have hstatus : (complete 0 t).eng.status =
      { s.eng.status.flagWrap (wrapsAt s.eng.snap s.eng.snap.nd.toNat) with busy := false, done := true, err := 0 } := by
    rw [← hreach.status]
    rfl
  exact ⟨complete 0 t, hrun, hreach.applied, rfl, hreach.pend, hstatus, hreach.regs, hreach.backendSel, hreach.results,
    hreach.sched, hreach.others, hreach.plat, hreach.held, hreach.windows⟩

end Sys2Proof.Machine
end

section
/-! SUPPORT. The blocks the segments of a range lie in (R140, R143), PLAN's report (R155), the micro-steps of APPLY that issue no
request (R147 to R152), and the backend of a whole APPLY (R154). -/

namespace Sys2Proof.Machine

/-! A whole APPLY on either backend. -/

/-- R141 does not name the backend. -/
theorem appliedTo_withBackend (p : Plat) (k : Sched) (sn : Snap) (b : Backend) (m m' : Memory) :
    appliedTo p k { sn with backend := b } m m' ↔ appliedTo p k sn m m' := Iff.rfl

/-- Neither the checks of an APPLY nor its ranges and its schedule depend on the backend (R146). -/
theorem applyReady_withBackend (k : Sched) (s : State) (b : Backend) :
    applyReady k (s.withEng { s.eng with snap := { s.eng.snap with backend := b } }) ↔ applyReady k s := Iff.rfl

/-- Settles O58: on either backend the run leaves R141's result, which is unique where no counter's result is open. -/
theorem applyDoesNotDependOnBackend : Obligations.ApplyDoesNotDependOnBackend := by
  unfold Obligations.ApplyDoesNotDependOnBackend
  intro s k b hm h₀ hclosed s'
  obtain ⟨t, hrun, -, happ⟩ := apply_run_appliedTo h₀ hm
  obtain ⟨t', hrun', -, happ'⟩ := apply_run_appliedTo (s₀ := s') ((applyReady_withBackend k s b).2 h₀) hm
  exact ⟨t, t', hrun, hrun', appliedTo_unique ((appliedTo_withBackend _ _ _ b _ _).1 happ') happ hclosed⟩

/-! The segments of a range. -/

/-- LEAD is shorter than a block. -/
theorem split_lead_lt (off n : Nat) : (split off n).lead < 16 := by
  simp only [split]
  omega

/-- Bytes after LEAD start at a block boundary. -/
theorem split_rest_aligned {off n : Nat} (h : 0 < (split off n).nfull ∨ 0 < (split off n).trail) :
    (off + (split off n).lead) % 16 = 0 := by
  have hsum := split_sum off n
  exact split_lead_aligned off n (by omega)

/-- A LEAD that ends before the block boundary is the whole range (R143). -/
theorem split_lead_short {off n : Nat} (h : (split off n).lead < (16 - off % 16) % 16) : (split off n).lead = n := by
  simp only [split] at *
  omega

/-- Settles O28: the equations define the split. -/
theorem splitSumsToLength : Obligations.SplitSumsToLength := by
  unfold Obligations.SplitSumsToLength
  exact fun off n => ⟨rfl, rfl, rfl, split_sum off n, Nat.le_of_lt_succ (split_lead_lt off n),
    Nat.le_of_lt_succ (split_trail_lt off n)⟩

/-- Settles O29: LEAD fits in its block, and what follows it starts at a block boundary. -/
theorem segmentsUseConsecutiveBlocks : Obligations.SegmentsUseConsecutiveBlocks := by
  unfold Obligations.SegmentsUseConsecutiveBlocks
  intro off n
  have hsum := split_sum off n
  have hlead := split_lead_fits off n
  have htrail := split_trail_lt off n
  refine ⟨split_rest_aligned, fun hshort => ?_, fun i hi => by omega, fun hpos hrest => ?_, by omega, fun i hi => ?_⟩
  · have hwhole := split_lead_short hshort
    omega
  · have haligned := split_rest_aligned hrest
    omega
  · have haligned := split_rest_aligned (off := off) (n := n) (.inr (by omega))
    omega

/-! PLAN. -/

/-- PLAN reports its results and completes with code 0 (R155). -/
theorem exec_plan {s : State} (hph : s.eng.phase = .exec) :
    exec .plan s = .next (complete 0 (s.withEng { s.eng with results := planResults s.eng.snap s.eng.results })) :=
  if_pos hph

/-- The bits of `n mod 8` count the batches of 4, 2 and 1 (R173). -/
theorem batch_bits (n : Nat) : n % 8 / 4 % 2 = n % 8 / 4 ∧ n % 8 / 2 % 2 = n % 4 / 2 ∧ n % 8 % 2 = n % 2 := by
  omega

/-- Settles O27: for each backend the results are those of the split and of the bits of `nfull`. -/
theorem planReportsSplitAndBatches : Obligations.PlanReportsSplitAndBatches := by
  unfold Obligations.PlanReportsSplitAndBatches
  intro s hph sn lead nfull acc
  obtain ⟨h4, h2, h1⟩ := batch_bits sn.split.nfull
  rw [exec_plan hph, planResults]
  cases hb : sn.backend with
  | portable =>
    have hacc : acc = false := by simp [acc, hb]
    rw [hacc]
    rfl
  | accelerated =>
    have hacc : acc = true := by simp [acc, hb]
    rw [hacc, h4, h2, h1]
    rfl

/-! The micro-steps of APPLY that issue no request. -/

/-- With no request pending APPLY in CHECK takes CHECK's step (R145). -/
theorem exec_apply_check {s : State} (hph : s.eng.phase = .check) (hp : s.eng.pend = none) : exec .apply s = microCheck s := by
  simp [exec, execApply, hph, hp]

/-- With no request pending APPLY in FINISH takes FINISH's step (R145). -/
theorem exec_apply_finish {s : State} (hph : s.eng.phase = .finish) (hp : s.eng.pend = none) :
    exec .apply s = microFinish s := by
  simp [exec, execApply, hph, hp]

/-- Settles O33: the premises are those under which the five checks pass. -/
theorem checkPassesToLead : Obligations.CheckPassesToLead := by
  unfold Obligations.CheckPassesToLead
  intro s hph hp sn top hkey hiv hlen hsrc hdst hover
  have hcheck : applyCheck s.plat s.eng.status.keyValid sn = none :=
    (applyCheck_eq_none _ _ _).2 ⟨hkey, hiv, hlen, hsrc, hdst, hover⟩
  rw [exec_apply_check hph hp, microCheck, hcheck]
  rfl

/-- Settles O34: each micro-step takes its branch without a request. -/
theorem emptySegmentsOnlyMoveOn : Obligations.EmptySegmentsOnlyMoveOn := by
  unfold Obligations.EmptySegmentsOnlyMoveOn
  intro s hp
  refine ⟨fun hph hlead => ?_, fun hph hleft htrail => ?_, fun hph htrail => ?_, fun hph => ?_⟩
  · rw [exec_apply_lead hph hp]
    exact if_pos hlead
  · rw [exec_apply_full hph hp, microFull, if_pos hleft]
    exact if_pos htrail
  · rw [exec_apply_trail hph hp]
    exact if_pos htrail
  · rw [exec_apply_finish hph hp]
    rfl

end Sys2Proof.Machine
end

section
/-! SUPPORT. The widths of the FULL steps: R172 determines the list, and the lists of R171 and R173 follow it. -/

namespace Sys2Proof.Machine

/-- `ws` lists the widths of every run: none for no blocks, else R172's width and then those of the blocks left. -/
structure ListsWidths (b : Backend) (ws : Nat → List Nat) : Prop where
  none_left : ws 0 = []
  take_one : ∀ n, n ≠ 0 → ws n = width n b :: ws (n - width n b)

/-- R172's recursion has one solution, the list the machine computes. -/
theorem ListsWidths.batchWidths_eq {b : Backend} {ws : Nat → List Nat} (h : ListsWidths b ws) {n fuel : Nat} (hn : n ≤ fuel) :
    batchWidths b fuel n = ws n := by
  induction fuel generalizing n with
  | zero => rw [Nat.le_zero.1 hn, batchWidths, h.none_left]
  | succ fuel ih =>
    by_cases h0 : n = 0
    · rw [h0, batchWidths, if_pos rfl, h.none_left]
    · have hpos := width_pos n b
      rw [batchWidths, if_neg h0, ih (by omega), h.take_one n h0]

/-- The Accelerated widths of R171, as counts. -/
def greedyWidths (n : Nat) : List Nat :=
  List.replicate (n / 8) 8 ++ List.replicate (n % 8 / 4) 4 ++ List.replicate (n % 4 / 2) 2 ++ List.replicate (n % 2) 1

/-- Eight more blocks are one more batch of 8, taken first, and leave the other batches as they are. -/
theorem greedyWidths_add_eight (m : Nat) : greedyWidths (m + 8) = 8 :: greedyWidths m := by
  have h4 : (m + 8) % 4 = m % 4 := by omega
  have h2 : (m + 8) % 2 = m % 2 := by omega
  simp [greedyWidths, h4, h2, List.replicate_succ]

/-- R171's list follows R172: from 8 blocks on the first width is 8, and the seven shorter runs are looked up. -/
theorem greedyWidths_listsWidths : ListsWidths .accelerated greedyWidths where
  none_left := rfl
  take_one n hn := by
    by_cases h8 : 8 ≤ n
    · have hw : width n .accelerated = 8 := if_pos h8
      obtain ⟨m, rfl⟩ := Nat.exists_eq_add_of_le' h8
      rw [hw, greedyWidths_add_eight, Nat.add_sub_cancel]
    · have hpos : 0 < n := Nat.pos_of_ne_zero hn
      interval_cases n <;> rfl

/-- R173's list follows R172: every width is 1. -/
theorem replicate_one_listsWidths : ListsWidths .portable (List.replicate · 1) where
  none_left := rfl
  take_one n hn := by
    obtain ⟨m, rfl⟩ := Nat.exists_eq_succ_of_ne_zero hn
    rfl

/-- Settles O30: both closed forms solve R172's recursion, so each is the list the machine computes. -/
theorem batchWidthsAreGreedy : Obligations.BatchWidthsAreGreedy := by
  unfold Obligations.BatchWidthsAreGreedy
  intro n fuel hn
  exact ⟨greedyWidths_listsWidths.batchWidths_eq hn, replicate_one_listsWidths.batchWidths_eq hn⟩

end Sys2Proof.Machine
end

section
/-! SUPPORT. An APPLY in place is its own inverse (R197). -/

namespace Sys2Proof.Machine

/-- In place R141 reads either way: combining with the same keystream byte again takes it off, so memory before an APPLY is what an
APPLY of memory after it leaves. -/
theorem appliedTo_symm_of_inPlace {p : Plat} {k : Sched} {sn : Snap} {m m' : Memory} (h : appliedTo p k sn m m')
    (hplace : sn.d = sn.s) : appliedTo p k sn m' m := by
  obtain ⟨hin, hout⟩ := h
  rw [hplace] at hin hout
  rw [appliedTo, hplace]
  refine ⟨fun i hi hclosed => ?_, fun a ha => (hout a ha).symm⟩
  rw [hin i hi hclosed, BitVec.xor_assoc, BitVec.xor_self, BitVec.xor_zero]

/-- Settles O60: memory before both is what the second APPLY leaves by R141, and this result is unique where no counter's result is
open. -/
theorem applyTwiceRestores : Obligations.ApplyTwiceRestores := by
  unfold Obligations.ApplyTwiceRestores
  intro u k hwf hu hplace hclosed
  obtain ⟨u', hrunU, hwfU, happU⟩ := apply_run_appliedTo hu hwf
  refine ⟨u', hrunU, ?_⟩
  intro v hmem hv hplat hsnap
  obtain ⟨v', hrunV, -, happV⟩ := apply_run_appliedTo hv (hmem ▸ hwfU)
  rw [hplat, hsnap, hmem] at happV
  exact ⟨v', hrunV, appliedTo_unique happV (appliedTo_symm_of_inPlace happU hplace) hclosed⟩

end Sys2Proof.Machine
end

section
/-! SUPPORT. The overlap test (R212). -/

namespace Sys2Proof.Machine

/-- The overlap test is R212's three comparisons. -/
theorem overlap_iff (d s n : Nat) : overlap d s n = true ↔ 0 < n ∧ d < s + n ∧ s < d + n := by
  simp only [overlap, Bool.and_eq_true, decide_eq_true_eq, and_assoc]

@[simp] theorem overlap_zero (d s : Nat) : overlap d s 0 = false := by
  rw [Bool.eq_false_iff, ne_eq, overlap_iff]
  exact fun ⟨hpos, _⟩ => Nat.lt_irrefl 0 hpos

/-- Settles O31: the comparisons are the test, the larger start is the shared byte, and an empty range has none. -/
theorem overlapIsASharedByte : Obligations.OverlapIsASharedByte := by
  unfold Obligations.OverlapIsASharedByte
  exact fun d s n => ⟨overlap_iff d s n, overlap_iff_shared_byte d s n, overlap_zero d s⟩

end Sys2Proof.Machine
end

section
/-! SUPPORT. The commands that end with their check: NOP, an illegal command word, and CONSTRUCT with another key length
(R221, R222, R225, R226). -/

namespace Sys2Proof.Machine

/-- Settles O16: in EXEC the meaning of NOP is the completion with code 0. -/
theorem nopOnlyCompletes : Obligations.NopOnlyCompletes := by
  unfold Obligations.NopOnlyCompletes
  intro s hph
  rw [exec, execNop]
  exact if_pos hph

/-- Settles O17: a word outside R94's rows is rejected (O1), and the engine completes a rejected word with code 7. -/
theorem illegalCommandCompletesWithSeven : Obligations.IllegalCommandCompletesWithSeven := by
  unfold Obligations.IllegalCommandCompletesWithSeven
  intro s hph hword
  obtain ⟨why, hop⟩ : ∃ why, decodeCmd s.eng.snap.op = .reject why := by
    rw [decodeCmd_reject_iff]
    omega
  exact engineStep_illegal (by simp [hph]) hop

/-- Only the three key lengths of AES have a round count (R221). -/
theorem roundCount_eq_none_iff (n : Nat) : roundCount n = none ↔ n ≠ 16 ∧ n ≠ 24 ∧ n ≠ 32 := by
  unfold roundCount
  split <;> simp_all

/-- CONSTRUCT with a key length that has no round count raises InvalidKeyLength (R222). -/
theorem exec_construct_rejects {s : State} (hph : s.eng.phase = .exec) (hp : s.eng.pend = none)
    (hnr : roundCount s.eng.snap.keyLen.toNat = none) : exec .construct s = raise .invalidKeyLength s := by
  simp [exec, execConstruct, hph, hp, hnr]

/-- Settles O18: another key length has no round count. -/
theorem constructRejectsKeyLength : Obligations.ConstructRejectsKeyLength := by
  unfold Obligations.ConstructRejectsKeyLength
  intro s hph hp h16 h24 h32
  have hnr : roundCount s.eng.snap.keyLen.toNat = none :=
    (roundCount_eq_none_iff _).2 ⟨mt (BitVec.eq_of_toNat_eq (y := 16)) h16, mt (BitVec.eq_of_toNat_eq (y := 24)) h24,
      mt (BitVec.eq_of_toNat_eq (y := 32)) h32⟩
  exact exec_construct_rejects hph hp hnr

end Sys2Proof.Machine
end

section
/-! SUPPORT. The five checks of APPLY when one fails (R146, R244): which error `applyCheck` answers, in the order of the checks,
and how CHECK completes with it. -/

namespace Sys2Proof.Machine

section
variable {p : Plat} {sn : Snap}

theorem applyCheck_notConstructed : applyCheck p false sn = some .notConstructed := if_pos rfl

theorem applyCheck_invalidIvLength (hiv : sn.ivLen ≠ 16) : applyCheck p true sn = some .invalidIvLength := by
  rw [applyCheck, if_neg nofun, if_pos hiv]

theorem applyCheck_lengthMismatch (hiv : sn.ivLen = 16) (hlen : sn.nd ≠ sn.ns) :
    applyCheck p true sn = some .lengthMismatch := by
  rw [applyCheck, if_neg nofun, if_neg (not_not.2 hiv), if_pos hlen]

theorem applyCheck_addressRange (hiv : sn.ivLen = 16) (hlen : sn.nd = sn.ns)
    (hfit : ¬ (sn.s.toNat + sn.nd.toNat ≤ 2 ^ p.addrW ∧ sn.d.toNat + sn.nd.toNat ≤ 2 ^ p.addrW)) :
    applyCheck p true sn = some .addressRange := by
  have hleaves : 2 ^ p.addrW < sn.s.toNat + sn.nd.toNat ∨ 2 ^ p.addrW < sn.d.toNat + sn.nd.toNat := by omega
  rw [applyCheck, if_neg nofun, if_neg (not_not.2 hiv), if_neg (not_not.2 hlen), if_pos hleaves]

theorem applyCheck_invalidOverlap (hiv : sn.ivLen = 16) (hlen : sn.nd = sn.ns)
    (hfit : sn.s.toNat + sn.nd.toNat ≤ 2 ^ p.addrW ∧ sn.d.toNat + sn.nd.toNat ≤ 2 ^ p.addrW)
    (hover : overlap sn.d.toNat sn.s.toNat sn.nd.toNat = true) (hne : sn.d ≠ sn.s) :
    applyCheck p true sn = some .invalidOverlap := by
  have hstays : ¬ (2 ^ p.addrW < sn.s.toNat + sn.nd.toNat ∨ 2 ^ p.addrW < sn.d.toNat + sn.nd.toNat) := by omega
  rw [applyCheck, if_neg nofun, if_neg (not_not.2 hiv), if_neg (not_not.2 hlen), if_neg hstays, if_pos ⟨hover, hne⟩]

end

/-- CHECK raises the error the checks answer (R147). -/
theorem exec_apply_check_fails {s : State} {e : Err} (hph : s.eng.phase = .check) (hp : s.eng.pend = none)
    (hcheck : applyCheck s.plat s.eng.status.keyValid s.eng.snap = some e) : exec .apply s = raise e s := by
  rw [exec_apply_check hph hp, microCheck, hcheck]

/-- Settles O32: each clause's premises say which check fails first, and CHECK completes with that check's code. -/
theorem checkReportsFirstFailure : Obligations.CheckReportsFirstFailure := by
  unfold Obligations.CheckReportsFirstFailure
  intro s hph hp sn top fits ends
  refine ⟨fun hkey => ?_, fun hkey hiv => ?_, fun hkey hiv hlen => ?_, fun hkey hiv hlen hfit => ?_,
    fun hkey hiv hlen hfit hne hshare => ?_⟩
  · exact exec_apply_check_fails (e := .notConstructed) hph hp (hkey ▸ applyCheck_notConstructed)
  · exact exec_apply_check_fails (e := .invalidIvLength) hph hp (hkey ▸ applyCheck_invalidIvLength hiv)
  · exact exec_apply_check_fails (e := .lengthMismatch) hph hp (hkey ▸ applyCheck_lengthMismatch hiv hlen)
  · exact exec_apply_check_fails (e := .addressRange) hph hp (hkey ▸ applyCheck_addressRange hiv hlen hfit)
  · have hover : overlap sn.d.toNat sn.s.toNat sn.nd.toNat = true := (overlap_iff _ _ _).2 hshare
    exact exec_apply_check_fails (e := .invalidOverlap) hph hp (hkey ▸ applyCheck_invalidOverlap hiv hlen hfit hover hne)

end Sys2Proof.Machine
end

section
/-! SUPPORT. What the reset input does to data memory (R270, R272). -/

namespace Sys2Proof.Machine

/-- The reset transaction of the engine at `eng` is `resetEngine` (R270). -/
theorem runHostOp_reset_self (s : State) : runHostOp (.reset s.eng.base) s = .next (resetEngine s) := by
  simp [runHostOp, focus_self (q := fun e => e.base == s.eng.base)]

theorem mem_dstRange (sn : Snap) (a : Nat) : a ∈ dstRange sn ↔ sn.d.toNat ≤ a ∧ a < sn.d.toNat + sn.nd.toNat := by
  simp only [dstRange, List.mem_map, List.mem_range]
  constructor
  · rintro ⟨i, hi, rfl⟩
    omega
  · rintro ⟨hlo, hhi⟩
    exact ⟨a - sn.d.toNat, by omega, by omega⟩

/-- Outside an APPLY past CHECK a reset leaves memory (R270). -/
theorem resetEngine_mem_not_past_check {s : State} (h : pastCheck s.eng.phase = false) :
    (resetEngine s).mem = s.mem := by
  simp [resetEngine, h]

/-- Past CHECK a reset changes memory by one draw for each byte of the destination range (R272). -/
theorem resetEngine_mem_past_check {s : State} (h : pastCheck s.eng.phase = true) :
    (resetEngine s).mem = (drawAt (dstRange s.eng.snap) s).mem := by
  simp [resetEngine, h]

/-- Settles O51: a reset past CHECK draws exactly the bytes of the destination range, and no other reset draws. -/
theorem resetDuringApplyLeavesRangeOpen : Obligations.ResetDuringApplyLeavesRangeOpen := by
  unfold Obligations.ResetDuringApplyLeavesRangeOpen
  intro s hm d n
  refine ⟨resetEngine s, runHostOp_reset_self s, resetEngine_mem_not_past_check, fun hpast => ?_⟩
  rw [resetEngine_mem_past_check hpast]
  refine ⟨fun a hout => drawAt_read_ne _ s a fun hin => ?_, fun i hi => drawAt_read_mem _ s hm (d + i) ?_⟩
  · obtain ⟨hlo, hhi⟩ := (mem_dstRange _ a).1 hin
    omega
  · exact (mem_dstRange _ _).2 ⟨Nat.le_add_right d i, Nat.add_lt_add_left hi d⟩

end Sys2Proof.Machine
end
